-- ==== Sys2Proof/Word.lean ====
section
/-! DEFINITION. The words of the block: a byte, a physical address, the data field of a request or
response, and the 64-bit request and response words (spec 00_scope.md R7, R8; 30_encoding.md R71, R73). -/

namespace Sys2Proof

/-- An 8-bit value (R8). -/
abbrev Byte := BitVec 8

/-- A 24-bit physical byte address (R7 `AW`, R8, R40). -/
abbrev Addr := BitVec 24

/-- The 32-bit data field of a request and of a response (R7 `DW`). -/
abbrev Data := BitVec 32

/-- A 64-bit request or response word (R71, R73). -/
abbrev Word64 := BitVec 64

end Sys2Proof
end

