-- ==== Sys2Proof/Config.lean ====
section
/-! DEFINITION. The parameters of the block that are fixed for a machine (spec 00_scope.md R7, 20_memory.md R50)
and the values the spec leaves open, as opaque constants nothing can evaluate (92_eei_decisions.md D13, D14,
D17, D20). -/

namespace Sys2Proof.Config

/-- Inclusive bounds and size of the RAM region (R7, R21). -/
def ramBase : Addr := 0x000000#24
def ramLast : Addr := 0x0FFFFF#24
def ramSize : Nat := 0x100000

/-- Inclusive bounds and size of the ROM region (R7, R22). -/
def romBase : Addr := 0x400000#24
def romLast : Addr := 0x41FFFF#24
def romSize : Nat := 0x20000

/-- Bases and lengths of regions are multiples of this (R7, D8). -/
def granularity : Nat := 4

/-- The largest device index a region handle can name (R76). -/
def lastDevice : Nat := 253

/-- The master clock of the Cycle Counter, in hertz (R7, R188). -/
def masterClockHz : Nat := 7833600

/-- A device window of the address map (R50, R190). -/
inductive Window where
  | serialRead | serialWrite | disk | peripheral
deriving DecidableEq, Repr

/-- The inclusive bounds of each device window. -/
def Window.first : Window → Addr
  | .serialRead => 0x800000#24
  | .serialWrite => 0xA00000#24
  | .disk => 0xC00000#24
  | .peripheral => 0xE80000#24

def Window.last : Window → Addr
  | .serialRead => 0x9FFFFF#24
  | .serialWrite => 0xBFFFFF#24
  | .disk => 0xDFFFFF#24
  | .peripheral => 0xEFFFFF#24

/-- One access an external device has served (R94, R97, R100, R101). A device's state is the list of the
accesses that have reached it since reset, oldest first, but for a refused write that leaves it as it was (assumptions 6 and
8). -/
inductive DeviceAccess where
  | read (a : Addr)
  | write (a : Addr) (v : Byte)
  | readBit (a : Addr)
  | writeBit (a : Addr) (b : Bool)
deriving DecidableEq, Repr

/-- FREE. `RAM_INIT`: the contents of RAM after cold reset, as cells over bytes of 0x00 (R34, D13; assumption 2). -/
opaque ramInit : List Host.Cell

/-- FREE. `ROM_IMAGE`: the contents of the ROM, as cells over bytes of 0x00 (R22, D20; assumption 3). -/
opaque romImage : List Host.Cell

/-- FREE. `BITREAD` on the 254 byte values the spec leaves open (R116, D14; assumption 4). -/
opaque bitReadOther : Byte → Bool

/-- FREE. The byte device `i` gives to a byte read of an address, after the accesses listed (R94; assumption 6). -/
opaque deviceByte : Nat → List DeviceAccess → Addr → Byte

/-- FREE. The bit device `i` gives to a bit read of an address, after the accesses listed (R100; assumption 6). -/
opaque deviceBit : Nat → List DeviceAccess → Addr → Bool

/-- FREE. Whether device `i`, which decides per access, permits the write given, after the accesses listed
(R103, R104; assumption 7). -/
opaque devicePermits : Nat → List DeviceAccess → DeviceAccess → Bool

/-- FREE. Whether a write that device `i`, which decides per access, refuses leaves the device changed, after the accesses
listed (R97, R104). The flag says that an earlier byte of the same request was refused: whether this one is then still handed
over is open too (R98; assumption 8). -/
opaque deviceReacts : Nat → List DeviceAccess → Bool → DeviceAccess → Bool

end Sys2Proof.Config
end

