-- ==== Sys2Proof/Syntax.lean ====
section
/-! DEFINITION. Requests, ports, outcomes and the operations of the block: one constructor of `Instr` for each row
of spec/opcode_table.json (30_encoding.md R70, R75), beside them the operations of the Cycle Counter, which have
no encoding (60_exceptions.md R186 to R188). -/

namespace Sys2Proof

/-- A region's kind (R10, R24): the RAM, the ROM, or external device `i` of the table `EXT`. -/
inductive Region where
  | ram
  | rom
  | ext (i : Nat)
deriving DecidableEq, Repr

/-- Where a request word is placed (R70). `view` is no port of the block: it is the decoder's inner line to the overlay
view, which has no port of its own (R130), and stands here so that the table's view rows have a place (assumption 9). -/
inductive Port where
  | bus
  | ovl
  | cfg
  | reg (r : Region)
  | view
deriving DecidableEq, Repr

/-- The width of an access: 8, 16 or 32 bits (R45). -/
inductive Width where
  | w8
  | w16
  | w32
deriving DecidableEq, Repr

/-- How an operation ends (R11): success with the data field of the response (0 where no value is returned, R73), or
one of the three fault conditions with its payload (R170 to R172). -/
inductive Verdict where
  | ok (v : Data)
  | unmapped (a : Addr)
  | misaligned (a : Addr)
  | readOnly (a : Addr) (v : Data)
deriving DecidableEq, Repr

/-- The operations, one constructor per row of the operation table (R75). A field an operation does not read (R72) is no
argument of it; the region port's device index comes from the port. -/
inductive Instr where
  -- port P_BUS (R142 to R147)
  | busRead8 (a : Addr)
  | busRead16 (a : Addr)
  | busRead32 (a : Addr)
  | busWrite8 (a : Addr) (v : BitVec 8)
  | busWrite16 (a : Addr) (v : BitVec 16)
  | busWrite32 (a : Addr) (v : BitVec 32)
  -- port P_REG(RAM) (R110 to R117)
  | ramRead8 (a : Addr)
  | ramRead16 (a : Addr)
  | ramRead32 (a : Addr)
  | ramReadBit (a : Addr)
  | ramWrite8 (a : Addr) (v : BitVec 8)
  | ramWrite16 (a : Addr) (v : BitVec 16)
  | ramWrite32 (a : Addr) (v : BitVec 32)
  | ramWriteBit (a : Addr) (b : Bool)
  -- port P_REG(ROM) (R120 to R127)
  | romRead8 (a : Addr)
  | romRead16 (a : Addr)
  | romRead32 (a : Addr)
  | romReadBit (a : Addr)
  | romWrite8 (a : Addr) (v : BitVec 8)
  | romWrite16 (a : Addr) (v : BitVec 16)
  | romWrite32 (a : Addr) (v : BitVec 32)
  | romWriteBit (a : Addr) (b : Bool)
  -- the overlay view (R131 to R138)
  | viewRead8 (a : Addr)
  | viewRead16 (a : Addr)
  | viewRead32 (a : Addr)
  | viewReadBit (a : Addr)
  | viewWrite8 (a : Addr) (v : BitVec 8)
  | viewWrite16 (a : Addr) (v : BitVec 16)
  | viewWrite32 (a : Addr) (v : BitVec 32)
  | viewWriteBit (a : Addr) (b : Bool)
  -- port P_REG(EXT(i)) (R94 to R101)
  | extRead8 (i : Nat) (a : Addr)
  | extRead16 (i : Nat) (a : Addr)
  | extRead32 (i : Nat) (a : Addr)
  | extReadBit (i : Nat) (a : Addr)
  | extWrite8 (i : Nat) (a : Addr) (v : BitVec 8)
  | extWrite16 (i : Nat) (a : Addr) (v : BitVec 16)
  | extWrite32 (i : Nat) (a : Addr) (v : BitVec 32)
  | extWriteBit (i : Nat) (a : Addr) (b : Bool)
  -- ports P_OVL and P_CFG (R160 to R162)
  | isOverlayActive
  | setOverlayActive (b : Bool)
  | register (r : Region)
deriving DecidableEq, Repr

/-- The operations of the Cycle Counter (R186 to R188); they have no encoding and no port on the block (R189). -/
inductive CounterOp where
  | advance (delta : Nat)
  | now
  | ticksForPeriod (hz : Nat)
deriving DecidableEq, Repr

/-- What an outside agent hands the machine: a request word on a port (R70), or the scheduler's or a reader's call of the
Cycle Counter (R26, R187). -/
inductive Input where
  | request (p : Port) (w : Word64)
  | counter (c : CounterOp)
deriving DecidableEq, Repr

end Sys2Proof
end

