-- ==== Sys2Proof/WellFormed.lean ====
section
/-! DEFINITION. The one bound the types of an operation do not hold: a device index stays within the range a region
handle can name (spec 30_encoding.md R76). Whether the named device exists is a matter of the state. -/

namespace Sys2Proof

/-- R76: `rid = 2 + i` with `i <= 253`. -/
def Region.wellFormed : Region → Bool
  | .ram => true
  | .rom => true
  | .ext i => decide (i ≤ Config.lastDevice)

def Port.wellFormed : Port → Bool
  | .bus => true
  | .ovl => true
  | .cfg => true
  | .reg r => r.wellFormed
  | .view => true

/-- The region whose port or handle an operation names, where it names one. -/
def Instr.namedRegion : Instr → Option Region
  | .busRead8 _ => none
  | .busRead16 _ => none
  | .busRead32 _ => none
  | .busWrite8 _ _ => none
  | .busWrite16 _ _ => none
  | .busWrite32 _ _ => none
  | .ramRead8 _ => some .ram
  | .ramRead16 _ => some .ram
  | .ramRead32 _ => some .ram
  | .ramReadBit _ => some .ram
  | .ramWrite8 _ _ => some .ram
  | .ramWrite16 _ _ => some .ram
  | .ramWrite32 _ _ => some .ram
  | .ramWriteBit _ _ => some .ram
  | .romRead8 _ => some .rom
  | .romRead16 _ => some .rom
  | .romRead32 _ => some .rom
  | .romReadBit _ => some .rom
  | .romWrite8 _ _ => some .rom
  | .romWrite16 _ _ => some .rom
  | .romWrite32 _ _ => some .rom
  | .romWriteBit _ _ => some .rom
  | .viewRead8 _ => none
  | .viewRead16 _ => none
  | .viewRead32 _ => none
  | .viewReadBit _ => none
  | .viewWrite8 _ _ => none
  | .viewWrite16 _ _ => none
  | .viewWrite32 _ _ => none
  | .viewWriteBit _ _ => none
  | .extRead8 i _ => some (.ext i)
  | .extRead16 i _ => some (.ext i)
  | .extRead32 i _ => some (.ext i)
  | .extReadBit i _ => some (.ext i)
  | .extWrite8 i _ _ => some (.ext i)
  | .extWrite16 i _ _ => some (.ext i)
  | .extWrite32 i _ _ => some (.ext i)
  | .extWriteBit i _ _ => some (.ext i)
  | .isOverlayActive => none
  | .setOverlayActive _ => none
  | .register r => some r

/-- An operation is well-formed when the region it names is one a handle or port can name. -/
def Instr.wellFormed (i : Instr) : Bool :=
  match i.namedRegion with
  | none => true
  | some r => r.wellFormed

end Sys2Proof
end

