-- ==== Sys2Proof/Decode.lean ====
section
/-! DEFINITION. The request word and the port it arrives on, read as an operation, and the encoder back
(spec 30_encoding.md R71 to R81). Decoding is total: a word that is no request (R77) is rejected by name. -/

namespace Sys2Proof

/-! ### The fields of a request word (R71) -/

def opField (w : Word64) : BitVec 4 := w.extractLsb' 60 4
def rsvField (w : Word64) : BitVec 4 := w.extractLsb' 56 4
def addrField (w : Word64) : Addr := w.extractLsb' 32 24
def dataField (w : Word64) : Data := w.extractLsb' 0 32

/-- R71: `op`, four reserved zeros, `addr`, `data`, from the most significant bit down. -/
def requestWord (op : BitVec 4) (a : Addr) (d : Data) : Word64 := op ++ 0#4 ++ a ++ d

/-- Why a word on a port is no request (R77 (a) to (c)), and R76's bound on a port's device index. -/
inductive DecodeError where
  | reservedBits     -- (a) `rsv` is not 0000
  | reservedOp       -- (b) `op` in 0xB to 0xF
  | notAccepted      -- (c) the port does not accept this `op`
  | noSuchPort       -- the device index of the port is above 253 (R76)
deriving DecidableEq, Repr

/-- The region a handle names (R76). -/
def regionOfHandle (rid : BitVec 8) : Region :=
  match rid.toNat with
  | 0 => .ram
  | 1 => .rom
  | i + 2 => .ext i

def handleOfRegion : Region → BitVec 8
  | .ram => 0#8
  | .rom => 1#8
  | .ext i => BitVec.ofNat 8 (i + 2)

/-- The rejection of an `op` that the port does not have (R77 (b), (c)). -/
def badOp (op : Nat) : DecodeError := if 0xB ≤ op then .reservedOp else .notAccepted

/-! ### The operations of each port (R70, R72, R75) -/

def decodeBus (op : Nat) (a : Addr) (d : Data) : Except DecodeError Instr :=
  match op with
  | 0x0 => .ok (.busRead8 a)
  | 0x1 => .ok (.busRead16 a)
  | 0x2 => .ok (.busRead32 a)
  | 0x4 => .ok (.busWrite8 a (d.extractLsb' 0 8))
  | 0x5 => .ok (.busWrite16 a (d.extractLsb' 0 16))
  | 0x6 => .ok (.busWrite32 a d)
  | n => .error (badOp n)

def decodeRam (op : Nat) (a : Addr) (d : Data) : Except DecodeError Instr :=
  match op with
  | 0x0 => .ok (.ramRead8 a)
  | 0x1 => .ok (.ramRead16 a)
  | 0x2 => .ok (.ramRead32 a)
  | 0x3 => .ok (.ramReadBit a)
  | 0x4 => .ok (.ramWrite8 a (d.extractLsb' 0 8))
  | 0x5 => .ok (.ramWrite16 a (d.extractLsb' 0 16))
  | 0x6 => .ok (.ramWrite32 a d)
  | 0x7 => .ok (.ramWriteBit a (d.getLsbD 0))
  | n => .error (badOp n)

def decodeRom (op : Nat) (a : Addr) (d : Data) : Except DecodeError Instr :=
  match op with
  | 0x0 => .ok (.romRead8 a)
  | 0x1 => .ok (.romRead16 a)
  | 0x2 => .ok (.romRead32 a)
  | 0x3 => .ok (.romReadBit a)
  | 0x4 => .ok (.romWrite8 a (d.extractLsb' 0 8))
  | 0x5 => .ok (.romWrite16 a (d.extractLsb' 0 16))
  | 0x6 => .ok (.romWrite32 a d)
  | 0x7 => .ok (.romWriteBit a (d.getLsbD 0))
  | n => .error (badOp n)

def decodeView (op : Nat) (a : Addr) (d : Data) : Except DecodeError Instr :=
  match op with
  | 0x0 => .ok (.viewRead8 a)
  | 0x1 => .ok (.viewRead16 a)
  | 0x2 => .ok (.viewRead32 a)
  | 0x3 => .ok (.viewReadBit a)
  | 0x4 => .ok (.viewWrite8 a (d.extractLsb' 0 8))
  | 0x5 => .ok (.viewWrite16 a (d.extractLsb' 0 16))
  | 0x6 => .ok (.viewWrite32 a d)
  | 0x7 => .ok (.viewWriteBit a (d.getLsbD 0))
  | n => .error (badOp n)

def decodeExt (i : Nat) (op : Nat) (a : Addr) (d : Data) : Except DecodeError Instr :=
  if Config.lastDevice < i then .error .noSuchPort else
  match op with
  | 0x0 => .ok (.extRead8 i a)
  | 0x1 => .ok (.extRead16 i a)
  | 0x2 => .ok (.extRead32 i a)
  | 0x3 => .ok (.extReadBit i a)
  | 0x4 => .ok (.extWrite8 i a (d.extractLsb' 0 8))
  | 0x5 => .ok (.extWrite16 i a (d.extractLsb' 0 16))
  | 0x6 => .ok (.extWrite32 i a d)
  | 0x7 => .ok (.extWriteBit i a (d.getLsbD 0))
  | n => .error (badOp n)

def decodeOvl (op : Nat) (d : Data) : Except DecodeError Instr :=
  match op with
  | 0x8 => .ok .isOverlayActive
  | 0x9 => .ok (.setOverlayActive (d.getLsbD 0))
  | n => .error (badOp n)

def decodeCfg (op : Nat) (d : Data) : Except DecodeError Instr :=
  match op with
  | 0xA => .ok (.register (regionOfHandle (d.extractLsb' 0 8)))
  | n => .error (badOp n)

/-- The operation a word asks for on the port it arrives on: `op` selects the operation and the port the component whose
rule applies (R71, R75); everything else is no request (R77). -/
def decode (p : Port) (w : Word64) : Except DecodeError Instr :=
  if rsvField w ≠ 0#4 then .error .reservedBits else
  match p with
  | .bus => decodeBus (opField w).toNat (addrField w) (dataField w)
  | .ovl => decodeOvl (opField w).toNat (dataField w)
  | .cfg => decodeCfg (opField w).toNat (dataField w)
  | .reg .ram => decodeRam (opField w).toNat (addrField w) (dataField w)
  | .reg .rom => decodeRom (opField w).toNat (addrField w) (dataField w)
  | .reg (.ext i) => decodeExt i (opField w).toNat (addrField w) (dataField w)
  | .view => decodeView (opField w).toNat (addrField w) (dataField w)

/-! ### The encoder: the canonical words (R81), ignored fields zero -/

/-- The port an operation is requested on (R70). -/
def encodePort : Instr → Port
  | .busRead8 _ => .bus
  | .busRead16 _ => .bus
  | .busRead32 _ => .bus
  | .busWrite8 _ _ => .bus
  | .busWrite16 _ _ => .bus
  | .busWrite32 _ _ => .bus
  | .ramRead8 _ => .reg .ram
  | .ramRead16 _ => .reg .ram
  | .ramRead32 _ => .reg .ram
  | .ramReadBit _ => .reg .ram
  | .ramWrite8 _ _ => .reg .ram
  | .ramWrite16 _ _ => .reg .ram
  | .ramWrite32 _ _ => .reg .ram
  | .ramWriteBit _ _ => .reg .ram
  | .romRead8 _ => .reg .rom
  | .romRead16 _ => .reg .rom
  | .romRead32 _ => .reg .rom
  | .romReadBit _ => .reg .rom
  | .romWrite8 _ _ => .reg .rom
  | .romWrite16 _ _ => .reg .rom
  | .romWrite32 _ _ => .reg .rom
  | .romWriteBit _ _ => .reg .rom
  | .viewRead8 _ => .view
  | .viewRead16 _ => .view
  | .viewRead32 _ => .view
  | .viewReadBit _ => .view
  | .viewWrite8 _ _ => .view
  | .viewWrite16 _ _ => .view
  | .viewWrite32 _ _ => .view
  | .viewWriteBit _ _ => .view
  | .extRead8 i _ => .reg (.ext i)
  | .extRead16 i _ => .reg (.ext i)
  | .extRead32 i _ => .reg (.ext i)
  | .extReadBit i _ => .reg (.ext i)
  | .extWrite8 i _ _ => .reg (.ext i)
  | .extWrite16 i _ _ => .reg (.ext i)
  | .extWrite32 i _ _ => .reg (.ext i)
  | .extWriteBit i _ _ => .reg (.ext i)
  | .isOverlayActive => .ovl
  | .setOverlayActive _ => .ovl
  | .register _ => .cfg

/-- One bit as a data field (R72, R73): the bit in `data[0]`, the rest zero. -/
def bitData (b : Bool) : Data := if b then 1#32 else 0#32

/-- The canonical request word of an operation (R81). -/
def encodeWord : Instr → Word64
  | .busRead8 a => requestWord 0x0 a 0#32
  | .busRead16 a => requestWord 0x1 a 0#32
  | .busRead32 a => requestWord 0x2 a 0#32
  | .busWrite8 a v => requestWord 0x4 a (v.setWidth 32)
  | .busWrite16 a v => requestWord 0x5 a (v.setWidth 32)
  | .busWrite32 a v => requestWord 0x6 a v
  | .ramRead8 a => requestWord 0x0 a 0#32
  | .ramRead16 a => requestWord 0x1 a 0#32
  | .ramRead32 a => requestWord 0x2 a 0#32
  | .ramReadBit a => requestWord 0x3 a 0#32
  | .ramWrite8 a v => requestWord 0x4 a (v.setWidth 32)
  | .ramWrite16 a v => requestWord 0x5 a (v.setWidth 32)
  | .ramWrite32 a v => requestWord 0x6 a v
  | .ramWriteBit a b => requestWord 0x7 a (bitData b)
  | .romRead8 a => requestWord 0x0 a 0#32
  | .romRead16 a => requestWord 0x1 a 0#32
  | .romRead32 a => requestWord 0x2 a 0#32
  | .romReadBit a => requestWord 0x3 a 0#32
  | .romWrite8 a v => requestWord 0x4 a (v.setWidth 32)
  | .romWrite16 a v => requestWord 0x5 a (v.setWidth 32)
  | .romWrite32 a v => requestWord 0x6 a v
  | .romWriteBit a b => requestWord 0x7 a (bitData b)
  | .viewRead8 a => requestWord 0x0 a 0#32
  | .viewRead16 a => requestWord 0x1 a 0#32
  | .viewRead32 a => requestWord 0x2 a 0#32
  | .viewReadBit a => requestWord 0x3 a 0#32
  | .viewWrite8 a v => requestWord 0x4 a (v.setWidth 32)
  | .viewWrite16 a v => requestWord 0x5 a (v.setWidth 32)
  | .viewWrite32 a v => requestWord 0x6 a v
  | .viewWriteBit a b => requestWord 0x7 a (bitData b)
  | .extRead8 _ a => requestWord 0x0 a 0#32
  | .extRead16 _ a => requestWord 0x1 a 0#32
  | .extRead32 _ a => requestWord 0x2 a 0#32
  | .extReadBit _ a => requestWord 0x3 a 0#32
  | .extWrite8 _ a v => requestWord 0x4 a (v.setWidth 32)
  | .extWrite16 _ a v => requestWord 0x5 a (v.setWidth 32)
  | .extWrite32 _ a v => requestWord 0x6 a v
  | .extWriteBit _ a b => requestWord 0x7 a (bitData b)
  | .isOverlayActive => requestWord 0x8 0#24 0#32
  | .setOverlayActive b => requestWord 0x9 0#24 (bitData b)
  | .register r => requestWord 0xA 0#24 ((handleOfRegion r).setWidth 32)

/-! ### The opcode table's words, which name no port -/

/-- The port a bare word of the opcode table is taken to arrive on: the first row of the table that the word matches
(assumption 10). The rows of different ports share their words and only the port tells them apart (R75). -/
def tablePort (w : Word64) : Port :=
  match (opField w).toNat with
  | 0x3 => .reg .ram
  | 0x7 => .reg .ram
  | 0x8 => .ovl
  | 0x9 => .ovl
  | 0xA => .cfg
  | _ => .bus

/-- The low `nbits` bits of `w` as a request word, everything above them zero. -/
def tableWord (nbits w : Nat) : Word64 := BitVec.ofNat 64 (w % 2 ^ nbits)

/-- The operation this decoder reads from a word of the opcode table. -/
def decodeTableWord (nbits w : Nat) : Option Instr :=
  match decode (tablePort (tableWord nbits w)) (tableWord nbits w) with
  | .ok i => some i
  | .error _ => none

end Sys2Proof
end

