-- ==== Sys2Proof/Machine/Memory.lean ====
section
/-! DEFINITION. Byte storage, as the RAM and ROM regions own it (spec 10_state.md R21, R22): a list of
(offset, byte) cells in one canonical form. An unlisted offset reads as 0x00; that is how the list writes a byte
down, not a claim about what storage holds after reset (assumption 1). -/

namespace Sys2Proof.Machine

/-- The bytes of one region's storage, by offset. -/
abbrev Memory := List Host.Cell

/-- What an offset that is not listed reads as. -/
def unlisted : Byte := 0x00#8

/-- Cells from offset `lo` on, offsets strictly rising, none equal to the unlisted byte. -/
def Memory.wfFrom (lo : Nat) : Memory → Bool
  | [] => true
  | (k, b) :: m => decide (lo ≤ k) && decide (b ≠ unlisted) && Memory.wfFrom (k + 1) m

/-- The canonical form: equal memories are equal lists. -/
def Memory.wf (m : Memory) : Bool := Memory.wfFrom 0 m

/-- Every listed offset is below `n`: nothing is listed outside the region (R32). -/
def Memory.below (n : Nat) (m : Memory) : Bool := m.all fun c => decide (c.1 < n)

/-- The byte at an offset. -/
def Memory.byte : Memory → Nat → Byte
  | [], _ => unlisted
  | (k, b) :: m, o => if k = o then b else Memory.byte m o

/-- One byte written at an offset. -/
def Memory.write : Memory → Nat → Byte → Memory
  | [], o, v => if v = unlisted then [] else [(o, v)]
  | (k, b) :: m, o, v =>
    if o < k then (if v = unlisted then (k, b) :: m else (o, v) :: (k, b) :: m)
    else if o = k then (if v = unlisted then m else (o, v) :: m)
    else (k, b) :: Memory.write m o v

/-- `n` consecutive bytes from an offset, lowest first. -/
def Memory.readBytes (m : Memory) (o : Nat) : Nat → List Byte
  | 0 => []
  | n + 1 => m.byte o :: Memory.readBytes m (o + 1) n

/-- Consecutive bytes written from an offset, lowest first. -/
def Memory.writeBytes (m : Memory) (o : Nat) : List Byte → Memory
  | [] => m
  | b :: bs => Memory.writeBytes (m.write o b) (o + 1) bs

/-- Storage of `size` bytes with the given cells written into it; a cell outside the storage is dropped. -/
def Memory.ofCells (size : Nat) (cells : List Host.Cell) : Memory :=
  cells.foldl (fun m c => if c.1 < size then Memory.write m c.1 c.2 else m) []

/-- Storage whose bytes from offset `o` on are the bytes of a file, in order (R203). -/
def Memory.ofBytes (o : Nat) : List Byte → Memory
  | [] => []
  | b :: bs => if b = unlisted then Memory.ofBytes (o + 1) bs else (o, b) :: Memory.ofBytes (o + 1) bs

end Sys2Proof.Machine
end

