-- ==== Sys2Proof/Machine/State.lean ====
section
/-! DEFINITION. The state of the block (spec 10_state.md R20 to R26, R36), the parameters a machine is built with
(00_scope.md R7), and the model's own queue of inputs and last reply; the reasons a step can stop; the state after
cold reset (R34, R200). -/

namespace Sys2Proof.Machine

/-- The block never stops with a fault: its three fault conditions are answers to a request, after which the next request
is served normally (R176, R178; 93_implementation_defined.md: nothing is treated as `stuck`). So this type is empty.
Raised by nobody; safe. -/
inductive Fault where
deriving DecidableEq, Repr

/-- Why an input has no step (R14). All are safe: the spec gives such an input no behaviour, and a run ends there. -/
inductive Refusal where
  /-- An operation without a meaning. Raised by `exec`'s arms only; none is left. Safe. -/
  | notModelled (mnemonic : String)
  /-- No agent has placed a request: the block takes no step of its own (R13). Raised by `step`. Safe. -/
  | noRequest
  /-- The word on its port is not a request (R77 (a) to (c)). Raised by `step`. Safe. -/
  | notARequest (e : DecodeError)
  /-- A region that does not exist: an unknown handle (R77 (d)), or the port of a device that is not in `EXT`. Raised by
  `register` and the region-level operations of a device. Safe. -/
  | noSuchRegion
  /-- A region-level operation with a byte outside the region (R102). Raised by the region-level operations. Safe. -/
  | outOfBounds
  /-- An operation of the overlay view with a byte outside its range (R130). Raised by the view operations. Safe. -/
  | outsideView
  /-- An operation of the overlay view while the overlay is inactive or no ROM region is cached (R130). Raised by the view
  operations. Safe. -/
  | viewInactive
  /-- A bit operation of a device that does not have it (R100, R101). Raised by the device bit operations. Safe. -/
  | declinedBit
  /-- A device that accepts one byte of a multi-byte write and refuses another (R98, U4). Raised by device writes of 16 and
  32 bits, at the region port and through the bus. Safe. -/
  | partialWrite
  /-- `ticks_for_period(0)` (R188). Raised by the Cycle Counter. Safe. -/
  | zeroFrequency
  /-- A ROM image whose length is not 131,072 bytes (R128, R203): there is no machine. Raised by `coldReset`, never by a
  step. Safe. -/
  | wrongImageLength
deriving DecidableEq, Repr

/-- The one ROM-typed region (R25, D26). -/
inductive RomTyped where
  | rom
deriving DecidableEq, Repr

/-- Whether a device permits writes (R103): always, never, or by its own decision at each access (R104). -/
inductive WritePermission where
  | accepts
  | refuses
  | perAccess
deriving DecidableEq, Repr

/-- An external device of the table `EXT` (R104): fixed inclusive bounds, which optional operations it has, whether it
permits writes, and its state, which is the list of accesses that have changed it since reset, oldest first (R36; assumptions
6 and 8). -/
structure Device where
  base : Addr
  last : Addr
  permission : WritePermission
  hasBitRead : Bool
  hasBitWrite : Bool
  log : List Config.DeviceAccess
deriving DecidableEq, Repr

/-- What the last step returned: nothing, a response word (R73), or a number of the Cycle Counter (R187, R188). -/
inductive Reply where
  | nothing
  | word (w : Word64)
  | number (n : Nat)
deriving DecidableEq, Repr

structure State where
  /-- RAM storage by offset (R21). -/
  ram : Memory
  /-- ROM storage by offset; nothing changes it (R22). -/
  rom : Memory
  /-- The overlay flag; true is active (R23). -/
  ovl : Bool
  /-- The registry, first registered first (R24). -/
  regs : List Region
  /-- The cached reference to the ROM region (R25). -/
  romref : Option RomTyped
  /-- The Cycle Counter's count (R26). -/
  ticks : Nat
  /-- The external devices the machine is built with, and their state (R7 `EXT`, R36, R104). -/
  ext : List Device
  /-- The build-time parameter `SURFACE_READONLY` (R7, R148, R184). -/
  surfaceReadOnly : Bool
  /-- The model's own: inputs the outside agents have yet to hand over, in the one total order in which they are served
  (R13, R56). The block reads no more than the head, and holds none of it (R33). -/
  inputs : List Input
  /-- The model's own: what the last step returned to its requester (R13). No operation reads it (R30). -/
  reply : Reply
deriving DecidableEq, Repr

/-- Every piece of state right after cold reset, for the parameters a machine is built with (R34, R200). -/
def State.atReset (rom ram : Memory) (ext : List Device) (surfaceReadOnly : Bool) : State where
  ram := ram
  rom := rom
  ovl := true
  regs := []
  romref := none
  ticks := 0
  ext := ext
  surfaceReadOnly := surfaceReadOnly
  inputs := []
  reply := .nothing

/-- Cold reset of the standard instance's parameters (R7): an arbitrary image, arbitrary RAM contents, no external
device, `SURFACE_READONLY` false. -/
def State.reset : State :=
  State.atReset (Memory.ofCells Config.romSize Config.romImage)
    (Memory.ofCells Config.ramSize Config.ramInit) [] false

end Sys2Proof.Machine
end

