-- ==== Sys2Proof/Machine/Flags.lean ====
section
/-! DEFINITION. The block has no flags (spec 10_state.md R30). What it computes in their place is the outcome code and
payload of the response word (30_encoding.md R73, R74). -/

namespace Sys2Proof.Machine

/-- The outcome code (R74). -/
def statusCode : Verdict → BitVec 4
  | .ok _ => 0x0#4
  | .unmapped _ => 0x1#4
  | .misaligned _ => 0x2#4
  | .readOnly _ _ => 0x3#4

/-- The address a fault carries; 0 on success (R73, R74). -/
def faultAddress : Verdict → Addr
  | .ok _ => 0#24
  | .unmapped a => a
  | .misaligned a => a
  | .readOnly a _ => a

/-- The value read, or the value a ReadOnly fault carries; 0 otherwise (R73, R74). -/
def responseData : Verdict → Data
  | .ok v => v
  | .unmapped _ => 0#32
  | .misaligned _ => 0#32
  | .readOnly _ v => v

/-- R73: `status`, four zeros, `faddr`, `data`, from the most significant bit down. -/
def responseWord (v : Verdict) : Word64 :=
  statusCode v ++ 0#4 ++ faultAddress v ++ responseData v

end Sys2Proof.Machine
end

