-- ==== Sys2Proof/Machine/Operands.lean ====
section
/-! DEFINITION. Operand forms: widths, alignment, the big-endian split and composition of values, the bit operand, and
the bit read of a stored byte (spec 20_memory.md R41, R44, R45, R62; 41_ram_region.md R116, R117). -/

namespace Sys2Proof.Machine

/-- The width of an access in bytes. -/
def widthBytes : Width → Nat
  | .w8 => 1
  | .w16 => 2
  | .w32 => 4

/-- R44: an address is aligned for an access of `n` bytes when it is a multiple of `n`. -/
def aligned (w : Width) (a : Addr) : Bool := a.toNat % widthBytes w == 0

/-- R41: the low `8n` bits of a value as bytes, most significant first; the rest is dropped (R45). -/
def splitBytes (w : Width) (d : Data) : List Byte :=
  match w with
  | .w8 => [d.extractLsb' 0 8]
  | .w16 => [d.extractLsb' 8 8, d.extractLsb' 0 8]
  | .w32 => [d.extractLsb' 24 8, d.extractLsb' 16 8, d.extractLsb' 8 8, d.extractLsb' 0 8]

/-- R41: bytes composed most significant first, zero-extended to the data field (R45, R62). -/
def composeBytes (bs : List Byte) : Data :=
  bs.foldl (fun acc b => (acc <<< 8) ||| b.setWidth 32) 0#32

/-- R62: two 8-bit values as one of 16 bits, `high << 8 | low`. -/
def compose16 (high low : Data) : Data := (high <<< 8) ||| low

/-- R62: two 16-bit values as one of 32 bits, `high16 << 16 | low16`. -/
def compose32 (high low : Data) : Data := (high <<< 16) ||| low

/-- The upper and lower 16 bits of a value (R99). -/
def upper16 (d : Data) : Data := (d.extractLsb' 16 16).setWidth 32
def lower16 (d : Data) : Data := (d.extractLsb' 0 16).setWidth 32

/-- The byte a bit write stores: exactly 0x00 or 0x01 (R117). -/
def bitByte (b : Bool) : Byte := if b then 0x01#8 else 0x00#8

/-- `BITREAD` (R116): fixed on the two bytes a bit write can store, free on the others. -/
def bitRead (v : Byte) : Bool :=
  if v = 0x00#8 then false else if v = 0x01#8 then true else Config.bitReadOther v

end Sys2Proof.Machine
end

