-- ==== Sys2Proof/Machine/Ops.lean ====
section
/-! DEFINITION. The operations over regions and storage that the meanings share: bounds and translation, the RAM and
ROM shims, an external device behind the Region Contract, the overlay view, resolution and the common bus access
(spec files 40 to 43), and the one place where an outcome, a fault among them, becomes the response (R176). -/

namespace Sys2Proof.Machine

/-- The result of an operation before it is answered: its outcome and the state it leaves, or a refusal. -/
inductive Served where
  | done (v : Verdict) (s : State)
  | refused (r : Refusal)
deriving DecidableEq, Repr

/-! ### Answering (R13, R73, R176) -/

/-- The state with the outcome put into the response. -/
def State.answered (s : State) (v : Verdict) : State := { s with reply := .word (responseWord v) }

/-- R176: every outcome, success or fault, is reported in the response word of its request, in the same step, and nowhere
else; nothing is saved, no mode changes, control goes nowhere, and the next request is served normally (R178). -/
def finish : Served → Host.Outcome State Fault Refusal
  | .done v s => .next (s.answered v)
  | .refused r => .refused r

/-! ### Regions: bounds, containment, translation (R90 to R92, R102) -/

/-- The fixed inclusive bounds of a region (R90); none for a device that is not in `EXT`. -/
def State.bounds (s : State) : Region → Option (Addr × Addr)
  | .ram => some (Config.ramBase, Config.ramLast)
  | .rom => some (Config.romBase, Config.romLast)
  | .ext i => (s.ext[i]?).map fun d => (d.base, d.last)

/-- R91: `base ≤ a ≤ end`. -/
def State.contains (s : State) (r : Region) (a : Addr) : Bool :=
  match s.bounds r with
  | none => false
  | some (b, e) => decide (b.toNat ≤ a.toNat) && decide (a.toNat ≤ e.toNat)

/-- R92: the offset `a - base`; no value for an address the region does not contain. -/
def State.translate (s : State) (r : Region) (a : Addr) : Option Nat :=
  match s.bounds r with
  | none => none
  | some (b, e) => if b.toNat ≤ a.toNat ∧ a.toNat ≤ e.toNat then some (a.toNat - b.toNat) else none

/-- R102: an operation of `n` bytes at `a` is defined only when the region contains its first and its last byte; it is
then carried out at the offset of `a`. -/
def State.within (s : State) (r : Region) (a : Addr) (n : Nat) (f : Nat → Served) : Served :=
  match s.bounds r with
  | none => .refused .noSuchRegion
  | some (_, e) =>
    match s.translate r a with
    | none => .refused .outOfBounds
    | some o => if a.toNat + n ≤ e.toNat + 1 then f o else .refused .outOfBounds

/-! ### The RAM shim (R110 to R117) -/

def ramRead (w : Width) (a : Addr) (s : State) : Served :=
  s.within .ram a (widthBytes w) fun o => .done (.ok (composeBytes (s.ram.readBytes o (widthBytes w)))) s

def ramWrite (w : Width) (a : Addr) (d : Data) (s : State) : Served :=
  s.within .ram a (widthBytes w) fun o =>
    .done (.ok 0#32) { s with ram := s.ram.writeBytes o (splitBytes w d) }

def ramReadBit (a : Addr) (s : State) : Served :=
  s.within .ram a 1 fun o => .done (.ok (bitData (bitRead (s.ram.byte o)))) s

def ramWriteBit (a : Addr) (b : Bool) (s : State) : Served :=
  s.within .ram a 1 fun o => .done (.ok 0#32) { s with ram := s.ram.write o (bitByte b) }

/-! ### The ROM shim (R120 to R127) -/

def romRead (w : Width) (a : Addr) (s : State) : Served :=
  s.within .rom a (widthBytes w) fun o => .done (.ok (composeBytes (s.rom.readBytes o (widthBytes w)))) s

/-- The ROM refuses the access as a whole, with the request's address and value (R123 to R125). -/
def romWrite (w : Width) (a : Addr) (d : Data) (s : State) : Served :=
  s.within .rom a (widthBytes w) fun _ => .done (.readOnly a d) s

def romReadBit (a : Addr) (s : State) : Served :=
  s.within .rom a 1 fun o => .done (.ok (bitData (bitRead (s.rom.byte o)))) s

def romWriteBit (a : Addr) (b : Bool) (s : State) : Served :=
  s.within .rom a 1 fun _ => .done (.readOnly a (bitData b)) s

/-! ### An external device (R94 to R104) -/

/-- What a device answers to a write: all bytes accepted, all refused, or some of each (R98, U4). -/
inductive DeviceAnswer where
  | accepted
  | readOnly
  | mixed
deriving DecidableEq, Repr

/-- The answer to a write composed of two. -/
def DeviceAnswer.both : DeviceAnswer → DeviceAnswer → DeviceAnswer
  | .accepted, .accepted => .accepted
  | .readOnly, .readOnly => .readOnly
  | .accepted, .readOnly => .mixed
  | .accepted, .mixed => .mixed
  | .readOnly, .accepted => .mixed
  | .readOnly, .mixed => .mixed
  | .mixed, _ => .mixed

/-- Whether some byte of a write was refused. -/
def DeviceAnswer.refusedSome : DeviceAnswer → Bool
  | .accepted => false
  | .readOnly => true
  | .mixed => true

/-- Whether device `i` permits a write (R103). -/
def Device.permits (i : Nat) (d : Device) (x : Config.DeviceAccess) : Bool :=
  match d.permission with
  | .accepts => true
  | .refuses => false
  | .perAccess => Config.devicePermits i d.log x

/-- The device after one more access. -/
def Device.seen (d : Device) (x : Config.DeviceAccess) : Device := { d with log := d.log ++ [x] }

/-- The device after a write it refuses (R97, R104). One that refuses every write is as it was (R98); one that decides per access
may have changed, which is free (assumption 8). `after` says that an earlier byte of the same request was refused. -/
def Device.refused (i : Nat) (d : Device) (after : Bool) (x : Config.DeviceAccess) : Device :=
  match d.permission with
  | .accepts => d
  | .refuses => d
  | .perAccess => if Config.deviceReacts i d.log after x then d.seen x else d

/-- R94: the 8-bit read primitive. -/
def Device.read8 (i : Nat) (d : Device) (a : Addr) : Data × Device :=
  ((Config.deviceByte i d.log a).setWidth 32, d.seen (.read a))

/-- R95: two 8-bit reads, high byte first. -/
def Device.read16 (i : Nat) (d : Device) (a : Addr) : Data × Device :=
  let high := d.read8 i a
  let low := high.2.read8 i (a + 1#24)
  (compose16 high.1 low.1, low.2)

/-- R96: two 16-bit reads, at `a` and at `a + 2`. -/
def Device.read32 (i : Nat) (d : Device) (a : Addr) : Data × Device :=
  let high := d.read16 i a
  let low := high.2.read16 i (a + 2#24)
  (compose32 high.1 low.1, low.2)

/-- R97: the 8-bit write primitive, `OK` or `ReadOnly`, with the state the device is left in. -/
def Device.write8 (i : Nat) (d : Device) (after : Bool) (a : Addr) (v : Byte) : DeviceAnswer × Device :=
  if d.permits i (.write a v) then (.accepted, d.seen (.write a v)) else (.readOnly, d.refused i after (.write a v))

/-- R98: two 8-bit writes, high byte first. -/
def Device.write16 (i : Nat) (d : Device) (after : Bool) (a : Addr) (v : Data) : DeviceAnswer × Device :=
  let first := d.write8 i after a (v.extractLsb' 8 8)
  let second := first.2.write8 i (after || first.1.refusedSome) (a + 1#24) (v.extractLsb' 0 8)
  (first.1.both second.1, second.2)

/-- R99: two 16-bit writes, upper half first. -/
def Device.write32 (i : Nat) (d : Device) (after : Bool) (a : Addr) (v : Data) : DeviceAnswer × Device :=
  let first := d.write16 i after a (upper16 v)
  let second := first.2.write16 i (after || first.1.refusedSome) (a + 2#24) (lower16 v)
  (first.1.both second.1, second.2)

def Device.read (i : Nat) (d : Device) (w : Width) (a : Addr) : Data × Device :=
  match w with
  | .w8 => d.read8 i a
  | .w16 => d.read16 i a
  | .w32 => d.read32 i a

def Device.write (i : Nat) (d : Device) (w : Width) (a : Addr) (v : Data) : DeviceAnswer × Device :=
  match w with
  | .w8 => d.write8 i false a (v.extractLsb' 0 8)
  | .w16 => d.write16 i false a v
  | .w32 => d.write32 i false a v

/-- The state with device `i` replaced. -/
def State.setDevice (s : State) (i : Nat) (d : Device) : State := { s with ext := s.ext.set i d }

/-- An operation of device `i` on `n` bytes at `a`, at its own port. -/
def State.withDevice (s : State) (i : Nat) (a : Addr) (n : Nat) (f : Device → Served) : Served :=
  s.within (.ext i) a n fun _ =>
    match s.ext[i]? with
    | none => .refused .noSuchRegion
    | some d => f d

def extRead (w : Width) (i : Nat) (a : Addr) (s : State) : Served :=
  s.withDevice i a (widthBytes w) fun d => .done (.ok (d.read i w a).1) (s.setDevice i (d.read i w a).2)

/-- A composed write is accepted or refused as a whole; the payload of a refusal is the request's address and value. The device is
left in the state its writes leave it in, whatever the outcome (R97). -/
def extWrite (w : Width) (i : Nat) (a : Addr) (v : Data) (s : State) : Served :=
  s.withDevice i a (widthBytes w) fun d =>
    match (d.write i w a v).1 with
    | .accepted => .done (.ok 0#32) (s.setDevice i (d.write i w a v).2)
    | .readOnly => .done (.readOnly a v) (s.setDevice i (d.write i w a v).2)
    | .mixed => .refused .partialWrite

/-- R100: the device's own bit, where it has the operation. -/
def extReadBit (i : Nat) (a : Addr) (s : State) : Served :=
  s.withDevice i a 1 fun d =>
    if d.hasBitRead then
      .done (.ok (bitData (Config.deviceBit i d.log a))) (s.setDevice i (d.seen (.readBit a)))
    else .refused .declinedBit

/-- R101: one bit handed to the device, where it has the operation. -/
def extWriteBit (i : Nat) (a : Addr) (b : Bool) (s : State) : Served :=
  s.withDevice i a 1 fun d =>
    if d.hasBitWrite then
      if d.permits i (.writeBit a b) then .done (.ok 0#32) (s.setDevice i (d.seen (.writeBit a b)))
      else .done (.readOnly a (bitData b)) (s.setDevice i (d.refused i false (.writeBit a b)))
    else .refused .declinedBit

/-! ### A region-level operation, by the region's kind (R10) -/

def regionRead (w : Width) (r : Region) (a : Addr) (s : State) : Served :=
  match r with
  | .ram => ramRead w a s
  | .rom => romRead w a s
  | .ext i => extRead w i a s

def regionWrite (w : Width) (r : Region) (a : Addr) (d : Data) (s : State) : Served :=
  match r with
  | .ram => ramWrite w a d s
  | .rom => romWrite w a d s
  | .ext i => extWrite w i a d s

/-! ### The overlay view (R130 to R138) -/

/-- The ROM region a cached reference names, its base and its size (R25, R54). -/
def RomTyped.region : RomTyped → Region
  | .rom => .rom

def RomTyped.base : RomTyped → Addr
  | .rom => Config.romBase

def RomTyped.size : RomTyped → Nat
  | .rom => Config.romSize

/-- The view serves only while the overlay is active and `R` is the cached ROM region, and `n` bytes at `a` only when all of
them are in `0 .. size - 1` (R130). -/
def viewServes (R : RomTyped) (a : Addr) (n : Nat) (s : State) (f : Served) : Served :=
  if s.ovl = true ∧ s.romref = some R then
    if a.toNat + n ≤ R.size then f else .refused .outsideView
  else .refused .viewInactive

/-- R131 to R133: the ROM's own read at `base + a`. -/
def viewRead (w : Width) (R : RomTyped) (a : Addr) (s : State) : Served :=
  viewServes R a (widthBytes w) s (regionRead w R.region (R.base + a) s)

/-- R134 to R136: always ReadOnly, with the address as the requester issued it. -/
def viewWrite (w : Width) (R : RomTyped) (a : Addr) (d : Data) (s : State) : Served :=
  viewServes R a (widthBytes w) s (.done (.readOnly a d) s)

/-- R137. -/
def viewReadBit (R : RomTyped) (a : Addr) (s : State) : Served :=
  viewServes R a 1 s (match R with | .rom => romReadBit (R.base + a) s)

/-- R138. -/
def viewWriteBit (R : RomTyped) (a : Addr) (b : Bool) (s : State) : Served :=
  viewServes R a 1 s (.done (.readOnly a (bitData b)) s)

/-! ### Resolution (R140) -/

inductive Target where
  | view (R : RomTyped)
  | region (r : Region)
  | nothing
deriving DecidableEq, Repr

/-- R140 steps 2 and 3: the first registered region that contains the address. -/
def State.scan (s : State) (a : Addr) : Target :=
  match s.regs.find? fun r => s.contains r a with
  | some r => .region r
  | none => .nothing

/-- R140: the overlay first, where it is active, a ROM region is cached and the address is below its size. -/
def State.resolve (s : State) (a : Addr) : Target :=
  match s.romref with
  | none => s.scan a
  | some R => if s.ovl = true ∧ a.toNat < R.size then .view R else s.scan a

/-! ### The common bus access (R12, R141, R148) -/

/-- R148: at the bus boundary a ReadOnly is discarded, or surfaced where the machine is built so. -/
def atBoundary (surface : Bool) : Served → Served
  | .done (.readOnly a v) s => .done (if surface then .readOnly a v else .ok 0#32) s
  | .done (.ok v) s => .done (.ok v) s
  | .done (.unmapped a) s => .done (.unmapped a) s
  | .done (.misaligned a) s => .done (.misaligned a) s
  | .refused r => .refused r

/-- R141 for a read: alignment, then resolution, then the target's read. -/
def memRead (w : Width) (a : Addr) (s : State) : Served :=
  if aligned w a then
    match s.resolve a with
    | .view R => viewRead w R a s
    | .region r => regionRead w r a s
    | .nothing => .done (.unmapped a) s
  else .done (.misaligned a) s

/-- R141 for a write: alignment, then resolution, then the target's write, then the policy of R148. -/
def memWrite (w : Width) (a : Addr) (d : Data) (s : State) : Served :=
  if aligned w a then
    match s.resolve a with
    | .view R => atBoundary s.surfaceReadOnly (viewWrite w R a d s)
    | .region r => atBoundary s.surfaceReadOnly (regionWrite w r a d s)
    | .nothing => .done (.unmapped a) s
  else .done (.misaligned a) s

/-! ### The control operations (R160 to R162) -/

def overlayStatus (s : State) : Served := .done (.ok (bitData s.ovl)) s

def setOverlay (b : Bool) (s : State) : Served := .done (.ok 0#32) { s with ovl := b }

/-- The cached reference after a region is registered: the ROM-typed region is cached (R162). -/
def cachedRom (r : Region) (old : Option RomTyped) : Option RomTyped :=
  match r with
  | .ram => old
  | .rom => some .rom
  | .ext _ => old

/-- R162: append the region; a handle that names no region is no request (R77 (d)). -/
def registerRegion (r : Region) (s : State) : Served :=
  match s.bounds r with
  | none => .refused .noSuchRegion
  | some _ => .done (.ok 0#32) { s with regs := s.regs ++ [r], romref := cachedRom r s.romref }

end Sys2Proof.Machine
end

