-- ==== Sys2Proof/Machine/Counter.lean ====
section
/-! DEFINITION. The Cycle Counter, beside the block (spec 60_exceptions.md R185 to R189). Its operations have no encoding,
so they are served by `step` and not by `exec`. -/

namespace Sys2Proof.Machine

/-- R188: ticks per period of a frequency; no value for 0. -/
def ticksForPeriod (hz : Nat) : Option Nat := if hz = 0 then none else some (Config.masterClockHz / hz)

/-- R186 `advance`: the count grows by the delta; nothing is returned. -/
def counterAdvance (delta : Nat) (s : State) : Host.Outcome State Fault Refusal :=
  .next { s with ticks := s.ticks + delta, reply := .nothing }

/-- R187 `now`. -/
def counterNow (s : State) : Host.Outcome State Fault Refusal :=
  .next { s with reply := .number s.ticks }

/-- R188 `ticks_for_period`. -/
def counterPeriod (hz : Nat) (s : State) : Host.Outcome State Fault Refusal :=
  match ticksForPeriod hz with
  | none => .refused .zeroFrequency
  | some n => .next { s with reply := .number n }

def serveCounter (c : CounterOp) (s : State) : Host.Outcome State Fault Refusal :=
  match c with
  | .advance delta => counterAdvance delta s
  | .now => counterNow s
  | .ticksForPeriod hz => counterPeriod hz s

end Sys2Proof.Machine
end

