-- ==== Sys2Proof/Machine/Bus.lean ====
section
/-! DEFINITION. Port P_BUS: the six bus accesses (spec 43_bus_access.md R142 to R147). -/

namespace Sys2Proof.Machine

/-- R142 `bus.read8`. -/
def execBusRead8 (a : Addr) (s : State) : Host.Outcome State Fault Refusal :=
  finish (memRead .w8 a s)

/-- R143 `bus.read16`. -/
def execBusRead16 (a : Addr) (s : State) : Host.Outcome State Fault Refusal :=
  finish (memRead .w16 a s)

/-- R144 `bus.read32`. -/
def execBusRead32 (a : Addr) (s : State) : Host.Outcome State Fault Refusal :=
  finish (memRead .w32 a s)

/-- R145 `bus.write8`. -/
def execBusWrite8 (a : Addr) (v : BitVec 8) (s : State) : Host.Outcome State Fault Refusal :=
  finish (memWrite .w8 a (v.setWidth 32) s)

/-- R146 `bus.write16`. -/
def execBusWrite16 (a : Addr) (v : BitVec 16) (s : State) : Host.Outcome State Fault Refusal :=
  finish (memWrite .w16 a (v.setWidth 32) s)

/-- R147 `bus.write32`. -/
def execBusWrite32 (a : Addr) (v : BitVec 32) (s : State) : Host.Outcome State Fault Refusal :=
  finish (memWrite .w32 a v s)

end Sys2Proof.Machine
end

