-- ==== Sys2Proof/Machine/Control.lean ====
section
/-! DEFINITION. Ports P_OVL and P_CFG: the overlay flag and registration (spec 44_control.md R160 to R162). -/

namespace Sys2Proof.Machine

/-- R160 `is_overlay_active`. -/
def execIsOverlayActive (s : State) : Host.Outcome State Fault Refusal :=
  finish (overlayStatus s)

/-- R161 `set_overlay_active`. -/
def execSetOverlayActive (b : Bool) (s : State) : Host.Outcome State Fault Refusal :=
  finish (setOverlay b s)

/-- R162 `register`. -/
def execRegister (r : Region) (s : State) : Host.Outcome State Fault Refusal :=
  finish (registerRegion r s)

end Sys2Proof.Machine
end

