-- ==== Sys2Proof/Machine/Ext.lean ====
section
/-! DEFINITION. Port P_REG(EXT(i)): the Region Contract over external device i (spec 40_region_contract.md R94 to
R101). -/

namespace Sys2Proof.Machine

/-- R94 `ext.read8`. -/
def execExtRead8 (i : Nat) (a : Addr) (s : State) : Host.Outcome State Fault Refusal :=
  finish (extRead .w8 i a s)

/-- R95 `ext.read16`. -/
def execExtRead16 (i : Nat) (a : Addr) (s : State) : Host.Outcome State Fault Refusal :=
  finish (extRead .w16 i a s)

/-- R96 `ext.read32`. -/
def execExtRead32 (i : Nat) (a : Addr) (s : State) : Host.Outcome State Fault Refusal :=
  finish (extRead .w32 i a s)

/-- R100 `read_bit` of an external device. -/
def execExtReadBit (i : Nat) (a : Addr) (s : State) : Host.Outcome State Fault Refusal :=
  finish (extReadBit i a s)

/-- R97 `ext.write8`. -/
def execExtWrite8 (i : Nat) (a : Addr) (v : BitVec 8) (s : State) : Host.Outcome State Fault Refusal :=
  finish (extWrite .w8 i a (v.setWidth 32) s)

/-- R98 `ext.write16`. -/
def execExtWrite16 (i : Nat) (a : Addr) (v : BitVec 16) (s : State) : Host.Outcome State Fault Refusal :=
  finish (extWrite .w16 i a (v.setWidth 32) s)

/-- R99 `ext.write32`. -/
def execExtWrite32 (i : Nat) (a : Addr) (v : BitVec 32) (s : State) : Host.Outcome State Fault Refusal :=
  finish (extWrite .w32 i a v s)

/-- R101 `write_bit` of an external device. -/
def execExtWriteBit (i : Nat) (a : Addr) (b : Bool) (s : State) : Host.Outcome State Fault Refusal :=
  finish (extWriteBit i a b s)

end Sys2Proof.Machine
end

