-- ==== Sys2Proof/Machine/Ram.lean ====
section
/-! DEFINITION. Port P_REG(RAM): the RAM shim's operations (spec 41_ram_region.md R110 to R117). -/

namespace Sys2Proof.Machine

/-- R110 `ram.read8`. -/
def execRamRead8 (a : Addr) (s : State) : Host.Outcome State Fault Refusal :=
  finish (ramRead .w8 a s)

/-- R111 `ram.read16`. -/
def execRamRead16 (a : Addr) (s : State) : Host.Outcome State Fault Refusal :=
  finish (ramRead .w16 a s)

/-- R112 `ram.read32`. -/
def execRamRead32 (a : Addr) (s : State) : Host.Outcome State Fault Refusal :=
  finish (ramRead .w32 a s)

/-- R116 `ram.read_bit`. -/
def execRamReadBit (a : Addr) (s : State) : Host.Outcome State Fault Refusal :=
  finish (ramReadBit a s)

/-- R113 `ram.write8`. -/
def execRamWrite8 (a : Addr) (v : BitVec 8) (s : State) : Host.Outcome State Fault Refusal :=
  finish (ramWrite .w8 a (v.setWidth 32) s)

/-- R114 `ram.write16`. -/
def execRamWrite16 (a : Addr) (v : BitVec 16) (s : State) : Host.Outcome State Fault Refusal :=
  finish (ramWrite .w16 a (v.setWidth 32) s)

/-- R115 `ram.write32`. -/
def execRamWrite32 (a : Addr) (v : BitVec 32) (s : State) : Host.Outcome State Fault Refusal :=
  finish (ramWrite .w32 a v s)

/-- R117 `ram.write_bit`. -/
def execRamWriteBit (a : Addr) (b : Bool) (s : State) : Host.Outcome State Fault Refusal :=
  finish (ramWriteBit a b s)

end Sys2Proof.Machine
end

