-- ==== Sys2Proof/Machine/Rom.lean ====
section
/-! DEFINITION. Port P_REG(ROM): the ROM shim's operations (spec 42_rom_region.md R120 to R127). -/

namespace Sys2Proof.Machine

/-- R120 `rom.read8`. -/
def execRomRead8 (a : Addr) (s : State) : Host.Outcome State Fault Refusal :=
  finish (romRead .w8 a s)

/-- R121 `rom.read16`. -/
def execRomRead16 (a : Addr) (s : State) : Host.Outcome State Fault Refusal :=
  finish (romRead .w16 a s)

/-- R122 `rom.read32`. -/
def execRomRead32 (a : Addr) (s : State) : Host.Outcome State Fault Refusal :=
  finish (romRead .w32 a s)

/-- R126 `rom.read_bit`. -/
def execRomReadBit (a : Addr) (s : State) : Host.Outcome State Fault Refusal :=
  finish (romReadBit a s)

/-- R123 `rom.write8`. -/
def execRomWrite8 (a : Addr) (v : BitVec 8) (s : State) : Host.Outcome State Fault Refusal :=
  finish (romWrite .w8 a (v.setWidth 32) s)

/-- R124 `rom.write16`. -/
def execRomWrite16 (a : Addr) (v : BitVec 16) (s : State) : Host.Outcome State Fault Refusal :=
  finish (romWrite .w16 a (v.setWidth 32) s)

/-- R125 `rom.write32`. -/
def execRomWrite32 (a : Addr) (v : BitVec 32) (s : State) : Host.Outcome State Fault Refusal :=
  finish (romWrite .w32 a v s)

/-- R127 `rom.write_bit`. -/
def execRomWriteBit (a : Addr) (b : Bool) (s : State) : Host.Outcome State Fault Refusal :=
  finish (romWriteBit a b s)

end Sys2Proof.Machine
end

