-- ==== Sys2Proof/Machine/View.lean ====
section
/-! DEFINITION. The overlay view over the ROM region (spec 42_rom_region.md R130 to R138), as the decoder drives it
while the overlay is active and a ROM region is cached. -/

namespace Sys2Proof.Machine

/-- R131 `view.read8`. -/
def execViewRead8 (a : Addr) (s : State) : Host.Outcome State Fault Refusal :=
  finish (viewRead .w8 .rom a s)

/-- R132 `view.read16`. -/
def execViewRead16 (a : Addr) (s : State) : Host.Outcome State Fault Refusal :=
  finish (viewRead .w16 .rom a s)

/-- R133 `view.read32`. -/
def execViewRead32 (a : Addr) (s : State) : Host.Outcome State Fault Refusal :=
  finish (viewRead .w32 .rom a s)

/-- R137 `view.read_bit`. -/
def execViewReadBit (a : Addr) (s : State) : Host.Outcome State Fault Refusal :=
  finish (viewReadBit .rom a s)

/-- R134 `view.write8`. -/
def execViewWrite8 (a : Addr) (v : BitVec 8) (s : State) : Host.Outcome State Fault Refusal :=
  finish (viewWrite .w8 .rom a (v.setWidth 32) s)

/-- R135 `view.write16`. -/
def execViewWrite16 (a : Addr) (v : BitVec 16) (s : State) : Host.Outcome State Fault Refusal :=
  finish (viewWrite .w16 .rom a (v.setWidth 32) s)

/-- R136 `view.write32`. -/
def execViewWrite32 (a : Addr) (v : BitVec 32) (s : State) : Host.Outcome State Fault Refusal :=
  finish (viewWrite .w32 .rom a v s)

/-- R138 `view.write_bit`. -/
def execViewWriteBit (a : Addr) (b : Bool) (s : State) : Host.Outcome State Fault Refusal :=
  finish (viewWriteBit .rom a b s)

end Sys2Proof.Machine
end

