-- ==== Sys2Proof/Machine/Dispatch.lean ====
section
/-! DEFINITION. One arm per operation of the block, each one direct call of its meaning. -/

namespace Sys2Proof.Machine

def exec (i : Instr) (s : State) : Host.Outcome State Fault Refusal :=
  match i with
  | .busRead8 a => Sys2Proof.Machine.execBusRead8 a s
  | .busRead16 a => Sys2Proof.Machine.execBusRead16 a s
  | .busRead32 a => Sys2Proof.Machine.execBusRead32 a s
  | .busWrite8 a v => Sys2Proof.Machine.execBusWrite8 a v s
  | .busWrite16 a v => Sys2Proof.Machine.execBusWrite16 a v s
  | .busWrite32 a v => Sys2Proof.Machine.execBusWrite32 a v s
  | .ramRead8 a => Sys2Proof.Machine.execRamRead8 a s
  | .ramRead16 a => Sys2Proof.Machine.execRamRead16 a s
  | .ramRead32 a => Sys2Proof.Machine.execRamRead32 a s
  | .ramReadBit a => Sys2Proof.Machine.execRamReadBit a s
  | .ramWrite8 a v => Sys2Proof.Machine.execRamWrite8 a v s
  | .ramWrite16 a v => Sys2Proof.Machine.execRamWrite16 a v s
  | .ramWrite32 a v => Sys2Proof.Machine.execRamWrite32 a v s
  | .ramWriteBit a b => Sys2Proof.Machine.execRamWriteBit a b s
  | .romRead8 a => Sys2Proof.Machine.execRomRead8 a s
  | .romRead16 a => Sys2Proof.Machine.execRomRead16 a s
  | .romRead32 a => Sys2Proof.Machine.execRomRead32 a s
  | .romReadBit a => Sys2Proof.Machine.execRomReadBit a s
  | .romWrite8 a v => Sys2Proof.Machine.execRomWrite8 a v s
  | .romWrite16 a v => Sys2Proof.Machine.execRomWrite16 a v s
  | .romWrite32 a v => Sys2Proof.Machine.execRomWrite32 a v s
  | .romWriteBit a b => Sys2Proof.Machine.execRomWriteBit a b s
  | .viewRead8 a => Sys2Proof.Machine.execViewRead8 a s
  | .viewRead16 a => Sys2Proof.Machine.execViewRead16 a s
  | .viewRead32 a => Sys2Proof.Machine.execViewRead32 a s
  | .viewReadBit a => Sys2Proof.Machine.execViewReadBit a s
  | .viewWrite8 a v => Sys2Proof.Machine.execViewWrite8 a v s
  | .viewWrite16 a v => Sys2Proof.Machine.execViewWrite16 a v s
  | .viewWrite32 a v => Sys2Proof.Machine.execViewWrite32 a v s
  | .viewWriteBit a b => Sys2Proof.Machine.execViewWriteBit a b s
  | .extRead8 k a => Sys2Proof.Machine.execExtRead8 k a s
  | .extRead16 k a => Sys2Proof.Machine.execExtRead16 k a s
  | .extRead32 k a => Sys2Proof.Machine.execExtRead32 k a s
  | .extReadBit k a => Sys2Proof.Machine.execExtReadBit k a s
  | .extWrite8 k a v => Sys2Proof.Machine.execExtWrite8 k a v s
  | .extWrite16 k a v => Sys2Proof.Machine.execExtWrite16 k a v s
  | .extWrite32 k a v => Sys2Proof.Machine.execExtWrite32 k a v s
  | .extWriteBit k a b => Sys2Proof.Machine.execExtWriteBit k a b s
  | .isOverlayActive => Sys2Proof.Machine.execIsOverlayActive s
  | .setOverlayActive b => Sys2Proof.Machine.execSetOverlayActive b s
  | .register r => Sys2Proof.Machine.execRegister r s

end Sys2Proof.Machine
end

