-- ==== Sys2Proof/Machine/Fetch.lean ====
section
/-! DEFINITION. How the next input reaches the block, and how a request of the opcode table is placed at the head of the
inputs (spec 00_scope.md R13, 30_encoding.md R70). The block has no program counter (R29): its "program" is the order in which
the outside agents hand over their requests (assumption 11). -/

namespace Sys2Proof.Machine

/-- The next input, and the state without it; none when no agent has placed a request. -/
def fetch (s : State) : Option (Input × State) :=
  match s.inputs with
  | [] => none
  | x :: rest => some (x, { s with inputs := rest })

/-- A bare word of the opcode table as a request on the port `tablePort` takes it to arrive on. -/
def tableInput (nbits w : Nat) : Input := .request (tablePort (tableWord nbits w)) (tableWord nbits w)

/-- The request placed before every other input. -/
def placeWord (s : State) (nbits w : Nat) : State := { s with inputs := tableInput nbits w :: s.inputs }

end Sys2Proof.Machine
end

