-- ==== Sys2Proof/Machine/Loader.lean ====
section
/-! DEFINITION. The ROM Image Loader's one check and the cold reset it precedes (spec 42_rom_region.md R128,
70_reset_and_hazards.md R200, R203), and the launch state (R202). -/

namespace Sys2Proof.Machine

/-- R128, R203: an image of exactly 131,072 bytes becomes the ROM's storage, byte `o` of the file at offset `o`. -/
def loadImage (image : List Byte) : Option Memory :=
  if image.length = Config.romSize then some (Memory.ofBytes 0 image) else none

/-- An external device as a machine is built with it: it has served nothing (R36; assumption 6). -/
def Device.fresh (d : Device) : Device := { d with log := [] }

/-- Cold reset of a machine built with the given image, RAM contents, devices and policy (R200); with an image of another
length there is no machine (R203). -/
def coldReset (image : List Byte) (ramInit : List Host.Cell) (devices : List Device) (surfaceReadOnly : Bool) :
    Except Refusal State :=
  match loadImage image with
  | none => .error .wrongImageLength
  | some rom =>
    .ok (State.atReset rom (Memory.ofCells Config.ramSize ramInit) (devices.map Device.fresh) surfaceReadOnly)

/-- The launch state reached from a cold reset by the standard registration, RAM then ROM (R202). -/
def State.launched (s : State) : State := { s with regs := [.ram, .rom], romref := some .rom }

end Sys2Proof.Machine
end

