-- ==== Sys2Proof/Machine/Step.lean ====
section
/-! DEFINITION. One step of the machine: one input served, whole (spec 00_scope.md R13). -/

namespace Sys2Proof.Machine

/-- One input served: a request word is decoded on its port and executed; a word that is no request is refused (R77). -/
def serve (x : Input) (s : State) : Host.Outcome State Fault Refusal :=
  match x with
  | .request p w =>
    match decode p w with
    | .ok i => exec i s
    | .error e => .refused (.notARequest e)
  | .counter c => serveCounter c s

/-- The block moves only when an input arrives (R13). -/
def step (s : State) : Host.Outcome State Fault Refusal :=
  match fetch s with
  | none => .refused .noRequest
  | some (x, s') => serve x s'

/-- The state whose very next step runs the operation of a word of the opcode table (assumption 10). -/
def State.withFetchWord (s : State) (nbits w : Nat) : State := placeWord s nbits w

end Sys2Proof.Machine
end

