-- ==== Sys2Proof/Safety.lean ====
section
/-! DEFINITION. What a good state is, in the terms the statements use: the invariant of the machine, what an external
device must be (spec 00_scope.md R7, 40_region_contract.md R104), and the tables of spec/30_encoding.md that the statements
about encodings are held against (R70, R72). -/

namespace Sys2Proof

/-- The reads of storage and of the overlay flag: operations that write nothing but, through the bus, in an external device (R47,
R160). -/
def Instr.isStorageRead : Instr → Bool
  | .busRead8 _ => true
  | .busRead16 _ => true
  | .busRead32 _ => true
  | .ramRead8 _ => true
  | .ramRead16 _ => true
  | .ramRead32 _ => true
  | .ramReadBit _ => true
  | .romRead8 _ => true
  | .romRead16 _ => true
  | .romRead32 _ => true
  | .romReadBit _ => true
  | .viewRead8 _ => true
  | .viewRead16 _ => true
  | .viewRead32 _ => true
  | .viewReadBit _ => true
  | .busWrite8 _ _ => false
  | .busWrite16 _ _ => false
  | .busWrite32 _ _ => false
  | .ramWrite8 _ _ => false
  | .ramWrite16 _ _ => false
  | .ramWrite32 _ _ => false
  | .ramWriteBit _ _ => false
  | .romWrite8 _ _ => false
  | .romWrite16 _ _ => false
  | .romWrite32 _ _ => false
  | .romWriteBit _ _ => false
  | .viewWrite8 _ _ => false
  | .viewWrite16 _ _ => false
  | .viewWrite32 _ _ => false
  | .viewWriteBit _ _ => false
  | .extRead8 _ _ => false
  | .extRead16 _ _ => false
  | .extRead32 _ _ => false
  | .extReadBit _ _ => false
  | .extWrite8 _ _ _ => false
  | .extWrite16 _ _ _ => false
  | .extWrite32 _ _ _ => false
  | .extWriteBit _ _ _ => false
  | .isOverlayActive => true
  | .setOverlayActive _ => false
  | .register _ => false

/-- The region, first address and number of bytes of an operation at a region port (R102). -/
def Instr.portAccess : Instr → Option (Region × Addr × Nat)
  | .ramRead8 a => some (.ram, a, 1)
  | .ramRead16 a => some (.ram, a, 2)
  | .ramRead32 a => some (.ram, a, 4)
  | .ramReadBit a => some (.ram, a, 1)
  | .ramWrite8 a _ => some (.ram, a, 1)
  | .ramWrite16 a _ => some (.ram, a, 2)
  | .ramWrite32 a _ => some (.ram, a, 4)
  | .ramWriteBit a _ => some (.ram, a, 1)
  | .romRead8 a => some (.rom, a, 1)
  | .romRead16 a => some (.rom, a, 2)
  | .romRead32 a => some (.rom, a, 4)
  | .romReadBit a => some (.rom, a, 1)
  | .romWrite8 a _ => some (.rom, a, 1)
  | .romWrite16 a _ => some (.rom, a, 2)
  | .romWrite32 a _ => some (.rom, a, 4)
  | .romWriteBit a _ => some (.rom, a, 1)
  | .extRead8 k a => some (.ext k, a, 1)
  | .extRead16 k a => some (.ext k, a, 2)
  | .extRead32 k a => some (.ext k, a, 4)
  | .extReadBit k a => some (.ext k, a, 1)
  | .extWrite8 k a _ => some (.ext k, a, 1)
  | .extWrite16 k a _ => some (.ext k, a, 2)
  | .extWrite32 k a _ => some (.ext k, a, 4)
  | .extWriteBit k a _ => some (.ext k, a, 1)
  | .busRead8 _ => none
  | .busRead16 _ => none
  | .busRead32 _ => none
  | .busWrite8 _ _ => none
  | .busWrite16 _ _ => none
  | .busWrite32 _ _ => none
  | .viewRead8 _ => none
  | .viewRead16 _ => none
  | .viewRead32 _ => none
  | .viewReadBit _ => none
  | .viewWrite8 _ _ => none
  | .viewWrite16 _ _ => none
  | .viewWrite32 _ _ => none
  | .viewWriteBit _ _ => none
  | .isOverlayActive => none
  | .setOverlayActive _ => none
  | .register _ => none

end Sys2Proof

namespace Sys2Proof.Machine

/-- R90, R104, R7: a device's bounds are in order and its base and length are multiples of 4. -/
def Device.admissible (d : Device) : Bool :=
  decide (d.base.toNat ≤ d.last.toNat) && decide (d.base.toNat % Config.granularity = 0) &&
    decide ((d.last.toNat + 1) % Config.granularity = 0)

/-- The invariant every step keeps: both storages in canonical form with nothing listed outside them (R21, R22), the cached
reference exact (R25), every registered device present and every device admissible (R24, R104). -/
structure State.Inv (s : State) : Prop where
  ramWf : s.ram.wf = true
  ramBelow : s.ram.below Config.ramSize = true
  romWf : s.rom.wf = true
  romBelow : s.rom.below Config.romSize = true
  romrefExact : s.romref = some .rom ↔ Region.rom ∈ s.regs
  regsExist : ∀ k, Region.ext k ∈ s.regs → k < s.ext.length
  devicesAdmissible : ∀ d ∈ s.ext, d.admissible = true

/-- The byte accesses of a write at `a`, lowest address first. -/
def deviceWrites (a : Addr) : List Byte → List Config.DeviceAccess
  | [] => []
  | b :: bs => .write a b :: deviceWrites (a + 1#24) bs

/-- Device `k` permits every access of a list, served one after the other. -/
def Device.permitsAll (k : Nat) (d : Device) : List Config.DeviceAccess → Bool
  | [] => true
  | x :: xs => d.permits k x && Device.permitsAll k (d.seen x) xs

/-- Device `k` permits none of a list of writes, refused one after the other; `after` says that an earlier byte of the same
request was refused. -/
def Device.permitsNone (k : Nat) (d : Device) (after : Bool) : List Config.DeviceAccess → Bool
  | [] => true
  | x :: xs => !d.permits k x && Device.permitsNone k (d.refused k after x) true xs

/-- Device `k` after it has refused a list of writes, one after the other (assumption 8). -/
def Device.refusedAll (k : Nat) (d : Device) (after : Bool) : List Config.DeviceAccess → Device
  | [] => d
  | x :: xs => Device.refusedAll k (d.refused k after x) true xs

/-- What the requester sees of a ReadOnly at the bus boundary (R148). -/
def boundaryVerdict (surface : Bool) (a : Addr) (v : Data) : Verdict :=
  if surface = true then .readOnly a v else .ok 0#32

/-- R70, R75: the operation codes each port accepts; the view's line takes those of a region port. -/
def portAccepts : Port → Nat → Bool
  | .bus, op => decide (op ∈ [0x0, 0x1, 0x2, 0x4, 0x5, 0x6])
  | .ovl, op => decide (op ∈ [0x8, 0x9])
  | .cfg, op => decide (op = 0xA)
  | .reg _, op => decide (op ≤ 0x7)
  | .view, op => decide (op ≤ 0x7)

/-- R72: the bits of a request word an operation reads: `op`, `rsv`, and the part of `addr` and `data` it takes. -/
def usedBits : Instr → Word64
  | .busRead8 _ => 0xFFFFFFFF00000000#64
  | .busRead16 _ => 0xFFFFFFFF00000000#64
  | .busRead32 _ => 0xFFFFFFFF00000000#64
  | .busWrite8 _ _ => 0xFFFFFFFF000000FF#64
  | .busWrite16 _ _ => 0xFFFFFFFF0000FFFF#64
  | .busWrite32 _ _ => 0xFFFFFFFFFFFFFFFF#64
  | .ramRead8 _ => 0xFFFFFFFF00000000#64
  | .ramRead16 _ => 0xFFFFFFFF00000000#64
  | .ramRead32 _ => 0xFFFFFFFF00000000#64
  | .ramReadBit _ => 0xFFFFFFFF00000000#64
  | .ramWrite8 _ _ => 0xFFFFFFFF000000FF#64
  | .ramWrite16 _ _ => 0xFFFFFFFF0000FFFF#64
  | .ramWrite32 _ _ => 0xFFFFFFFFFFFFFFFF#64
  | .ramWriteBit _ _ => 0xFFFFFFFF00000001#64
  | .romRead8 _ => 0xFFFFFFFF00000000#64
  | .romRead16 _ => 0xFFFFFFFF00000000#64
  | .romRead32 _ => 0xFFFFFFFF00000000#64
  | .romReadBit _ => 0xFFFFFFFF00000000#64
  | .romWrite8 _ _ => 0xFFFFFFFF000000FF#64
  | .romWrite16 _ _ => 0xFFFFFFFF0000FFFF#64
  | .romWrite32 _ _ => 0xFFFFFFFFFFFFFFFF#64
  | .romWriteBit _ _ => 0xFFFFFFFF00000001#64
  | .viewRead8 _ => 0xFFFFFFFF00000000#64
  | .viewRead16 _ => 0xFFFFFFFF00000000#64
  | .viewRead32 _ => 0xFFFFFFFF00000000#64
  | .viewReadBit _ => 0xFFFFFFFF00000000#64
  | .viewWrite8 _ _ => 0xFFFFFFFF000000FF#64
  | .viewWrite16 _ _ => 0xFFFFFFFF0000FFFF#64
  | .viewWrite32 _ _ => 0xFFFFFFFFFFFFFFFF#64
  | .viewWriteBit _ _ => 0xFFFFFFFF00000001#64
  | .extRead8 _ _ => 0xFFFFFFFF00000000#64
  | .extRead16 _ _ => 0xFFFFFFFF00000000#64
  | .extRead32 _ _ => 0xFFFFFFFF00000000#64
  | .extReadBit _ _ => 0xFFFFFFFF00000000#64
  | .extWrite8 _ _ _ => 0xFFFFFFFF000000FF#64
  | .extWrite16 _ _ _ => 0xFFFFFFFF0000FFFF#64
  | .extWrite32 _ _ _ => 0xFFFFFFFFFFFFFFFF#64
  | .extWriteBit _ _ _ => 0xFFFFFFFF00000001#64
  | .isOverlayActive => 0xFF00000000000000#64
  | .setOverlayActive _ => 0xFF00000000000001#64
  | .register _ => 0xFF000000000000FF#64

/-- The outcome code of a response word (R73). -/
def statusOf (w : Word64) : BitVec 4 := w.extractLsb' 60 4

/-- The outcome code of the last reply, where it was a response word. -/
def replyStatus (t : State) : Option (BitVec 4) :=
  match t.reply with
  | .nothing => none
  | .word w => some (statusOf w)
  | .number _ => none

end Sys2Proof.Machine
end

