-- ==== Sys2Proof/Certificates/Slice0/Obligations.lean ====
section
/-! DEFINITION. The statements, drawn from the numbered rules of spec/. Stored bytes are named by offset: RAM byte `o` is
`s.ram.byte o`, ROM byte `o` is `s.rom.byte o` (10_state.md R21, R22). `s.answered v` is `s` with the response word of the
outcome `v` in its reply and nothing else changed. -/

open Sys2Proof Sys2Proof.Machine

/-! ### Requests and responses (30_encoding.md) -/

/-- Decoding the canonical word of a well-formed operation on its port gives the operation back (R71, R72, R75, R76). -/
def Obligations.DecodeOfEncode : Prop :=
  ∀ i : Instr, i.wellFormed = true → decode (encodePort i) (encodeWord i) = .ok i

/-- Encoding what a word decodes to gives the word back with its ignored bits cleared, on the same port (R72, R81). -/
def Obligations.EncodeOfDecodeIsCanonical : Prop :=
  ∀ (p : Port) (w : Word64) (i : Instr), decode p w = .ok i →
    encodePort i = p ∧ i.wellFormed = true ∧ encodeWord i = w &&& usedBits i

/-- The bits an operation does not read have no effect (R72). -/
def Obligations.IgnoredBitsHaveNoEffect : Prop :=
  ∀ (p : Port) (w w' : Word64) (i : Instr), decode p w = .ok i → w' &&& usedBits i = w &&& usedBits i →
    decode p w' = .ok i

/-- R81: the canonical request words of every operation, on every port that takes it (R75; the view's line is assumption 9), and
the response words, as the rule writes them. The word names the operation and not the region: a device's index is its port's. -/
def Obligations.CanonicalWords : Prop :=
  (∀ (a : Addr) (v8 : BitVec 8) (v16 : BitVec 16) (v : BitVec 32) (b : Bool) (k : Nat),
    (∀ i ∈ [Instr.busRead8 a, .ramRead8 a, .romRead8 a, .viewRead8 a, .extRead8 k a],
      encodeWord i = 0x0000000000000000#64 ||| (a.setWidth 64 <<< 32)) ∧
    (∀ i ∈ [Instr.busRead16 a, .ramRead16 a, .romRead16 a, .viewRead16 a, .extRead16 k a],
      encodeWord i = 0x1000000000000000#64 ||| (a.setWidth 64 <<< 32)) ∧
    (∀ i ∈ [Instr.busRead32 a, .ramRead32 a, .romRead32 a, .viewRead32 a, .extRead32 k a],
      encodeWord i = 0x2000000000000000#64 ||| (a.setWidth 64 <<< 32)) ∧
    (∀ i ∈ [Instr.ramReadBit a, .romReadBit a, .viewReadBit a, .extReadBit k a],
      encodeWord i = 0x3000000000000000#64 ||| (a.setWidth 64 <<< 32)) ∧
    (∀ i ∈ [Instr.busWrite8 a v8, .ramWrite8 a v8, .romWrite8 a v8, .viewWrite8 a v8, .extWrite8 k a v8],
      encodeWord i = 0x4000000000000000#64 ||| (a.setWidth 64 <<< 32) ||| v8.setWidth 64) ∧
    (∀ i ∈ [Instr.busWrite16 a v16, .ramWrite16 a v16, .romWrite16 a v16, .viewWrite16 a v16, .extWrite16 k a v16],
      encodeWord i = 0x5000000000000000#64 ||| (a.setWidth 64 <<< 32) ||| v16.setWidth 64) ∧
    (∀ i ∈ [Instr.busWrite32 a v, .ramWrite32 a v, .romWrite32 a v, .viewWrite32 a v, .extWrite32 k a v],
      encodeWord i = 0x6000000000000000#64 ||| (a.setWidth 64 <<< 32) ||| v.setWidth 64) ∧
    (∀ i ∈ [Instr.ramWriteBit a b, .romWriteBit a b, .viewWriteBit a b, .extWriteBit k a b],
      encodeWord i = 0x7000000000000000#64 ||| (a.setWidth 64 <<< 32) ||| (if b then 1#64 else 0#64)) ∧
    encodeWord .isOverlayActive = 0x8000000000000000#64 ∧
    encodeWord (.setOverlayActive b) = 0x9000000000000000#64 ||| (if b then 1#64 else 0#64)) ∧
  (∀ rid : BitVec 8,
    encodeWord (.register (regionOfHandle rid)) = 0xA000000000000000#64 ||| rid.setWidth 64) ∧
  (∀ (a : Addr) (v : Data),
    responseWord (.ok v) = 0x0000000000000000#64 ||| v.setWidth 64 ∧
    responseWord (.unmapped a) = 0x1000000000000000#64 ||| (a.setWidth 64 <<< 32) ∧
    responseWord (.misaligned a) = 0x2000000000000000#64 ||| (a.setWidth 64 <<< 32) ∧
    responseWord (.readOnly a v) = 0x3000000000000000#64 ||| (a.setWidth 64 <<< 32) ||| v.setWidth 64)

/-- R73, R74: the fields of the response word of each outcome; codes above 3 are never produced. -/
def Obligations.ResponseFields : Prop :=
  (∀ v : Verdict, (responseWord v).extractLsb' 56 4 = 0#4 ∧ (statusOf (responseWord v)).toNat ≤ 3) ∧
  ∀ (a : Addr) (v : Data),
    (statusOf (responseWord (.ok v)) = 0x0#4 ∧ (responseWord (.ok v)).extractLsb' 32 24 = 0#24 ∧
      (responseWord (.ok v)).extractLsb' 0 32 = v) ∧
    (statusOf (responseWord (.unmapped a)) = 0x1#4 ∧ (responseWord (.unmapped a)).extractLsb' 32 24 = a ∧
      (responseWord (.unmapped a)).extractLsb' 0 32 = 0#32) ∧
    (statusOf (responseWord (.misaligned a)) = 0x2#4 ∧ (responseWord (.misaligned a)).extractLsb' 32 24 = a ∧
      (responseWord (.misaligned a)).extractLsb' 0 32 = 0#32) ∧
    (statusOf (responseWord (.readOnly a v)) = 0x3#4 ∧ (responseWord (.readOnly a v)).extractLsb' 32 24 = a ∧
      (responseWord (.readOnly a v)).extractLsb' 0 32 = v)

/-- R70, R75: a word on a port decodes exactly when `rsv` is zero and the port, which exists (R76), accepts its `op`. The view's
line and its acceptance are the model's (assumption 9). That a `register` word decodes whatever its handle, so that one which
names no region is turned away by the operation and not by the decoder, is the model's choice too (assumption 24). -/
def Obligations.RequestsAcceptedByPort : Prop :=
  ∀ (p : Port) (w : Word64),
    (∃ i, decode p w = .ok i) ↔
      rsvField w = 0#4 ∧ p.wellFormed = true ∧ portAccepts p (opField w).toNat = true

/-- R77: a word with `rsv` not zero, with a reserved `op`, with an `op` its port does not accept, or a `register` whose handle
names no region, has no step; and a word whose `op` its port accepts decodes, whatever its `addr` and `data`. That a `register`
word with such a handle decodes too, and is refused by the operation, is the model's choice (assumption 24). -/
def Obligations.NotRequestsHaveNoStep : Prop :=
  (∀ (s : State) (p : Port) (w : Word64) (rest : List Input), s.inputs = .request p w :: rest →
    (rsvField w ≠ 0#4 ∨ 0xB ≤ (opField w).toNat ∨ portAccepts p (opField w).toNat = false ∨
      (p = .cfg ∧ opField w = 0xA#4 ∧ s.ext.length + 2 ≤ (w.extractLsb' 0 8).toNat)) →
    ∃ r, step s = .refused r) ∧
  (∀ (p : Port) (op : BitVec 4) (a : Addr) (d : Data), p.wellFormed = true → portAccepts p op.toNat = true →
    ∃ i, decode p (requestWord op a d) = .ok i)

/-- Words of 95_test_vectors.md, written out, and what they stand for. -/
def Obligations.VectorWordsDecode : Prop :=
  decode .bus 0x1040000100000000#64 = .ok (.busRead16 0x400001#24) ∧
  decode .bus 0x60000200DEADBEEF#64 = .ok (.busWrite32 0x000200#24 0xDEADBEEF#32) ∧
  decode (.reg .ram) 0x40000300000001A5#64 = .ok (.ramWrite8 0x000300#24 0xA5#8) ∧
  decode (.reg .ram) 0x70000300FFFFFFFE#64 = .ok (.ramWriteBit 0x000300#24 false) ∧
  decode (.reg .rom) 0x5040000012345678#64 = .ok (.romWrite16 0x400000#24 0x5678#16) ∧
  decode .ovl 0x90000000FFFFFFFE#64 = .ok (.setOverlayActive false) ∧
  decode .cfg 0xA000000000000001#64 = .ok (.register .rom) ∧
  decode .bus 0x00000000DEADBEEF#64 = .ok (.busRead8 0x000000#24) ∧
  decode .bus 0x0100000000000000#64 = .error .reservedBits ∧
  decode .bus 0xB000000000000000#64 = .error .reservedOp ∧
  decode .bus 0x3000000000000000#64 = .error .notAccepted ∧
  decode .ovl 0x4000000000000042#64 = .error .notAccepted

/-! ### Steps (00_scope.md R13) -/

/-- A step takes the next input from the total order; a word that decodes runs as its operation, a word that does not has no
step, and a call of the Cycle Counter is served. -/
def Obligations.StepRunsTheDecodedOperation : Prop :=
  (∀ (s : State) (p : Port) (w : Word64) (rest : List Input) (i : Instr),
    s.inputs = .request p w :: rest → decode p w = .ok i → step s = exec i { s with inputs := rest }) ∧
  (∀ (s : State) (p : Port) (w : Word64) (rest : List Input) (e : DecodeError),
    s.inputs = .request p w :: rest → decode p w = .error e → step s = .refused (.notARequest e)) ∧
  (∀ (s : State) (c : CounterOp) (rest : List Input),
    s.inputs = .counter c :: rest → step s = serveCounter c { s with inputs := rest })

/-- The block takes no step of its own: with no input there is none (R13). -/
def Obligations.NoStepWithoutRequest : Prop :=
  ∀ s : State, s.inputs = [] → step s = .refused .noRequest

/-! ### Reset and launch (10_state.md R34, 70_reset_and_hazards.md) -/

/-- R34, R200: what cold reset leaves. Byte `o` of the image is ROM byte `o`, and every contents of RAM is possible. -/
def Obligations.ColdResetValues : Prop :=
  (∀ (image : List Byte) (cells : List Host.Cell) (devices : List Device) (policy : Bool), image.length = 131072 →
    ∃ s, coldReset image cells devices policy = .ok s ∧ s.ovl = true ∧ s.regs = [] ∧ s.romref = none ∧ s.ticks = 0 ∧
      (∀ (o : Nat) (h : o < image.length), s.rom.byte o = image[o]) ∧
      s.ext = devices.map (fun d => { d with log := [] }) ∧ s.surfaceReadOnly = policy) ∧
  (∀ f : Nat → Byte, ∃ cells : List Host.Cell, ∀ (image : List Byte) (devices : List Device) (policy : Bool) (s : State),
    coldReset image cells devices policy = .ok s → ∀ o, o < 0x100000 → s.ram.byte o = f o)

/-- The reset state of the standard instance (R34, R7): values of the spec, and the model's own empty inputs and reply. -/
def Obligations.ResetState : Prop :=
  State.reset.ovl = true ∧ State.reset.regs = [] ∧ State.reset.romref = none ∧ State.reset.ticks = 0 ∧
    State.reset.ext = [] ∧ State.reset.surfaceReadOnly = false ∧ State.reset.inputs = [] ∧ State.reset.reply = .nothing

/-- R128, R203: an image is accepted exactly when its length is 131,072 bytes; with any other length there is no machine. -/
def Obligations.OnlyFullImagesLoad : Prop :=
  ∀ (image : List Byte) (cells : List Host.Cell) (devices : List Device) (policy : Bool),
    (image.length ≠ 131072 → coldReset image cells devices policy = .error .wrongImageLength) ∧
    (image.length = 131072 → ∃ s, coldReset image cells devices policy = .ok s)

/-- R202: registering RAM and then ROM after a cold reset leaves the launch state, by the two words of program P1. -/
def Obligations.StandardRegistrationLaunches : Prop :=
  ∀ s : State, s.regs = [] → s.romref = none →
    s.inputs = [.request .cfg 0xA000000000000000#64, .request .cfg 0xA000000000000001#64] →
    ∃ t u, step s = .next t ∧ step t = .next u ∧
      u = { s with regs := [.ram, .rom], romref := some .rom, inputs := [], reply := .word 0#64 }

/-- The invariant holds at reset, and after every cold reset with admissible devices (R34, R104). -/
def Obligations.InvAtReset : Prop :=
  State.reset.Inv ∧
  ∀ (image : List Byte) (cells : List Host.Cell) (devices : List Device) (policy : Bool) (s : State),
    (∀ d ∈ devices, d.admissible = true) → coldReset image cells devices policy = .ok s → s.Inv

/-! ### The RAM shim (41_ram_region.md) -/

/-- R110 to R112: the stored bytes, composed big-endian and zero-extended; nothing written; no alignment check; out of
bounds is refused. -/
def Obligations.RamReads : Prop :=
  (∀ (a : Addr) (d : Data),
    decode (.reg .ram) (requestWord 0x0 a d) = .ok (.ramRead8 a) ∧
    decode (.reg .ram) (requestWord 0x1 a d) = .ok (.ramRead16 a) ∧
    decode (.reg .ram) (requestWord 0x2 a d) = .ok (.ramRead32 a)) ∧
  ∀ (s : State) (a : Addr),
    (a.toNat ≤ 0x0FFFFF →
      exec (.ramRead8 a) s = .next (s.answered (.ok ((s.ram.byte a.toNat).setWidth 32)))) ∧
    (0x0FFFFF < a.toNat → exec (.ramRead8 a) s = .refused .outOfBounds) ∧
    (a.toNat ≤ 0x0FFFFE →
      exec (.ramRead16 a) s =
        .next (s.answered (.ok ((s.ram.byte a.toNat ++ s.ram.byte (a.toNat + 1)).setWidth 32)))) ∧
    (0x0FFFFE < a.toNat → exec (.ramRead16 a) s = .refused .outOfBounds) ∧
    (a.toNat ≤ 0x0FFFFC →
      exec (.ramRead32 a) s =
        .next (s.answered (.ok (s.ram.byte a.toNat ++ s.ram.byte (a.toNat + 1) ++ s.ram.byte (a.toNat + 2) ++
          s.ram.byte (a.toNat + 3))))) ∧
    (0x0FFFFC < a.toNat → exec (.ramRead32 a) s = .refused .outOfBounds)

/-- R113 to R115: the value's low bytes, most significant first, and no other byte; everything but RAM and the reply is as it
was; out of bounds is refused. -/
def Obligations.RamWrites : Prop :=
  (∀ (a : Addr) (d : Data),
    decode (.reg .ram) (requestWord 0x4 a d) = .ok (.ramWrite8 a (d.extractLsb' 0 8)) ∧
    decode (.reg .ram) (requestWord 0x5 a d) = .ok (.ramWrite16 a (d.extractLsb' 0 16)) ∧
    decode (.reg .ram) (requestWord 0x6 a d) = .ok (.ramWrite32 a d)) ∧
  ∀ (s : State) (a : Addr), s.ram.wf = true →
    (∀ v : BitVec 8,
      (a.toNat ≤ 0x0FFFFF → ∃ t, exec (.ramWrite8 a v) s = .next t ∧ t.ram.byte a.toNat = v ∧
        (∀ o, o ≠ a.toNat → t.ram.byte o = s.ram.byte o) ∧
        t = { s with ram := t.ram, reply := .word (responseWord (.ok 0#32)) }) ∧
      (0x0FFFFF < a.toNat → exec (.ramWrite8 a v) s = .refused .outOfBounds)) ∧
    (∀ v : BitVec 16,
      (a.toNat ≤ 0x0FFFFE → ∃ t, exec (.ramWrite16 a v) s = .next t ∧
        t.ram.byte a.toNat = v.extractLsb' 8 8 ∧ t.ram.byte (a.toNat + 1) = v.extractLsb' 0 8 ∧
        (∀ o, o < a.toNat ∨ a.toNat + 2 ≤ o → t.ram.byte o = s.ram.byte o) ∧
        t = { s with ram := t.ram, reply := .word (responseWord (.ok 0#32)) }) ∧
      (0x0FFFFE < a.toNat → exec (.ramWrite16 a v) s = .refused .outOfBounds)) ∧
    (∀ v : BitVec 32,
      (a.toNat ≤ 0x0FFFFC → ∃ t, exec (.ramWrite32 a v) s = .next t ∧
        t.ram.byte a.toNat = v.extractLsb' 24 8 ∧ t.ram.byte (a.toNat + 1) = v.extractLsb' 16 8 ∧
        t.ram.byte (a.toNat + 2) = v.extractLsb' 8 8 ∧ t.ram.byte (a.toNat + 3) = v.extractLsb' 0 8 ∧
        (∀ o, o < a.toNat ∨ a.toNat + 4 ≤ o → t.ram.byte o = s.ram.byte o) ∧
        t = { s with ram := t.ram, reply := .word (responseWord (.ok 0#32)) }) ∧
      (0x0FFFFC < a.toNat → exec (.ramWrite32 a v) s = .refused .outOfBounds))

/-- R116, R117: a bit write replaces the whole byte by 0x00 or 0x01; a bit read gives back the bit written, and for any other
stored byte some bit that depends on the byte alone. -/
def Obligations.RamBitOperations : Prop :=
  (∀ (a : Addr) (d : Data),
    decode (.reg .ram) (requestWord 0x3 a d) = .ok (.ramReadBit a) ∧
    decode (.reg .ram) (requestWord 0x7 a d) = .ok (.ramWriteBit a (d.getLsbD 0))) ∧
  (∃ bitread : Byte → Bool, bitread 0x00#8 = false ∧ bitread 0x01#8 = true ∧
    ∀ (s : State) (a : Addr), a.toNat ≤ 0x0FFFFF →
      exec (.ramReadBit a) s =
        .next (s.answered (.ok (if bitread (s.ram.byte a.toNat) = true then 1#32 else 0#32)))) ∧
  (∀ (s : State) (a : Addr) (b : Bool), s.ram.wf = true → a.toNat ≤ 0x0FFFFF →
    ∃ t, exec (.ramWriteBit a b) s = .next t ∧ t.ram.byte a.toNat = (if b = true then 0x01#8 else 0x00#8) ∧
      (∀ o, o ≠ a.toNat → t.ram.byte o = s.ram.byte o) ∧
      t = { s with ram := t.ram, reply := .word (responseWord (.ok 0#32)) } ∧
      exec (.ramReadBit a) t = .next (t.answered (.ok (if b = true then 1#32 else 0#32)))) ∧
  (∀ (s : State) (a : Addr) (b : Bool), 0x0FFFFF < a.toNat →
    exec (.ramReadBit a) s = .refused .outOfBounds ∧ exec (.ramWriteBit a b) s = .refused .outOfBounds)

/-! ### The ROM shim (42_rom_region.md, part 1) -/

/-- R120 to R122, at offset `a - 0x400000`. -/
def Obligations.RomReads : Prop :=
  (∀ (a : Addr) (d : Data),
    decode (.reg .rom) (requestWord 0x0 a d) = .ok (.romRead8 a) ∧
    decode (.reg .rom) (requestWord 0x1 a d) = .ok (.romRead16 a) ∧
    decode (.reg .rom) (requestWord 0x2 a d) = .ok (.romRead32 a)) ∧
  ∀ (s : State) (a : Addr) (o : Nat), a.toNat = 0x400000 + o →
    (o ≤ 0x1FFFF → exec (.romRead8 a) s = .next (s.answered (.ok ((s.rom.byte o).setWidth 32)))) ∧
    (0x1FFFF < o → exec (.romRead8 a) s = .refused .outOfBounds) ∧
    (o ≤ 0x1FFFE →
      exec (.romRead16 a) s = .next (s.answered (.ok ((s.rom.byte o ++ s.rom.byte (o + 1)).setWidth 32)))) ∧
    (0x1FFFE < o → exec (.romRead16 a) s = .refused .outOfBounds) ∧
    (o ≤ 0x1FFFC →
      exec (.romRead32 a) s =
        .next (s.answered (.ok (s.rom.byte o ++ s.rom.byte (o + 1) ++ s.rom.byte (o + 2) ++ s.rom.byte (o + 3))))) ∧
    (0x1FFFC < o → exec (.romRead32 a) s = .refused .outOfBounds)

/-- R123 to R125, R127: always ReadOnly, with the request's address and value; nothing is written. -/
def Obligations.RomWrites : Prop :=
  (∀ (a : Addr) (d : Data),
    decode (.reg .rom) (requestWord 0x4 a d) = .ok (.romWrite8 a (d.extractLsb' 0 8)) ∧
    decode (.reg .rom) (requestWord 0x5 a d) = .ok (.romWrite16 a (d.extractLsb' 0 16)) ∧
    decode (.reg .rom) (requestWord 0x6 a d) = .ok (.romWrite32 a d) ∧
    decode (.reg .rom) (requestWord 0x7 a d) = .ok (.romWriteBit a (d.getLsbD 0))) ∧
  ∀ (s : State) (a : Addr), 0x400000 ≤ a.toNat →
    (∀ v, a.toNat ≤ 0x41FFFF → exec (.romWrite8 a v) s = .next (s.answered (.readOnly a (v.setWidth 32)))) ∧
    (∀ v, a.toNat ≤ 0x41FFFE → exec (.romWrite16 a v) s = .next (s.answered (.readOnly a (v.setWidth 32)))) ∧
    (∀ v, a.toNat ≤ 0x41FFFC → exec (.romWrite32 a v) s = .next (s.answered (.readOnly a v))) ∧
    (∀ b, a.toNat ≤ 0x41FFFF →
      exec (.romWriteBit a b) s = .next (s.answered (.readOnly a (if b = true then 1#32 else 0#32))))

/-- R126: the bit read of a ROM byte is the same function of the stored byte as the RAM's. -/
def Obligations.RomReadBit : Prop :=
  (∀ (a : Addr) (d : Data), decode (.reg .rom) (requestWord 0x3 a d) = .ok (.romReadBit a)) ∧
  ∃ bitread : Byte → Bool, bitread 0x00#8 = false ∧ bitread 0x01#8 = true ∧
    (∀ (s : State) (a : Addr) (o : Nat), a.toNat = 0x400000 + o → o ≤ 0x1FFFF →
      exec (.romReadBit a) s =
        .next (s.answered (.ok (if bitread (s.rom.byte o) = true then 1#32 else 0#32)))) ∧
    (∀ (s : State) (a : Addr), a.toNat ≤ 0x0FFFFF →
      exec (.ramReadBit a) s =
        .next (s.answered (.ok (if bitread (s.ram.byte a.toNat) = true then 1#32 else 0#32))))

/-- R102: an operation at a region port with a byte outside the region, or at the port of a device that does not exist, has no
outcome. -/
def Obligations.OutOfBoundsRefusedAtRegionPorts : Prop :=
  ∀ (i : Instr) (s : State) (r : Region) (a : Addr) (n : Nat), i.portAccess = some (r, a, n) →
    (∀ base last, s.bounds r = some (base, last) →
      ¬ (base.toNat ≤ a.toNat ∧ a.toNat + n - 1 ≤ last.toNat) → exec i s = .refused .outOfBounds) ∧
    (s.bounds r = none → exec i s = .refused .noSuchRegion)

/-! ### The overlay view (42_rom_region.md, part 2) -/

/-- R130: while the overlay is inactive, or no ROM region is cached, the view is not consulted, and no operation on its line
(assumption 9) is served (assumption 19). -/
def Obligations.ViewServesOnlyWhileActive : Prop :=
  ∀ (s : State) (a : Addr) (v8 : BitVec 8) (v16 : BitVec 16) (v : BitVec 32) (b : Bool),
    s.ovl = false ∨ s.romref = none →
    ∀ i ∈ [Instr.viewRead8 a, .viewRead16 a, .viewRead32 a, .viewReadBit a, .viewWrite8 a v8, .viewWrite16 a v16,
      .viewWrite32 a v, .viewWriteBit a b], exec i s = .refused .viewInactive

/-- R131 to R133, while the overlay is active and the ROM is cached (R130): ROM byte `a` and those after it, four consecutive
bytes for 32 bits; beyond the view's range it is not used. The line of the view is the model's (assumptions 9 and 19). -/
def Obligations.ViewReads : Prop :=
  (∀ (a : Addr) (d : Data),
    decode .view (requestWord 0x0 a d) = .ok (.viewRead8 a) ∧
    decode .view (requestWord 0x1 a d) = .ok (.viewRead16 a) ∧
    decode .view (requestWord 0x2 a d) = .ok (.viewRead32 a)) ∧
  ∀ (s : State) (a : Addr), s.ovl = true → s.romref = some .rom →
    (a.toNat ≤ 0x01FFFF →
      exec (.viewRead8 a) s = .next (s.answered (.ok ((s.rom.byte a.toNat).setWidth 32)))) ∧
    (a.toNat ≤ 0x01FFFE →
      exec (.viewRead16 a) s =
        .next (s.answered (.ok ((s.rom.byte a.toNat ++ s.rom.byte (a.toNat + 1)).setWidth 32)))) ∧
    (a.toNat ≤ 0x01FFFC →
      exec (.viewRead32 a) s =
        .next (s.answered (.ok (s.rom.byte a.toNat ++ s.rom.byte (a.toNat + 1) ++ s.rom.byte (a.toNat + 2) ++
          s.rom.byte (a.toNat + 3))))) ∧
    (0x01FFFF < a.toNat → exec (.viewRead8 a) s = .refused .outsideView) ∧
    (0x01FFFE < a.toNat → exec (.viewRead16 a) s = .refused .outsideView) ∧
    (0x01FFFC < a.toNat → exec (.viewRead32 a) s = .refused .outsideView)

/-- R134 to R136, while the overlay is active and the ROM is cached (R130): always ReadOnly, with the address as the requester
issued it; neither ROM nor RAM is written. The line of the view is the model's (assumptions 9 and 19). -/
def Obligations.ViewWrites : Prop :=
  (∀ (a : Addr) (d : Data),
    decode .view (requestWord 0x4 a d) = .ok (.viewWrite8 a (d.extractLsb' 0 8)) ∧
    decode .view (requestWord 0x5 a d) = .ok (.viewWrite16 a (d.extractLsb' 0 16)) ∧
    decode .view (requestWord 0x6 a d) = .ok (.viewWrite32 a d)) ∧
  ∀ (s : State) (a : Addr), s.ovl = true → s.romref = some .rom →
    (∀ v, a.toNat ≤ 0x01FFFF → exec (.viewWrite8 a v) s = .next (s.answered (.readOnly a (v.setWidth 32)))) ∧
    (∀ v, a.toNat ≤ 0x01FFFE → exec (.viewWrite16 a v) s = .next (s.answered (.readOnly a (v.setWidth 32)))) ∧
    (∀ v, a.toNat ≤ 0x01FFFC → exec (.viewWrite32 a v) s = .next (s.answered (.readOnly a v))) ∧
    (∀ v, 0x01FFFF < a.toNat → exec (.viewWrite8 a v) s = .refused .outsideView) ∧
    (∀ v, 0x01FFFE < a.toNat → exec (.viewWrite16 a v) s = .refused .outsideView) ∧
    (∀ v, 0x01FFFC < a.toNat → exec (.viewWrite32 a v) s = .refused .outsideView)

/-- R137, R138, while the overlay is active and the ROM is cached (R130): the view's bit read is the ROM's at the translated
address; its bit write is ReadOnly and writes nothing; beyond the view's range it is not used. The line of the view is the
model's (assumptions 9 and 19). -/
def Obligations.ViewBitOperations : Prop :=
  (∀ (a : Addr) (d : Data),
    decode .view (requestWord 0x3 a d) = .ok (.viewReadBit a) ∧
    decode .view (requestWord 0x7 a d) = .ok (.viewWriteBit a (d.getLsbD 0))) ∧
  ∀ (s : State) (a : Addr), s.ovl = true → s.romref = some .rom →
    (a.toNat ≤ 0x01FFFF →
      (∃ t, exec (.viewReadBit a) s = .next t ∧ exec (.romReadBit (0x400000#24 + a)) s = .next t) ∧
      (∀ b, exec (.viewWriteBit a b) s = .next (s.answered (.readOnly a (if b = true then 1#32 else 0#32))))) ∧
    (0x01FFFF < a.toNat →
      exec (.viewReadBit a) s = .refused .outsideView ∧ ∀ b, exec (.viewWriteBit a b) s = .refused .outsideView)

/-! ### External devices (40_region_contract.md) -/

/-- R94 to R96: byte reads in ascending address order, one after the other, composed big-endian. The bytes are the device's
(assumption 6); only the device's own record of accesses changes. -/
def Obligations.DeviceReads : Prop :=
  (∀ (k : Nat) (a : Addr) (d : Data), k ≤ 253 →
    decode (.reg (.ext k)) (requestWord 0x0 a d) = .ok (.extRead8 k a) ∧
    decode (.reg (.ext k)) (requestWord 0x1 a d) = .ok (.extRead16 k a) ∧
    decode (.reg (.ext k)) (requestWord 0x2 a d) = .ok (.extRead32 k a)) ∧
  ∀ (s : State) (k : Nat) (d : Device) (a : Addr), s.ext[k]? = some d → d.base.toNat ≤ a.toNat →
    (a.toNat ≤ d.last.toNat →
      exec (.extRead8 k a) s =
        .next { s with
          ext := s.ext.set k { d with log := d.log ++ [.read a] }
          reply := .word (responseWord (.ok ((Config.deviceByte k d.log a).setWidth 32))) }) ∧
    (a.toNat + 1 ≤ d.last.toNat →
      exec (.extRead16 k a) s =
        .next { s with
          ext := s.ext.set k { d with log := d.log ++ [.read a, .read (a + 1)] }
          reply := .word (responseWord (.ok ((Config.deviceByte k d.log a ++
            Config.deviceByte k (d.log ++ [.read a]) (a + 1)).setWidth 32))) }) ∧
    (a.toNat + 3 ≤ d.last.toNat →
      exec (.extRead32 k a) s =
        .next { s with
          ext := s.ext.set k { d with log := d.log ++ [.read a, .read (a + 1), .read (a + 2), .read (a + 3)] }
          reply := .word (responseWord (.ok (Config.deviceByte k d.log a ++
            Config.deviceByte k (d.log ++ [.read a]) (a + 1) ++
            Config.deviceByte k (d.log ++ [.read a, .read (a + 1)]) (a + 2) ++
            Config.deviceByte k (d.log ++ [.read a, .read (a + 1), .read (a + 2)]) (a + 3)))) })

/-- R97 to R99: byte writes in ascending address order, most significant byte first; a write is accepted or refused as a
whole, ReadOnly carrying the request's address and value; a device that accepts one byte and refuses another has no outcome
(U4). What the device permits, and whether a write it refuses leaves it changed, are its own (assumptions 7 and 8). -/
def Obligations.DeviceWrites : Prop :=
  (∀ (k : Nat) (a : Addr) (d : Data), k ≤ 253 →
    decode (.reg (.ext k)) (requestWord 0x4 a d) = .ok (.extWrite8 k a (d.extractLsb' 0 8)) ∧
    decode (.reg (.ext k)) (requestWord 0x5 a d) = .ok (.extWrite16 k a (d.extractLsb' 0 16)) ∧
    decode (.reg (.ext k)) (requestWord 0x6 a d) = .ok (.extWrite32 k a d)) ∧
  ∀ (s : State) (k : Nat) (d : Device) (a : Addr), s.ext[k]? = some d → d.base.toNat ≤ a.toNat →
    (∀ v : BitVec 8, a.toNat ≤ d.last.toNat →
      exec (.extWrite8 k a v) s =
        if d.permits k (.write a v) = true then
          .next { s with
            ext := s.ext.set k { d with log := d.log ++ [.write a v] }
            reply := .word (responseWord (.ok 0#32)) }
        else
          .next { s with
            ext := s.ext.set k (d.refused k false (.write a v))
            reply := .word (responseWord (.readOnly a (v.setWidth 32))) }) ∧
    (∀ (v : BitVec 16) (xs : List Config.DeviceAccess), a.toNat + 1 ≤ d.last.toNat →
      xs = [.write a (v.extractLsb' 8 8), .write (a + 1) (v.extractLsb' 0 8)] →
      exec (.extWrite16 k a v) s =
        if d.permitsAll k xs = true then
          .next { s with
            ext := s.ext.set k { d with log := d.log ++ xs }
            reply := .word (responseWord (.ok 0#32)) }
        else if d.permitsNone k false xs = true then
          .next { s with
            ext := s.ext.set k (d.refusedAll k false xs)
            reply := .word (responseWord (.readOnly a (v.setWidth 32))) }
        else .refused .partialWrite) ∧
    (∀ (v : BitVec 32) (xs : List Config.DeviceAccess), a.toNat + 3 ≤ d.last.toNat →
      xs = [.write a (v.extractLsb' 24 8), .write (a + 1) (v.extractLsb' 16 8), .write (a + 2) (v.extractLsb' 8 8),
        .write (a + 3) (v.extractLsb' 0 8)] →
      exec (.extWrite32 k a v) s =
        if d.permitsAll k xs = true then
          .next { s with
            ext := s.ext.set k { d with log := d.log ++ xs }
            reply := .word (responseWord (.ok 0#32)) }
        else if d.permitsNone k false xs = true then
          .next { s with
            ext := s.ext.set k (d.refusedAll k false xs)
            reply := .word (responseWord (.readOnly a v)) }
        else .refused .partialWrite)

/-- A device that permits every write accepts it, one that permits none answers ReadOnly and is as it was, at its port (R98, R99,
R103). -/
def Obligations.DevicesPermitAsAWhole : Prop :=
  ∀ (s : State) (k : Nat) (d : Device) (a : Addr), s.ext[k]? = some d → d.base.toNat ≤ a.toNat →
    a.toNat + 3 ≤ d.last.toNat →
    (d.permission = .accepts → ∀ v8 v16 v32,
      (∃ t, exec (.extWrite8 k a v8) s = .next t ∧ t.reply = .word (responseWord (.ok 0#32))) ∧
      (∃ t, exec (.extWrite16 k a v16) s = .next t ∧ t.reply = .word (responseWord (.ok 0#32))) ∧
      (∃ t, exec (.extWrite32 k a v32) s = .next t ∧ t.reply = .word (responseWord (.ok 0#32)))) ∧
    (d.permission = .refuses → ∀ v8 v16 v32,
      exec (.extWrite8 k a v8) s = .next (s.answered (.readOnly a (v8.setWidth 32))) ∧
      exec (.extWrite16 k a v16) s = .next (s.answered (.readOnly a (v16.setWidth 32))) ∧
      exec (.extWrite32 k a v32) s = .next (s.answered (.readOnly a v32)))

/-- R100, R101: a device with the bit operation gives its own bit, or takes the bit or answers ReadOnly; a device without it
has no outcome. The bit and the record are assumption 6; whether a bit it refuses leaves the device changed is its own
(assumption 8). -/
def Obligations.DeviceBitOperations : Prop :=
  (∀ (k : Nat) (a : Addr) (d : Data), k ≤ 253 →
    decode (.reg (.ext k)) (requestWord 0x3 a d) = .ok (.extReadBit k a) ∧
    decode (.reg (.ext k)) (requestWord 0x7 a d) = .ok (.extWriteBit k a (d.getLsbD 0))) ∧
  ∀ (s : State) (k : Nat) (d : Device) (a : Addr), s.ext[k]? = some d → d.base.toNat ≤ a.toNat → a.toNat ≤ d.last.toNat →
    exec (.extReadBit k a) s =
      (if d.hasBitRead = true then
        .next { s with
          ext := s.ext.set k { d with log := d.log ++ [.readBit a] }
          reply := .word (responseWord (.ok (if Config.deviceBit k d.log a = true then 1#32 else 0#32))) }
      else .refused .declinedBit) ∧
    (∀ b, exec (.extWriteBit k a b) s =
      if d.hasBitWrite = true then
        if d.permits k (.writeBit a b) = true then
          .next { s with
            ext := s.ext.set k { d with log := d.log ++ [.writeBit a b] }
            reply := .word (responseWord (.ok 0#32)) }
        else
          .next { s with
            ext := s.ext.set k (d.refused k false (.writeBit a b))
            reply := .word (responseWord (.readOnly a (if b = true then 1#32 else 0#32))) }
      else .refused .declinedBit)

/-- R90, R104: no step adds or removes a device, moves its bounds or changes what it offers. That its record of accesses only grows
is a clause about the model's form of a device's state (assumption 6), not a rule of the spec. -/
def Obligations.DevicesKeepTheirShape : Prop :=
  ∀ s t : State, step s = .next t →
    t.ext.length = s.ext.length ∧
    ∀ (k : Nat) (d : Device), s.ext[k]? = some d →
      ∃ d', t.ext[k]? = some d' ∧ d'.base = d.base ∧ d'.last = d.last ∧ d'.permission = d.permission ∧
        d'.hasBitRead = d.hasBitRead ∧ d'.hasBitWrite = d.hasBitWrite ∧ d.log <+: d'.log

/-! ### Regions and resolution (40, 43) -/

/-- R91, R92: containment is inclusive at both ends, and translation subtracts the base, only for a contained address. -/
def Obligations.ContainsAndTranslate : Prop :=
  ∀ (s : State) (r : Region) (base last : Addr), s.bounds r = some (base, last) → ∀ a : Addr,
    (s.contains r a = true ↔ base.toNat ≤ a.toNat ∧ a.toNat ≤ last.toNat) ∧
    (s.contains r a = true → s.translate r a = some (a.toNat - base.toNat)) ∧
    (s.contains r a = false → s.translate r a = none)

/-- R140: the overlay first, under all three of its conditions; else the first registered region that contains the address;
else nothing. -/
def Obligations.ResolutionOrder : Prop :=
  ∀ (s : State) (a : Addr),
    (s.ovl = true → s.romref = some .rom → a.toNat < 0x20000 → s.resolve a = .view .rom) ∧
    (s.ovl = false ∨ s.romref = none ∨ 0x20000 ≤ a.toNat →
      (∀ before r after, s.regs = before ++ r :: after → (∀ q ∈ before, s.contains q a = false) →
        s.contains r a = true → s.resolve a = .region r) ∧
      ((∀ q ∈ s.regs, s.contains q a = false) → s.resolve a = .nothing))

/-- R49: in every state of the invariant, all bytes of an aligned cell have the same target, so an access that resolves to a
region or to the view touches bytes of that target only. -/
def Obligations.AlignedCellHasOneTarget : Prop :=
  ∀ (s : State) (w : Width) (a : Addr) (k : Nat), s.Inv → a.toNat % widthBytes w = 0 → k < widthBytes w →
    a.toNat + k < 2 ^ 24 ∧ s.resolve (a + BitVec.ofNat 24 k) = s.resolve a

/-- R50 to R52, R54: the map of the launch state by the overlay flag; and with no ROM registered the flag makes no difference. -/
def Obligations.EffectiveMap : Prop :=
  (∀ (s : State) (a : Addr), s.regs = [.ram, .rom] → s.romref = some .rom →
    (a.toNat ≤ 0x01FFFF → s.ovl = true → s.resolve a = .view .rom) ∧
    (a.toNat ≤ 0x01FFFF → s.ovl = false → s.resolve a = .region .ram) ∧
    (0x020000 ≤ a.toNat → a.toNat ≤ 0x0FFFFF → s.resolve a = .region .ram) ∧
    (0x100000 ≤ a.toNat → a.toNat ≤ 0x3FFFFF → s.resolve a = .nothing) ∧
    (0x400000 ≤ a.toNat → a.toNat ≤ 0x41FFFF → s.resolve a = .region .rom) ∧
    (0x420000 ≤ a.toNat → s.resolve a = .nothing)) ∧
  (∀ (s : State) (a : Addr), s.romref = none →
    ({ s with ovl := true } : State).resolve a = ({ s with ovl := false } : State).resolve a)

/-! ### Bus accesses (43_bus_access.md, 60_exceptions.md) -/

/-- R44, R171, R175: a misaligned access ends in Misaligned with its address, whatever it would resolve to, and changes
nothing. -/
def Obligations.MisalignedComesFirst : Prop :=
  ∀ (s : State) (a : Addr),
    (a.toNat % 2 ≠ 0 → exec (.busRead16 a) s = .next (s.answered (.misaligned a)) ∧
      ∀ v, exec (.busWrite16 a v) s = .next (s.answered (.misaligned a))) ∧
    (a.toNat % 4 ≠ 0 → exec (.busRead32 a) s = .next (s.answered (.misaligned a)) ∧
      ∀ v, exec (.busWrite32 a v) s = .next (s.answered (.misaligned a)))

/-- R141, R170, R175: an aligned access that nothing claims ends in Unmapped with its address, code 1, and no value, and changes
nothing. -/
def Obligations.UnclaimedIsUnmapped : Prop :=
  ∀ (s : State) (a : Addr), s.resolve a = .nothing →
    responseWord (.unmapped a) = 0x1#4 ++ 0x0#4 ++ a ++ 0x00000000#32 ∧
    exec (.busRead8 a) s = .next (s.answered (.unmapped a)) ∧
    (∀ v, exec (.busWrite8 a v) s = .next (s.answered (.unmapped a))) ∧
    (a.toNat % 2 = 0 → exec (.busRead16 a) s = .next (s.answered (.unmapped a)) ∧
      ∀ v, exec (.busWrite16 a v) s = .next (s.answered (.unmapped a))) ∧
    (a.toNat % 4 = 0 → exec (.busRead32 a) s = .next (s.answered (.unmapped a)) ∧
      ∀ v, exec (.busWrite32 a v) s = .next (s.answered (.unmapped a)))

/-- R142 to R144 for the view, RAM and ROM: the target's bytes at the address, big-endian, zero-extended; nothing changes. -/
def Obligations.BusReadsStorage : Prop :=
  ∀ (s : State) (a : Addr) (m : Memory) (o : Nat),
    (s.resolve a = .view .rom ∧ m = s.rom ∧ o = a.toNat) ∨
    (s.resolve a = .region .ram ∧ m = s.ram ∧ o = a.toNat) ∨
    (s.resolve a = .region .rom ∧ m = s.rom ∧ a.toNat = 0x400000 + o) →
    exec (.busRead8 a) s = .next (s.answered (.ok ((m.byte o).setWidth 32))) ∧
    (a.toNat % 2 = 0 →
      exec (.busRead16 a) s = .next (s.answered (.ok ((m.byte o ++ m.byte (o + 1)).setWidth 32)))) ∧
    (a.toNat % 4 = 0 →
      exec (.busRead32 a) s =
        .next (s.answered (.ok (m.byte o ++ m.byte (o + 1) ++ m.byte (o + 2) ++ m.byte (o + 3)))))

/-- R142 to R144 for an external device: the access is the device's own at the same address, and completes. -/
def Obligations.BusReadsDevice : Prop :=
  ∀ (s : State) (a : Addr) (k : Nat), s.Inv → s.resolve a = .region (.ext k) →
    (∃ t, exec (.busRead8 a) s = .next t ∧ exec (.extRead8 k a) s = .next t) ∧
    (a.toNat % 2 = 0 → ∃ t, exec (.busRead16 a) s = .next t ∧ exec (.extRead16 k a) s = .next t) ∧
    (a.toNat % 4 = 0 → ∃ t, exec (.busRead32 a) s = .next t ∧ exec (.extRead32 k a) s = .next t)

/-- R145 to R147 for RAM: the value's bytes, most significant first, at the address and nowhere else. -/
def Obligations.BusWritesRam : Prop :=
  ∀ (s : State) (a : Addr), s.ram.wf = true → s.resolve a = .region .ram →
    (∀ v : BitVec 8, ∃ t, exec (.busWrite8 a v) s = .next t ∧ t.ram.byte a.toNat = v ∧
      (∀ o, o ≠ a.toNat → t.ram.byte o = s.ram.byte o) ∧
      t = { s with ram := t.ram, reply := .word (responseWord (.ok 0#32)) }) ∧
    (a.toNat % 2 = 0 → ∀ v : BitVec 16, ∃ t, exec (.busWrite16 a v) s = .next t ∧
      t.ram.byte a.toNat = v.extractLsb' 8 8 ∧ t.ram.byte (a.toNat + 1) = v.extractLsb' 0 8 ∧
      (∀ o, o < a.toNat ∨ a.toNat + 2 ≤ o → t.ram.byte o = s.ram.byte o) ∧
      t = { s with ram := t.ram, reply := .word (responseWord (.ok 0#32)) }) ∧
    (a.toNat % 4 = 0 → ∀ v : BitVec 32, ∃ t, exec (.busWrite32 a v) s = .next t ∧
      t.ram.byte a.toNat = v.extractLsb' 24 8 ∧ t.ram.byte (a.toNat + 1) = v.extractLsb' 16 8 ∧
      t.ram.byte (a.toNat + 2) = v.extractLsb' 8 8 ∧ t.ram.byte (a.toNat + 3) = v.extractLsb' 0 8 ∧
      (∀ o, o < a.toNat ∨ a.toNat + 4 ≤ o → t.ram.byte o = s.ram.byte o) ∧
      t = { s with ram := t.ram, reply := .word (responseWord (.ok 0#32)) })

/-- R148, R172: a write that resolves to the ROM or to the view stores nothing; the requester sees success, or ReadOnly with
its address and value where the machine is built to surface it. -/
def Obligations.BusWritesToReadOnlyTargets : Prop :=
  ∀ (s : State) (a : Addr), s.resolve a = .view .rom ∨ s.resolve a = .region .rom →
    (∀ v : BitVec 8, exec (.busWrite8 a v) s =
      .next (s.answered (if s.surfaceReadOnly = true then .readOnly a (v.setWidth 32) else .ok 0#32))) ∧
    (a.toNat % 2 = 0 → ∀ v : BitVec 16, exec (.busWrite16 a v) s =
      .next (s.answered (if s.surfaceReadOnly = true then .readOnly a (v.setWidth 32) else .ok 0#32))) ∧
    (a.toNat % 4 = 0 → ∀ v : BitVec 32, exec (.busWrite32 a v) s =
      .next (s.answered (if s.surfaceReadOnly = true then .readOnly a v else .ok 0#32)))

/-- R145 to R148 for an external device: the device's own byte writes in ascending order, accepted, or refused as a whole and then
discarded or surfaced as for the ROM, and whether the device changes by it is its own (assumption 8); a device that accepts one byte and
refuses another has no outcome (U4, assumption 20). -/
def Obligations.BusWritesDevice : Prop :=
  ∀ (s : State) (a : Addr) (k : Nat) (d : Device), s.Inv → s.resolve a = .region (.ext k) → s.ext[k]? = some d →
    (∀ v : BitVec 8,
      exec (.busWrite8 a v) s =
        if d.permits k (.write a v) = true then
          .next { s with
            ext := s.ext.set k { d with log := d.log ++ [.write a v] }
            reply := .word (responseWord (.ok 0#32)) }
        else .next ((s.setDevice k (d.refused k false (.write a v))).answered
          (boundaryVerdict s.surfaceReadOnly a (v.setWidth 32)))) ∧
    (a.toNat % 2 = 0 → ∀ (v : BitVec 16) (xs : List Config.DeviceAccess),
      xs = deviceWrites a [v.extractLsb' 8 8, v.extractLsb' 0 8] →
      exec (.busWrite16 a v) s =
        if d.permitsAll k xs = true then
          .next { s with
            ext := s.ext.set k { d with log := d.log ++ xs }
            reply := .word (responseWord (.ok 0#32)) }
        else if d.permitsNone k false xs = true then
          .next ((s.setDevice k (d.refusedAll k false xs)).answered
            (boundaryVerdict s.surfaceReadOnly a (v.setWidth 32)))
        else .refused .partialWrite) ∧
    (a.toNat % 4 = 0 → ∀ (v : BitVec 32) (xs : List Config.DeviceAccess),
      xs = deviceWrites a
        [v.extractLsb' 24 8, v.extractLsb' 16 8, v.extractLsb' 8 8, v.extractLsb' 0 8] →
      exec (.busWrite32 a v) s =
        if d.permitsAll k xs = true then
          .next { s with
            ext := s.ext.set k { d with log := d.log ++ xs }
            reply := .word (responseWord (.ok 0#32)) }
        else if d.permitsNone k false xs = true then
          .next ((s.setDevice k (d.refusedAll k false xs)).answered (boundaryVerdict s.surfaceReadOnly a v))
        else .refused .partialWrite)

/-- R49, R141: in every state of the invariant every bus access is answered; only a multi-byte write to a device that decides
per access can be refused, where it accepts one byte and refuses another (U4). -/
def Obligations.EveryBusAccessIsAnswered : Prop :=
  ∀ (s : State) (a : Addr), s.Inv →
    (∃ t, exec (.busRead8 a) s = .next t) ∧ (∃ t, exec (.busRead16 a) s = .next t) ∧
    (∃ t, exec (.busRead32 a) s = .next t) ∧ (∀ v, ∃ t, exec (.busWrite8 a v) s = .next t) ∧
    (∀ v, (∃ t, exec (.busWrite16 a v) s = .next t) ∨
      (exec (.busWrite16 a v) s = .refused .partialWrite ∧
        ∃ k d, s.resolve a = .region (.ext k) ∧ s.ext[k]? = some d ∧ d.permission = .perAccess)) ∧
    (∀ v, (∃ t, exec (.busWrite32 a v) s = .next t) ∨
      (exec (.busWrite32 a v) s = .refused .partialWrite ∧
        ∃ k d, s.resolve a = .region (.ext k) ∧ s.ext[k]? = some d ∧ d.permission = .perAccess))

/-- R175: of the conditions that apply to one bus access the one reported is the first of Misaligned, Unmapped, ReadOnly. -/
def Obligations.FaultPriority : Prop :=
  ∀ (i : Instr) (a : Addr) (n : Nat) (s t : State),
    (n = 1 ∧ (i = .busRead8 a ∨ ∃ v, i = .busWrite8 a v)) ∨ (n = 2 ∧ (i = .busRead16 a ∨ ∃ v, i = .busWrite16 a v)) ∨
    (n = 4 ∧ (i = .busRead32 a ∨ ∃ v, i = .busWrite32 a v)) →
    exec i s = .next t →
    (replyStatus t = some 0x2#4 ↔ a.toNat % n ≠ 0) ∧
    (replyStatus t = some 0x1#4 ↔ a.toNat % n = 0 ∧ s.resolve a = .nothing) ∧
    (replyStatus t = some 0x3#4 → a.toNat % n = 0 ∧ s.resolve a ≠ .nothing)

/-- R103, R174: the outcomes an operation can end in, on the bus and at the region ports and the control ports. -/
def Obligations.OutcomesByOperation : Prop :=
  ∀ (s t : State) (i : Instr), exec i s = .next t →
    (∀ a, i = .busRead8 a → replyStatus t ∈ [some 0x0#4, some 0x1#4]) ∧
    (∀ a, i = .busRead16 a ∨ i = .busRead32 a → replyStatus t ∈ [some 0x0#4, some 0x1#4, some 0x2#4]) ∧
    (∀ a v, i = .busWrite8 a v →
      replyStatus t ∈ [some 0x0#4, some 0x1#4] ∨ (s.surfaceReadOnly = true ∧ replyStatus t = some 0x3#4)) ∧
    (∀ a v v', i = .busWrite16 a v ∨ i = .busWrite32 a v' →
      replyStatus t ∈ [some 0x0#4, some 0x1#4, some 0x2#4] ∨
        (s.surfaceReadOnly = true ∧ replyStatus t = some 0x3#4)) ∧
    (∀ r a n, i.portAccess = some (r, a, n) → replyStatus t ∈ [some 0x0#4, some 0x3#4] ∧
      ((opField (encodeWord i)).toNat < 4 → replyStatus t = some 0x0#4)) ∧
    (∀ b r, i = .isOverlayActive ∨ i = .setOverlayActive b ∨ i = .register r → replyStatus t = some 0x0#4)

/-- R43: after a 32-bit write to RAM every narrower read sees its bytes, most significant at the lowest address, and a later
byte write shows in that byte of the 32-bit read and in no other. -/
def Obligations.MixedWidthsSeeEachOther : Prop :=
  ∀ (s : State) (a : Addr) (v : BitVec 32), s.Inv → s.resolve a = .region .ram → a.toNat % 4 = 0 →
    ∃ t, exec (.busWrite32 a v) s = .next t ∧
      exec (.busRead8 a) t = .next (t.answered (.ok ((v.extractLsb' 24 8).setWidth 32))) ∧
      exec (.busRead8 (a + 1)) t = .next (t.answered (.ok ((v.extractLsb' 16 8).setWidth 32))) ∧
      exec (.busRead8 (a + 2)) t = .next (t.answered (.ok ((v.extractLsb' 8 8).setWidth 32))) ∧
      exec (.busRead8 (a + 3)) t = .next (t.answered (.ok ((v.extractLsb' 0 8).setWidth 32))) ∧
      exec (.busRead16 a) t = .next (t.answered (.ok ((v.extractLsb' 16 16).setWidth 32))) ∧
      exec (.busRead16 (a + 2)) t = .next (t.answered (.ok ((v.extractLsb' 0 16).setWidth 32))) ∧
      exec (.busRead32 a) t = .next (t.answered (.ok v)) ∧
      ∀ b : BitVec 8,
        (∃ u, exec (.busWrite8 a b) t = .next u ∧
          exec (.busRead32 a) u = .next (u.answered (.ok (b ++ v.extractLsb' 0 24)))) ∧
        (∃ u, exec (.busWrite8 (a + 1) b) t = .next u ∧
          exec (.busRead32 a) u = .next (u.answered (.ok (v.extractLsb' 24 8 ++ b ++ v.extractLsb' 0 16)))) ∧
        (∃ u, exec (.busWrite8 (a + 2) b) t = .next u ∧
          exec (.busRead32 a) u = .next (u.answered (.ok (v.extractLsb' 16 16 ++ b ++ v.extractLsb' 0 8)))) ∧
        (∃ u, exec (.busWrite8 (a + 3) b) t = .next u ∧
          exec (.busRead32 a) u = .next (u.answered (.ok (v.extractLsb' 8 24 ++ b))))

/-- R52, R208: while the overlay is active no bus access changes a RAM byte below 0x020000, and none reads one. -/
def Obligations.RamUnderTheOverlayIsOutOfReach : Prop :=
  ∀ (s : State) (w : Word64) (rest : List Input) (t : State), s.Inv → s.ovl = true → s.romref = some .rom →
    s.inputs = .request .bus w :: rest → step s = .next t →
    (∀ o, o < 0x20000 → t.ram.byte o = s.ram.byte o) ∧
    (∀ m : Memory, (∀ o, 0x20000 ≤ o → m.byte o = s.ram.byte o) →
      ∃ t', step { s with ram := m } = .next t' ∧ t'.reply = t.reply)

/-! ### The overlay flag and registration (44_control.md) -/

/-- R160, R161: reading the flag, and setting it to either value, at any time; nothing else changes. -/
def Obligations.OverlayFlag : Prop :=
  ∀ s : State,
    exec .isOverlayActive s = .next (s.answered (.ok (if s.ovl = true then 1#32 else 0#32))) ∧
    ∀ b, exec (.setOverlayActive b) s =
      .next { s with ovl := b, reply := .word (responseWord (.ok 0#32)) }

/-- R56, R161 (a), (c), (d): the very next access sees the flag: with a ROM registered and RAM first to claim the address,
clearing it shows the RAM byte and setting it again shows the ROM byte. -/
def Obligations.OverlaySwitchIsSeenAtOnce : Prop :=
  ∀ (s : State) (a : Addr), s.romref = some .rom → a.toNat < 0x20000 → s.scan a = .region .ram →
    ∃ t u, exec (.setOverlayActive false) s = .next t ∧
      exec (.busRead8 a) t = .next (t.answered (.ok ((s.ram.byte a.toNat).setWidth 32))) ∧
      exec (.setOverlayActive true) t = .next u ∧
      exec (.busRead8 a) u = .next (u.answered (.ok ((s.rom.byte a.toNat).setWidth 32)))

/-- R162: a region that exists is appended at the end, whatever is registered already; only the ROM becomes the overlay's
target; a handle that names no device has no step. -/
def Obligations.RegisterAppends : Prop :=
  (∀ (d : Data) (a : Addr), decode .cfg (requestWord 0xA a d) = .ok (.register
    (if d.extractLsb' 0 8 = 0#8 then .ram else if d.extractLsb' 0 8 = 1#8 then .rom
      else .ext ((d.extractLsb' 0 8).toNat - 2)))) ∧
  ∀ s : State,
    exec (.register .ram) s =
      .next { s with regs := s.regs ++ [.ram], reply := .word (responseWord (.ok 0#32)) } ∧
    exec (.register .rom) s =
      .next { s with regs := s.regs ++ [.rom], romref := some .rom, reply := .word (responseWord (.ok 0#32)) } ∧
    ∀ k, (k < s.ext.length → exec (.register (.ext k)) s =
        .next { s with regs := s.regs ++ [.ext k], reply := .word (responseWord (.ok 0#32)) }) ∧
      (s.ext.length ≤ k → exec (.register (.ext k)) s = .refused .noSuchRegion)

/-! ### The Cycle Counter (60_exceptions.md) -/

/-- R186 to R188: advancing adds the delta, reading returns the count, and a period is the clock divided by the frequency,
rounded down; frequency 0 has no value. -/
def Obligations.CycleCounter : Prop :=
  ∀ (s : State) (rest : List Input),
    (∀ delta, s.inputs = .counter (.advance delta) :: rest →
      step s = .next { s with ticks := s.ticks + delta, inputs := rest, reply := .nothing }) ∧
    (s.inputs = .counter .now :: rest →
      step s = .next { s with inputs := rest, reply := .number s.ticks }) ∧
    (∀ hz, 0 < hz → s.inputs = .counter (.ticksForPeriod hz) :: rest →
      ∃ n, step s = .next { s with inputs := rest, reply := .number n } ∧
        n * hz ≤ 7833600 ∧ 7833600 < (n + 1) * hz) ∧
    (s.inputs = .counter (.ticksForPeriod 0) :: rest → step s = .refused .zeroFrequency)

/-- R189: no request changes the count or depends on it, and no call of the counter changes anything of the block. -/
def Obligations.CounterIsIndependent : Prop :=
  (∀ (i : Instr) (s t : State) (n : Nat), exec i s = .next t →
    t.ticks = s.ticks ∧ exec i { s with ticks := n } = .next { t with ticks := n }) ∧
  (∀ (c : CounterOp) (s t : State), serveCounter c s = .next t →
    t = { s with ticks := t.ticks, reply := t.reply } ∧ s.ticks ≤ t.ticks)

/-! ### Rules of the whole machine -/

/-- Every step keeps the invariant (R21, R22, R24, R25). -/
def Obligations.InvKept : Prop := ∀ s t : State, s.Inv → step s = .next t → t.Inv

/-- R22: nothing ever changes the ROM. -/
def Obligations.RomNeverChanges : Prop := ∀ s t : State, step s = .next t → t.rom = s.rom

/-- R24, R26: the registry only grows at its end, and the count never falls. -/
def Obligations.RegistryAndCountOnlyGrow : Prop :=
  ∀ s t : State, step s = .next t → s.regs <+: t.regs ∧ s.ticks ≤ t.ticks

/-- R27, R47, R181: what a request can change, by the port it arrives on. -/
def Obligations.WhatEachPortCanChange : Prop :=
  ∀ (s t : State) (p : Port) (w : Word64) (rest : List Input), s.inputs = .request p w :: rest → step s = .next t →
    t.inputs = rest ∧ t.rom = s.rom ∧ t.ticks = s.ticks ∧ t.surfaceReadOnly = s.surfaceReadOnly ∧
    (p ≠ .ovl → t.ovl = s.ovl) ∧
    (p ≠ .cfg → t.regs = s.regs ∧ t.romref = s.romref) ∧
    (p = .ovl ∨ p = .cfg ∨ p = .view ∨ p = .reg .rom → t.ram = s.ram ∧ t.ext = s.ext) ∧
    (p = .reg .ram → t.ext = s.ext) ∧
    (∀ k, p = .reg (.ext k) → t.ram = s.ram ∧ ∀ j, j ≠ k → t.ext[j]? = s.ext[j]?)

/-- R11, R177: an operation that ends in a fault changes no state of the block; only its response reports it. No device changes
either, but for one that decides per access and has refused the write itself, whose change is its own (R97, R104; assumption
8). -/
def Obligations.FaultsChangeNothing : Prop :=
  ∀ (i : Instr) (s t : State) (w : Word64), exec i s = .next t → t.reply = .word w → statusOf w ≠ 0x0#4 →
    t = { s with ext := t.ext, reply := .word w } ∧
    (statusOf w ≠ 0x3#4 → t.ext = s.ext) ∧
    (∀ k, t.ext[k]? = s.ext[k]? ∨ ((encodePort i = .bus ∨ encodePort i = .reg (.ext k)) ∧
      ∃ d, s.ext[k]? = some d ∧ d.permission = .perAccess))

/-- R30, R178: the block remembers no outcome: the last reply has no part in any later step. -/
def Obligations.RepliesAreForgotten : Prop :=
  ∀ (s : State) (r : Reply), step { s with reply := r } = step s

/-- R47: a read of RAM or ROM, at its port, through the view or through the bus, or of the overlay flag (R160), changes nothing
and gives the same answer again. -/
def Obligations.StorageReadsRepeat : Prop :=
  ∀ (i : Instr) (s t : State), i.isStorageRead = true → exec i s = .next t →
    (∀ k a, i = .busRead8 a ∨ i = .busRead16 a ∨ i = .busRead32 a → s.resolve a ≠ .region (.ext k)) →
    t = { s with reply := t.reply } ∧ exec i t = .next t

/-- R47: a RAM write, at its port or through the bus, repeated, changes nothing further. -/
def Obligations.RamWritesAreIdempotent : Prop :=
  ∀ (i : Instr) (s t : State), s.ram.wf = true → exec i s = .next t →
    (∃ a v, i = .ramWrite8 a v) ∨ (∃ a v, i = .ramWrite16 a v) ∨ (∃ a v, i = .ramWrite32 a v) ∨
    (∃ a b, i = .ramWriteBit a b) ∨ (∃ a v, i = .busWrite8 a v ∧ s.resolve a = .region .ram) ∨
    (∃ a v, i = .busWrite16 a v ∧ s.resolve a = .region .ram) ∨
    (∃ a v, i = .busWrite32 a v ∧ s.resolve a = .region .ram) →
    exec i t = .next t
end

