-- ==== Sys2Proof/Laws/Decode.lean ====
section
/-! SUPPORT. The fields of a request word, the word made of its fields, and the region handle. -/

namespace Sys2Proof

section Fields
variable (op : BitVec 4) (a : Addr) (d : Data)

@[simp] theorem opField_requestWord : opField (requestWord op a d) = op := by
  simp only [opField, requestWord]
  rw [BitVec.extractLsb'_append_eq_of_le (by omega), BitVec.extractLsb'_append_eq_of_le (by omega),
    BitVec.extractLsb'_append_eq_of_le (by omega)]
  simp

@[simp] theorem rsvField_requestWord : rsvField (requestWord op a d) = 0#4 := by
  simp only [rsvField, requestWord]
  rw [BitVec.extractLsb'_append_eq_of_le (by omega), BitVec.extractLsb'_append_eq_of_le (by omega),
    BitVec.extractLsb'_append_eq_of_add_le (by omega)]
  simp

@[simp] theorem addrField_requestWord : addrField (requestWord op a d) = a := by
  simp only [addrField, requestWord]
  rw [BitVec.extractLsb'_append_eq_of_le (by omega), BitVec.extractLsb'_append_eq_of_add_le (by omega)]
  simp

@[simp] theorem dataField_requestWord : dataField (requestWord op a d) = d := by
  simp only [dataField, requestWord]
  rw [BitVec.extractLsb'_append_eq_of_add_le (by omega)]
  simp
end Fields

/-- A bit of a request word lies in one of its four fields (R71). -/
theorem getLsbD_requestWord (op : BitVec 4) (a : Addr) (d : Data) (n : Nat) :
    (requestWord op a d).getLsbD n =
      if n < 32 then d.getLsbD n else if n < 56 then a.getLsbD (n - 32)
      else if n < 60 then false else op.getLsbD (n - 60) := by
  simp only [requestWord]
  rw [BitVec.getLsbD_append, BitVec.getLsbD_append, BitVec.getLsbD_append]
  by_cases h : n < 32
  · simp [h]
  · by_cases h' : n < 56
    · simp [h, h', show n - 32 < 24 by omega]
    · by_cases h'' : n < 60
      · simp [h, h', h'', show ¬ n - 32 < 24 by omega, show n - 32 - 24 < 4 by omega]
      · simp [h, h', h'', show ¬ n - 32 < 24 by omega, show ¬ n - 32 - 24 < 4 by omega,
          show n - 32 - 24 - 4 = n - 60 by omega]

/-- A word with its reserved field zero is made of its fields. -/
theorem requestWord_of_fields {w : Word64} (h : rsvField w = 0#4) :
    requestWord (opField w) (addrField w) (dataField w) = w := by
  apply BitVec.eq_of_getLsbD_eq
  intro n hn
  rw [getLsbD_requestWord]
  simp only [opField, addrField, dataField, BitVec.getLsbD_extractLsb']
  by_cases h1 : n < 32
  · simp [h1]
  · by_cases h2 : n < 56
    · simp [h1, h2, show n - 32 < 24 by omega, show 32 + (n - 32) = n by omega]
    · by_cases h3 : n < 60
      · have := congrArg (fun z : BitVec 4 => z.getLsbD (n - 56)) h
        simp only [rsvField, BitVec.getLsbD_extractLsb'] at this
        simp [show n - 56 < 4 by omega, show 56 + (n - 56) = n by omega] at this
        simp [h1, h2, h3, this]
      · simp [h1, h2, h3, show n - 60 < 4 by omega, show 60 + (n - 60) = n by omega]

/-- Two data fields that agree under a mask make words that agree under the mask's word, and the converse. -/
theorem requestWord_and (op op' : BitVec 4) (a a' : Addr) (d d' : Data) :
    requestWord op a d &&& (op' ++ 0xF#4 ++ a' ++ d') = requestWord (op &&& op') (a &&& a') (d &&& d') := by
  apply BitVec.eq_of_getLsbD_eq
  intro n hn
  rw [BitVec.getLsbD_and, getLsbD_requestWord, getLsbD_requestWord]
  rw [BitVec.getLsbD_append, BitVec.getLsbD_append, BitVec.getLsbD_append]
  by_cases h1 : n < 32
  · simp [h1]
  · by_cases h2 : n < 56
    · simp [h1, h2, show n - 32 < 24 by omega]
    · by_cases h3 : n < 60
      · simp [h1, h2, h3]
      · simp [h1, h2, h3, show ¬ n - 32 < 24 by omega, show ¬ n - 32 - 24 < 4 by omega,
          show n - 32 - 24 - 4 = n - 60 by omega]

@[simp] theorem setWidth_extract_byte (v : BitVec 8) : (v.setWidth 32 : Data).extractLsb' 0 8 = v := by
  apply BitVec.eq_of_getLsbD_eq; intro n hn
  simp [BitVec.getLsbD_setWidth, hn]; omega

@[simp] theorem setWidth_extract_half (v : BitVec 16) : (v.setWidth 32 : Data).extractLsb' 0 16 = v := by
  apply BitVec.eq_of_getLsbD_eq; intro n hn
  simp [BitVec.getLsbD_setWidth, hn]; omega

@[simp] theorem getLsbD_bitData (b : Bool) : (bitData b).getLsbD 0 = b := by
  cases b <;> decide

/-! ### Truncated data as a mask (R72) -/

theorem byte_as_mask (d : Data) : (d.extractLsb' 0 8).setWidth 32 = d &&& 0xFF#32 := by
  apply BitVec.eq_of_getLsbD_eq; intro i hi
  have : (0xFF#32).getLsbD i = decide (i < 8) := by interval_cases i <;> rfl
  simp only [BitVec.getLsbD_setWidth, BitVec.getLsbD_extractLsb', BitVec.getLsbD_and, this, hi, decide_true,
    Bool.true_and, Nat.zero_add]
  exact Bool.and_comm _ _

theorem half_as_mask (d : Data) : (d.extractLsb' 0 16).setWidth 32 = d &&& 0xFFFF#32 := by
  apply BitVec.eq_of_getLsbD_eq; intro i hi
  have : (0xFFFF#32).getLsbD i = decide (i < 16) := by interval_cases i <;> rfl
  simp only [BitVec.getLsbD_setWidth, BitVec.getLsbD_extractLsb', BitVec.getLsbD_and, this, hi, decide_true,
    Bool.true_and, Nat.zero_add]
  exact Bool.and_comm _ _

theorem bit_as_mask (d : Data) : bitData (d.getLsbD 0) = d &&& 1#32 := by
  apply BitVec.eq_of_getLsbD_eq; intro i hi
  have h1 : (1#32).getLsbD i = decide (i = 0) := by interval_cases i <;> rfl
  rw [BitVec.getLsbD_and, h1]
  by_cases h : i = 0
  · subst h; simp only [getLsbD_bitData]; simp
  · simp only [bitData]; split <;> simp [h, h1]

/-- A word under a mask is the word of its fields under the mask's fields. -/
theorem masked_word {w : Word64} (h : rsvField w = 0#4) (op : BitVec 4) (a : Addr) (d : Data) {m : Word64}
    (hm : op ++ 0xF#4 ++ a ++ d = m) :
    w &&& m = requestWord (opField w &&& op) (addrField w &&& a) (dataField w &&& d) := by
  subst hm
  rw [← requestWord_and, requestWord_of_fields h]

/-- A well-formed region is the one its handle names (R76). -/
theorem regionOfHandle_handle {r : Region} (h : r.wellFormed = true) : regionOfHandle (handleOfRegion r) = r := by
  cases r with
  | ram => rfl
  | rom => rfl
  | ext i =>
    have h : i ≤ 253 := of_decide_eq_true h
    have : (BitVec.ofNat 8 (i + 2)).toNat = i + 2 := by
      rw [BitVec.toNat_ofNat]; omega
    simp only [regionOfHandle, handleOfRegion, this]

theorem handle_regionOfHandle (rid : BitVec 8) : handleOfRegion (regionOfHandle rid) = rid := by
  have h := rid.isLt
  apply BitVec.eq_of_toNat_eq
  simp only [regionOfHandle]
  split
  · simp_all [handleOfRegion]
  · simp_all [handleOfRegion]
  · rename_i i hi
    simp only [handleOfRegion, BitVec.toNat_ofNat]
    omega

theorem regionOfHandle_wellFormed (rid : BitVec 8) : (regionOfHandle rid).wellFormed = true := by
  have h := rid.isLt
  simp only [regionOfHandle]
  split
  · rfl
  · rfl
  · exact decide_eq_true (show _ ≤ 253 by omega)

end Sys2Proof
end

