-- ==== Sys2Proof/Laws/Memory.lean ====
section
/-! SUPPORT. The laws of byte storage: read after write, the canonical form is kept, equal bytes are equal lists. -/

namespace Sys2Proof.Machine

theorem Memory.wfFrom_mono {lo lo' : Nat} {m : Memory} (h : Memory.wfFrom lo m = true) (hlo : lo' ≤ lo) :
    Memory.wfFrom lo' m = true := by
  cases m with
  | nil => rfl
  | cons c m =>
    simp only [Memory.wfFrom, Bool.and_eq_true, decide_eq_true_eq] at h ⊢
    exact ⟨⟨hlo.trans h.1.1, h.1.2⟩, h.2⟩

/-- Nothing is listed below the lower bound of the form. -/
theorem Memory.byte_of_lt {lo o : Nat} {m : Memory} (h : Memory.wfFrom lo m = true) (ho : o < lo) :
    m.byte o = unlisted := by
  induction m generalizing lo with
  | nil => rfl
  | cons c m ih =>
    simp only [Memory.wfFrom, Bool.and_eq_true, decide_eq_true_eq] at h
    simp only [Memory.byte]
    rw [if_neg (by omega), ih h.2 (by omega)]

theorem Memory.wfFrom_write {lo o : Nat} {v : Byte} {m : Memory} (h : Memory.wfFrom lo m = true) (ho : lo ≤ o) :
    Memory.wfFrom lo (m.write o v) = true := by
  induction m generalizing lo with
  | nil =>
    simp only [Memory.write]
    split <;> simp_all [Memory.wfFrom]
  | cons c m ih =>
    obtain ⟨k, b⟩ := c
    simp only [Memory.wfFrom, Bool.and_eq_true, decide_eq_true_eq] at h
    simp only [Memory.write]
    split
    · split
      · simp [Memory.wfFrom, h]
      · simp only [Memory.wfFrom, Bool.and_eq_true, decide_eq_true_eq]
        exact ⟨⟨ho, by assumption⟩, ⟨⟨by omega, h.1.2⟩, h.2⟩⟩
    · split
      · split
        · exact Memory.wfFrom_mono h.2 (by omega)
        · subst o
          simp only [Memory.wfFrom, Bool.and_eq_true, decide_eq_true_eq]
          exact ⟨⟨ho, by assumption⟩, h.2⟩
      · simp only [Memory.wfFrom, Bool.and_eq_true, decide_eq_true_eq]
        exact ⟨h.1, ih h.2 (by omega)⟩

/-- A write keeps the canonical form. -/
theorem Memory.wf_write {o : Nat} {v : Byte} {m : Memory} (h : m.wf = true) : (m.write o v).wf = true :=
  Memory.wfFrom_write h (Nat.zero_le o)

theorem Memory.byte_write_from {lo o o' : Nat} {v : Byte} {m : Memory} (h : Memory.wfFrom lo m = true) :
    (m.write o v).byte o' = if o' = o then v else m.byte o' := by
  induction m generalizing lo with
  | nil =>
    simp only [Memory.write]
    by_cases ho : o' = o
    · subst ho
      by_cases hv : v = unlisted <;> simp [hv, Memory.byte]
    · by_cases hv : v = unlisted <;> simp [hv, Memory.byte, ho, Ne.symm ho]
  | cons c m ih =>
    obtain ⟨k, b⟩ := c
    simp only [Memory.wfFrom, Bool.and_eq_true, decide_eq_true_eq] at h
    have low : ∀ x, x ≤ k → Memory.byte m x = unlisted := fun x hx => Memory.byte_of_lt h.2 (by omega)
    simp only [Memory.write]
    split
    · rename_i hlt
      split
      · rename_i hv
        simp only [Memory.byte]
        by_cases ho : o' = o
        · subst ho; rw [if_neg (by omega), if_pos rfl, low _ (by omega), hv]
        · rw [if_neg ho]
      · simp only [Memory.byte]
        by_cases ho : o' = o
        · simp [ho]
        · rw [if_neg (Ne.symm ho), if_neg ho]
    · split
      · rename_i hlt he
        subst he
        split
        · rename_i hv
          by_cases ho : o' = o
          · subst ho; rw [if_pos rfl, low _ le_rfl, hv]
          · rw [if_neg ho]; simp only [Memory.byte]; rw [if_neg (Ne.symm ho)]
        · by_cases ho : o' = o
          · simp [ho, Memory.byte]
          · simp [Memory.byte, ho, Ne.symm ho]
      · rename_i hlt he
        simp only [Memory.byte, ih h.2]
        by_cases ho : o' = o
        · subst ho; rw [if_neg (Ne.symm he), if_pos rfl, if_pos rfl]
        · simp [ho]

/-- Read after write: the byte written, and every other byte as before. -/
theorem Memory.byte_write {o o' : Nat} {v : Byte} {m : Memory} (h : m.wf = true) :
    (m.write o v).byte o' = if o' = o then v else m.byte o' :=
  Memory.byte_write_from h

theorem Memory.below_iff {n : Nat} {m : Memory} : m.below n = true ↔ ∀ c ∈ m, c.1 < n := by
  simp [Memory.below]

theorem Memory.mem_write {o : Nat} {v : Byte} {c : Host.Cell} {m : Memory} (h : c ∈ m.write o v) :
    c ∈ m ∨ c.1 = o := by
  induction m with
  | nil =>
    simp only [Memory.write] at h
    split at h
    · exact .inl h
    · right; simp at h; rw [h]
  | cons e m ih =>
    obtain ⟨k, b⟩ := e
    simp only [Memory.write] at h
    split at h <;> split at h
    · exact .inl h
    · rcases List.mem_cons.1 h with rfl | h
      · exact .inr rfl
      · exact .inl h
    · split at h
      · exact .inl (List.mem_cons_of_mem _ h)
      · rcases List.mem_cons.1 h with rfl | h
        · exact .inr rfl
        · exact .inl (List.mem_cons_of_mem _ h)
    · rcases List.mem_cons.1 h with rfl | h
      · exact .inl (List.mem_cons_self ..)
      · exact (ih h).imp_left (List.mem_cons_of_mem _)

theorem Memory.below_write {n o : Nat} {v : Byte} {m : Memory} (h : m.below n = true) (ho : o < n) :
    (m.write o v).below n = true := by
  rw [Memory.below_iff] at h ⊢
  intro c hc
  rcases Memory.mem_write hc with hc | rfl
  · exact h c hc
  · exact ho

/-- Equal bytes everywhere make equal lists. -/
theorem Memory.ext_from {lo : Nat} {m m' : Memory} (h : Memory.wfFrom lo m = true) (h' : Memory.wfFrom lo m' = true)
    (hb : ∀ o, m.byte o = m'.byte o) : m = m' := by
  induction m generalizing m' lo with
  | nil =>
    cases m' with
    | nil => rfl
    | cons c m' =>
      have := hb c.1
      simp only [Memory.wfFrom, Bool.and_eq_true, decide_eq_true_eq] at h'
      simp only [Memory.byte, if_true] at this
      exact absurd this.symm h'.1.2
  | cons c m ih =>
    obtain ⟨k, b⟩ := c
    cases m' with
    | nil =>
      have := hb k
      simp only [Memory.wfFrom, Bool.and_eq_true, decide_eq_true_eq] at h
      simp only [Memory.byte, if_true] at this
      exact absurd this h.1.2
    | cons c' m' =>
      obtain ⟨k', b'⟩ := c'
      simp only [Memory.wfFrom, Bool.and_eq_true, decide_eq_true_eq] at h h'
      have hk : k = k' := by
        rcases Nat.lt_trichotomy k k' with hlt | he | hgt
        · have := hb k
          simp only [Memory.byte, if_true] at this
          rw [if_neg (by omega), Memory.byte_of_lt h'.2 (by omega)] at this
          exact absurd this h.1.2
        · exact he
        · have := hb k'
          simp only [Memory.byte, if_true] at this
          rw [if_neg (by omega), Memory.byte_of_lt h.2 (by omega)] at this
          exact absurd this.symm h'.1.2
      subst hk
      have hbb : b = b' := by have := hb k; simpa [Memory.byte] using this
      subst hbb
      have : m = m' := by
        refine ih h.2 h'.2 fun o => ?_
        by_cases ho : k = o
        · subst ho
          rw [Memory.byte_of_lt h.2 (by omega), Memory.byte_of_lt h'.2 (by omega)]
        · have := hb o
          simpa [Memory.byte, ho] using this
      rw [this]

theorem Memory.ext {m m' : Memory} (h : m.wf = true) (h' : m'.wf = true) (hb : ∀ o, m.byte o = m'.byte o) : m = m' :=
  Memory.ext_from h h' hb

/-! ### Consecutive bytes -/

theorem Memory.wf_writeBytes {bs : List Byte} {o : Nat} {m : Memory} (h : m.wf = true) :
    (m.writeBytes o bs).wf = true := by
  induction bs generalizing m o with
  | nil => exact h
  | cons b bs ih => exact ih (Memory.wf_write h)

theorem Memory.below_writeBytes {n : Nat} {bs : List Byte} {o : Nat} {m : Memory} (h : m.below n = true)
    (ho : o + bs.length ≤ n) : (m.writeBytes o bs).below n = true := by
  induction bs generalizing m o with
  | nil => exact h
  | cons b bs ih =>
    simp only [List.length_cons] at ho
    exact ih (Memory.below_write h (by omega)) (by omega)

/-- Bytes outside the range written are unchanged. -/
theorem Memory.byte_writeBytes_outside {bs : List Byte} {o o' : Nat} {m : Memory} (h : m.wf = true)
    (ho : o' < o ∨ o + bs.length ≤ o') : (m.writeBytes o bs).byte o' = m.byte o' := by
  induction bs generalizing m o with
  | nil => rfl
  | cons b bs ih =>
    simp only [List.length_cons] at ho
    simp only [Memory.writeBytes]
    rw [ih (Memory.wf_write h) (by omega), Memory.byte_write h, if_neg (by omega)]

/-- The bytes written are the bytes read back. -/
theorem Memory.byte_writeBytes_inside {bs : List Byte} {o k : Nat} {m : Memory} (h : m.wf = true)
    (hk : k < bs.length) : (m.writeBytes o bs).byte (o + k) = bs[k] := by
  induction bs generalizing m o k with
  | nil => simp at hk
  | cons b bs ih =>
    simp only [Memory.writeBytes]
    cases k with
    | zero =>
      rw [Memory.byte_writeBytes_outside (Memory.wf_write h) (by omega), Memory.byte_write h]
      simp
    | succ k =>
      have hk' : k < bs.length := by simpa using hk
      have := ih (m := m.write o b) (o := o + 1) (Memory.wf_write h) hk'
      rw [show o + (k + 1) = o + 1 + k by omega, this]
      simp

/-- Writing the same bytes again changes nothing (R47). -/
theorem Memory.writeBytes_twice {bs : List Byte} {o : Nat} {m : Memory} (h : m.wf = true) :
    (m.writeBytes o bs).writeBytes o bs = m.writeBytes o bs := by
  refine Memory.ext (Memory.wf_writeBytes (Memory.wf_writeBytes h)) (Memory.wf_writeBytes h) fun o' => ?_
  by_cases ho : o' < o ∨ o + bs.length ≤ o'
  · rw [Memory.byte_writeBytes_outside (Memory.wf_writeBytes h) ho]
  · obtain ⟨k, rfl⟩ : ∃ k, o' = o + k := ⟨o' - o, by omega⟩
    rw [Memory.byte_writeBytes_inside (Memory.wf_writeBytes h) (by omega),
      Memory.byte_writeBytes_inside h (by omega)]

/-! ### Storage as it is built -/

theorem Memory.ofCells_form {size : Nat} (cells : List Host.Cell) :
    (Memory.ofCells size cells).wf = true ∧ (Memory.ofCells size cells).below size = true := by
  suffices H : ∀ (m : Memory), m.wf = true ∧ m.below size = true →
      let r := cells.foldl (fun (m : Memory) c => if c.1 < size then Memory.write m c.1 c.2 else m) m
      Memory.wf r = true ∧ Memory.below size r = true from H [] ⟨rfl, rfl⟩
  induction cells with
  | nil => exact fun m h => h
  | cons c cells ih =>
    intro m h
    simp only [List.foldl_cons]
    refine ih _ ?_
    split
    · exact ⟨Memory.wf_write h.1, Memory.below_write h.2 (by assumption)⟩
    · exact h

/-- Any contents at all can be written as cells: the cells of a function's first `n` values hold those values (R34). -/
theorem Memory.byte_ofCells_range {size n : Nat} (f : Nat → Byte) (hn : n ≤ size) :
    ∀ o, o < n → (Memory.ofCells size ((List.range n).map fun o => (o, f o))).byte o = f o := by
  have key : Memory.wf (Memory.ofCells size ((List.range n).map fun o => (o, f o))) = true ∧
      ∀ o, o < n → (Memory.ofCells size ((List.range n).map fun o => (o, f o))).byte o = f o := by
    induction n with
    | zero => exact ⟨rfl, by simp⟩
    | succ n ih =>
      have ih := ih (by omega)
      simp only [Memory.ofCells, List.range_succ, List.map_append, List.foldl_append, List.map_cons, List.map_nil,
        List.foldl_cons, List.foldl_nil, if_pos (show n < size by omega)] at ih ⊢
      refine ⟨Memory.wf_write ih.1, fun o ho => ?_⟩
      rw [Memory.byte_write ih.1]
      split
      · subst o; rfl
      · exact ih.2 o (by omega)
  exact key.2

theorem Memory.ofBytes_wf {bs : List Byte} {o : Nat} : Memory.wfFrom o (Memory.ofBytes o bs) = true := by
  induction bs generalizing o with
  | nil => rfl
  | cons b bs ih =>
    simp only [Memory.ofBytes]
    split
    · exact Memory.wfFrom_mono ih (by omega)
    · simp only [Memory.wfFrom, Bool.and_eq_true, decide_eq_true_eq]
      exact ⟨⟨le_rfl, by assumption⟩, ih⟩

theorem Memory.ofBytes_below {bs : List Byte} {o : Nat} : (Memory.ofBytes o bs).below (o + bs.length) = true := by
  induction bs generalizing o with
  | nil => rfl
  | cons b bs ih =>
    have := ih (o := o + 1)
    rw [show o + 1 + bs.length = o + (b :: bs).length by simp only [List.length_cons]; omega] at this
    simp only [Memory.ofBytes]
    split
    · exact this
    · simp only [Memory.below, List.all_cons, Bool.and_eq_true, decide_eq_true_eq] at this ⊢
      exact ⟨by simp, this⟩

theorem Memory.byte_ofBytes {bs : List Byte} {o k : Nat} (hk : k < bs.length) :
    (Memory.ofBytes o bs).byte (o + k) = bs[k] := by
  induction bs generalizing o k with
  | nil => simp at hk
  | cons b bs ih =>
    simp only [Memory.ofBytes]
    cases k with
    | zero =>
      split
      · rename_i hb
        rw [Memory.byte_of_lt Memory.ofBytes_wf (by omega)]; simp [hb]
      · simp [Memory.byte]
    | succ k =>
      have hk' : k < bs.length := by simpa using hk
      have := ih (o := o + 1) hk'
      rw [show o + (k + 1) = o + 1 + k by omega]
      split
      · rw [this]; simp
      · simp only [Memory.byte]; rw [if_neg (by omega), this]; simp

end Sys2Proof.Machine
end

