-- ==== Sys2Proof/Laws/State.lean ====
section
/-! SUPPORT. One lemma per field per update of the state. -/

namespace Sys2Proof.Machine

variable (s : State)

section Answered
variable (v : Verdict)
@[simp] theorem answered_ram : (s.answered v).ram = s.ram := rfl
@[simp] theorem answered_rom : (s.answered v).rom = s.rom := rfl
@[simp] theorem answered_ovl : (s.answered v).ovl = s.ovl := rfl
@[simp] theorem answered_regs : (s.answered v).regs = s.regs := rfl
@[simp] theorem answered_romref : (s.answered v).romref = s.romref := rfl
@[simp] theorem answered_ticks : (s.answered v).ticks = s.ticks := rfl
@[simp] theorem answered_ext : (s.answered v).ext = s.ext := rfl
@[simp] theorem answered_surface : (s.answered v).surfaceReadOnly = s.surfaceReadOnly := rfl
@[simp] theorem answered_inputs : (s.answered v).inputs = s.inputs := rfl
@[simp] theorem answered_reply : (s.answered v).reply = .word (responseWord v) := rfl
@[simp] theorem answered_answered (v' : Verdict) : (s.answered v).answered v' = s.answered v' := rfl
end Answered

section SetDevice
variable (k : Nat) (d : Device)
@[simp] theorem setDevice_ram : (s.setDevice k d).ram = s.ram := rfl
@[simp] theorem setDevice_rom : (s.setDevice k d).rom = s.rom := rfl
@[simp] theorem setDevice_ovl : (s.setDevice k d).ovl = s.ovl := rfl
@[simp] theorem setDevice_regs : (s.setDevice k d).regs = s.regs := rfl
@[simp] theorem setDevice_romref : (s.setDevice k d).romref = s.romref := rfl
@[simp] theorem setDevice_ticks : (s.setDevice k d).ticks = s.ticks := rfl
@[simp] theorem setDevice_ext : (s.setDevice k d).ext = s.ext.set k d := rfl
@[simp] theorem setDevice_surface : (s.setDevice k d).surfaceReadOnly = s.surfaceReadOnly := rfl
@[simp] theorem setDevice_inputs : (s.setDevice k d).inputs = s.inputs := rfl
@[simp] theorem setDevice_reply : (s.setDevice k d).reply = s.reply := rfl
/-- Putting a device back as it was changes nothing. -/
theorem setDevice_self {k : Nat} {d : Device} (h : s.ext[k]? = some d) : s.setDevice k d = s := by
  obtain ⟨hk, rfl⟩ := List.getElem?_eq_some_iff.1 h
  simp [State.setDevice]
end SetDevice

section Seen
variable (d : Device) (x : Config.DeviceAccess)
@[simp] theorem seen_base : (d.seen x).base = d.base := rfl
@[simp] theorem seen_last : (d.seen x).last = d.last := rfl
@[simp] theorem seen_permission : (d.seen x).permission = d.permission := rfl
@[simp] theorem seen_hasBitRead : (d.seen x).hasBitRead = d.hasBitRead := rfl
@[simp] theorem seen_hasBitWrite : (d.seen x).hasBitWrite = d.hasBitWrite := rfl
@[simp] theorem seen_log : (d.seen x).log = d.log ++ [x] := rfl
end Seen

section Refused
variable (k : Nat) (d : Device) (after : Bool) (x : Config.DeviceAccess)
/-- A refused write adds to the device's record or leaves it (R97). -/
theorem refused_shape : ∃ xs, d.refused k after x = { d with log := d.log ++ xs } := by
  have hd : ∃ xs, d = { d with log := d.log ++ xs } := ⟨[], by simp⟩
  simp only [Device.refused]
  split
  · exact hd
  · exact hd
  · split
    · exact ⟨[x], rfl⟩
    · exact hd
/-- Only a device that decides per access can change by a write it refuses (R98). -/
theorem refused_fixed {d : Device} (h : d.permission ≠ .perAccess) : d.refused k after x = d := by
  cases hp : d.permission <;> simp_all [Device.refused]
@[simp] theorem refused_base : (d.refused k after x).base = d.base := by
  obtain ⟨xs, h⟩ := refused_shape k d after x; rw [h]
@[simp] theorem refused_last : (d.refused k after x).last = d.last := by
  obtain ⟨xs, h⟩ := refused_shape k d after x; rw [h]
@[simp] theorem refused_permission : (d.refused k after x).permission = d.permission := by
  obtain ⟨xs, h⟩ := refused_shape k d after x; rw [h]
@[simp] theorem refused_hasBitRead : (d.refused k after x).hasBitRead = d.hasBitRead := by
  obtain ⟨xs, h⟩ := refused_shape k d after x; rw [h]
@[simp] theorem refused_hasBitWrite : (d.refused k after x).hasBitWrite = d.hasBitWrite := by
  obtain ⟨xs, h⟩ := refused_shape k d after x; rw [h]
end Refused

section Launched
@[simp] theorem launched_ram : s.launched.ram = s.ram := rfl
@[simp] theorem launched_rom : s.launched.rom = s.rom := rfl
@[simp] theorem launched_ovl : s.launched.ovl = s.ovl := rfl
@[simp] theorem launched_regs : s.launched.regs = [.ram, .rom] := rfl
@[simp] theorem launched_romref : s.launched.romref = some .rom := rfl
@[simp] theorem launched_ticks : s.launched.ticks = s.ticks := rfl
@[simp] theorem launched_ext : s.launched.ext = s.ext := rfl
end Launched

end Sys2Proof.Machine
end

