-- ==== Sys2Proof/Laws/Ops.lean ====
section
/-! SUPPORT. What each shared operation can do, said once: big-endian composition, the bounds of a region-level operation,
the shims, a device, the view, resolution. -/

namespace Sys2Proof.Machine

/-! ### Composition (R41) -/

theorem setWidth_append_byte {n : Nat} (x : BitVec n) (y : Byte) :
    (x ++ y).setWidth 32 = (x.setWidth 32 <<< 8) ||| y.setWidth 32 := by
  apply BitVec.eq_of_getLsbD_eq
  intro i hi
  simp only [BitVec.getLsbD_setWidth, BitVec.getLsbD_append, BitVec.getLsbD_or, BitVec.getLsbD_shiftLeft]
  by_cases h : i < 8
  · simp [h, hi]
  · have : y.getLsbD i = false := BitVec.getLsbD_of_ge _ _ (by omega)
    simp [h, hi, this]; intros; omega

theorem composeBytes_one (b : Byte) : composeBytes [b] = b.setWidth 32 := by
  simp [composeBytes]

theorem composeBytes_two (b c : Byte) : composeBytes [b, c] = (b ++ c : BitVec 16).setWidth 32 := by
  rw [setWidth_append_byte]
  simp [composeBytes]

theorem composeBytes_four (b c d e : Byte) : composeBytes [b, c, d, e] = (b ++ c ++ d ++ e : BitVec 32) := by
  rw [← BitVec.setWidth_eq (b ++ c ++ d ++ e : BitVec 32), setWidth_append_byte, setWidth_append_byte,
    setWidth_append_byte]
  simp [composeBytes]

/-- `high << 8 | low` of two zero-extended bytes (R62). -/
theorem compose16_bytes (b c : Byte) :
    compose16 (b.setWidth 32) (c.setWidth 32) = (b ++ c : BitVec 16).setWidth 32 := by
  rw [setWidth_append_byte]; rfl

/-- `high16 << 16 | low16` of two zero-extended halves (R62). -/
theorem compose32_halves (b c d e : Byte) :
    compose32 ((b ++ c : BitVec 16).setWidth 32) ((d ++ e : BitVec 16).setWidth 32) =
      (b ++ c ++ d ++ e : BitVec 32) := by
  rw [← BitVec.setWidth_eq (b ++ c ++ d ++ e : BitVec 32), setWidth_append_byte (b ++ c ++ d) e,
    setWidth_append_byte (b ++ c) d, setWidth_append_byte d e]
  apply BitVec.eq_of_getLsbD_eq
  intro i hi
  simp only [compose32, BitVec.getLsbD_or, BitVec.getLsbD_shiftLeft, BitVec.getLsbD_setWidth]
  by_cases h : i < 8
  · simp [h, show i < 16 by omega]
  · by_cases h2 : i < 16
    · simp [h, hi, h2, show i - 8 < 8 by omega]
    · have hd : d.getLsbD (i - 8) = false := BitVec.getLsbD_of_ge _ _ (by omega)
      simp [h, hi, h2, hd, show i - 16 < 32 by omega, show i - 8 < 32 by omega,
        show i - 8 - 8 = i - 16 by omega, show ¬ i - 8 < 8 by omega]

@[simp] theorem length_splitBytes (w : Width) (d : Data) : (splitBytes w d).length = widthBytes w := by
  cases w <;> rfl

theorem widthBytes_pos (w : Width) : 0 < widthBytes w := by cases w <;> decide

theorem aligned_iff {w : Width} {a : Addr} : aligned w a = true ↔ a.toNat % widthBytes w = 0 := by
  simp [aligned]

@[simp] theorem aligned_w8 (a : Addr) : aligned .w8 a = true := by simp [aligned, widthBytes, Nat.mod_one]

/-! ### Answering -/

@[simp] theorem finish_done (v : Verdict) (s : State) : finish (.done v s) = .next (s.answered v) := rfl
@[simp] theorem finish_refused (r : Refusal) : finish (.refused r) = .refused r := rfl

theorem finish_next {x : Served} {t : State} (h : finish x = .next t) :
    ∃ v s, x = .done v s ∧ t = s.answered v := by
  cases x with
  | done v s => exact ⟨v, s, rfl, by simpa using h.symm⟩
  | refused r => simp at h

/-! ### Bounds (R90 to R92, R102) -/

@[simp] theorem bounds_ram (s : State) : s.bounds .ram = some (0x000000#24, 0x0FFFFF#24) := rfl
@[simp] theorem bounds_rom (s : State) : s.bounds .rom = some (0x400000#24, 0x41FFFF#24) := rfl

theorem bounds_ext {s : State} {k : Nat} {d : Device} (h : s.ext[k]? = some d) :
    s.bounds (.ext k) = some (d.base, d.last) := by simp [State.bounds, h]

theorem contains_iff {s : State} {r : Region} {a base last : Addr} (h : s.bounds r = some (base, last)) :
    s.contains r a = true ↔ base.toNat ≤ a.toNat ∧ a.toNat ≤ last.toNat := by
  simp [State.contains, h]

theorem within_done {s : State} {r : Region} {a base last : Addr} {n : Nat} {f : Nat → Served}
    (h : s.bounds r = some (base, last)) (hn : 0 < n) (h1 : base.toNat ≤ a.toNat)
    (h2 : a.toNat + n ≤ last.toNat + 1) : s.within r a n f = f (a.toNat - base.toNat) := by
  simp only [State.within, State.translate, h]
  rw [if_pos ⟨h1, by omega⟩]
  simp [h2]

theorem within_outOfBounds {s : State} {r : Region} {a base last : Addr} {n : Nat} {f : Nat → Served}
    (h : s.bounds r = some (base, last)) (h1 : ¬ (base.toNat ≤ a.toNat ∧ a.toNat + n ≤ last.toNat + 1)) :
    s.within r a n f = .refused .outOfBounds := by
  simp only [State.within, State.translate, h]
  by_cases hc : base.toNat ≤ a.toNat ∧ a.toNat ≤ last.toNat
  · rw [if_pos hc]
    simp only
    rw [if_neg (fun h' => h1 ⟨hc.1, h'⟩)]
  · rw [if_neg hc]

theorem within_noSuchRegion {s : State} {r : Region} {a : Addr} {n : Nat} {f : Nat → Served}
    (h : s.bounds r = none) : s.within r a n f = .refused .noSuchRegion := by
  simp [State.within, h]

/-- An operation at a region port that has an outcome lies in the region. -/
theorem within_cases {s s' : State} {r : Region} {a : Addr} {n : Nat} {f : Nat → Served} {v : Verdict}
    (hn : 0 < n) (h : s.within r a n f = .done v s') :
    ∃ base last, s.bounds r = some (base, last) ∧ base.toNat ≤ a.toNat ∧ a.toNat + n ≤ last.toNat + 1 ∧
      f (a.toNat - base.toNat) = .done v s' := by
  cases hb : s.bounds r with
  | none => simp [within_noSuchRegion hb] at h
  | some bl =>
    obtain ⟨base, last⟩ := bl
    by_cases hc : base.toNat ≤ a.toNat ∧ a.toNat + n ≤ last.toNat + 1
    · rw [within_done hb hn hc.1 hc.2] at h
      exact ⟨base, last, rfl, hc.1, hc.2, h⟩
    · simp [within_outOfBounds hb hc] at h

/-! ### The RAM and ROM shims -/

theorem withinRam {s : State} {a : Addr} {n : Nat} {f : Nat → Served} (hn : 0 < n) :
    s.within .ram a n f = if a.toNat + n ≤ 0x100000 then f a.toNat else .refused .outOfBounds := by
  split
  · rw [within_done (bounds_ram s) hn (by simp) (by simpa using ‹_›)]; simp
  · rename_i h
    exact within_outOfBounds (bounds_ram s) (by simpa using h)

theorem withinRom {s : State} {a : Addr} {n : Nat} {f : Nat → Served} (hn : 0 < n) :
    s.within .rom a n f =
      if 0x400000 ≤ a.toNat ∧ a.toNat + n ≤ 0x420000 then f (a.toNat - 0x400000) else .refused .outOfBounds := by
  split
  · rename_i h
    rw [within_done (bounds_rom s) hn (by simpa using h.1) (by simpa using h.2)]; simp
  · rename_i h
    exact within_outOfBounds (bounds_rom s) (by simpa using h)

theorem ramRead_eq (w : Width) (a : Addr) (s : State) :
    ramRead w a s = if a.toNat + widthBytes w ≤ 0x100000 then
      .done (.ok (composeBytes (s.ram.readBytes a.toNat (widthBytes w)))) s else .refused .outOfBounds :=
  withinRam (widthBytes_pos w)

theorem ramWrite_eq (w : Width) (a : Addr) (d : Data) (s : State) :
    ramWrite w a d s = if a.toNat + widthBytes w ≤ 0x100000 then
      .done (.ok 0#32) { s with ram := s.ram.writeBytes a.toNat (splitBytes w d) } else .refused .outOfBounds :=
  withinRam (widthBytes_pos w)

theorem ramReadBit_eq (a : Addr) (s : State) :
    ramReadBit a s = if a.toNat + 1 ≤ 0x100000 then
      .done (.ok (bitData (bitRead (s.ram.byte a.toNat)))) s else .refused .outOfBounds :=
  withinRam (by decide)

theorem ramWriteBit_eq (a : Addr) (b : Bool) (s : State) :
    ramWriteBit a b s = if a.toNat + 1 ≤ 0x100000 then
      .done (.ok 0#32) { s with ram := s.ram.write a.toNat (bitByte b) } else .refused .outOfBounds :=
  withinRam (by decide)

theorem romRead_eq (w : Width) (a : Addr) (s : State) :
    romRead w a s = if 0x400000 ≤ a.toNat ∧ a.toNat + widthBytes w ≤ 0x420000 then
      .done (.ok (composeBytes (s.rom.readBytes (a.toNat - 0x400000) (widthBytes w)))) s else .refused .outOfBounds :=
  withinRom (widthBytes_pos w)

theorem romWrite_eq (w : Width) (a : Addr) (d : Data) (s : State) :
    romWrite w a d s = if 0x400000 ≤ a.toNat ∧ a.toNat + widthBytes w ≤ 0x420000 then
      .done (.readOnly a d) s else .refused .outOfBounds :=
  withinRom (widthBytes_pos w)

theorem romReadBit_eq (a : Addr) (s : State) :
    romReadBit a s = if 0x400000 ≤ a.toNat ∧ a.toNat + 1 ≤ 0x420000 then
      .done (.ok (bitData (bitRead (s.rom.byte (a.toNat - 0x400000))))) s else .refused .outOfBounds :=
  withinRom (by decide)

theorem romWriteBit_eq (a : Addr) (b : Bool) (s : State) :
    romWriteBit a b s = if 0x400000 ≤ a.toNat ∧ a.toNat + 1 ≤ 0x420000 then
      .done (.readOnly a (bitData b)) s else .refused .outOfBounds :=
  withinRom (by decide)

/-! ### An external device -/

/-- Two lists of accesses follow each other. -/
theorem seen_seen (d : Device) (x y : Config.DeviceAccess) :
    (d.seen x).seen y = { d with log := d.log ++ [x, y] } := by simp [Device.seen]

theorem read8_eq (k : Nat) (d : Device) (a : Addr) :
    d.read8 k a = ((Config.deviceByte k d.log a).setWidth 32, { d with log := d.log ++ [.read a] }) := rfl

/-- R95: bytes at `a` and `a + 1`, in that order. -/
theorem read16_eq (k : Nat) (d : Device) (a : Addr) :
    d.read16 k a =
      ((Config.deviceByte k d.log a ++ Config.deviceByte k (d.log ++ [.read a]) (a + 1#24) : BitVec 16).setWidth 32,
        { d with log := d.log ++ [.read a, .read (a + 1#24)] }) := by
  simp only [Device.read16, read8_eq]
  rw [compose16_bytes]
  simp

/-- R96: bytes at `a` to `a + 3`, in that order. -/
theorem read32_eq (k : Nat) (d : Device) (a : Addr) :
    d.read32 k a =
      (Config.deviceByte k d.log a ++ Config.deviceByte k (d.log ++ [.read a]) (a + 1#24) ++
        Config.deviceByte k (d.log ++ [.read a, .read (a + 1#24)]) (a + 2#24) ++
        Config.deviceByte k (d.log ++ [.read a, .read (a + 1#24), .read (a + 2#24)]) (a + 3#24),
        { d with log := d.log ++ [.read a, .read (a + 1#24), .read (a + 2#24), .read (a + 3#24)] }) := by
  have h3 : a + 2#24 + 1#24 = a + 3#24 := by rw [BitVec.add_assoc]; rfl
  simp only [Device.read32, read16_eq]
  rw [compose32_halves, h3]
  simp

/-- A device's read only adds to its record (R94 to R96). -/
theorem read_shape (k : Nat) (d : Device) (w : Width) (a : Addr) :
    ∃ xs, (d.read k w a).2 = { d with log := d.log ++ xs } := by
  cases w with
  | w8 => exact ⟨_, rfl⟩
  | w16 => exact ⟨_, congrArg Prod.snd (read16_eq k d a)⟩
  | w32 => exact ⟨_, congrArg Prod.snd (read32_eq k d a)⟩

/-- A device's 8-bit write is accepted and recorded, or refused. -/
theorem write8_eq (k : Nat) (d : Device) (after : Bool) (a : Addr) (v : Byte) :
    d.write8 k after a v = if d.permits k (.write a v) then (.accepted, d.seen (.write a v))
      else (.readOnly, d.refused k after (.write a v)) := rfl

/-- A device's write only adds to its record (R97 to R99). -/
theorem write8_shape (k : Nat) (d : Device) (after : Bool) (a : Addr) (v : Byte) :
    ∃ xs, (d.write8 k after a v).2 = { d with log := d.log ++ xs } := by
  rw [write8_eq]
  split
  · exact ⟨[_], rfl⟩
  · exact refused_shape k d after _

theorem write16_shape (k : Nat) (d : Device) (after : Bool) (a : Addr) (v : Data) :
    ∃ xs, (d.write16 k after a v).2 = { d with log := d.log ++ xs } := by
  obtain ⟨xs, hx⟩ := write8_shape k d after a (v.extractLsb' 8 8)
  obtain ⟨ys, hy⟩ := write8_shape k (d.write8 k after a (v.extractLsb' 8 8)).2
    (after || (d.write8 k after a (v.extractLsb' 8 8)).1.refusedSome) (a + 1#24) (v.extractLsb' 0 8)
  refine ⟨xs ++ ys, ?_⟩
  simp only [Device.write16]
  rw [hy, hx]
  simp

theorem write_shape (k : Nat) (d : Device) (w : Width) (a : Addr) (v : Data) :
    ∃ xs, (d.write k w a v).2 = { d with log := d.log ++ xs } := by
  cases w with
  | w8 => exact write8_shape k d false a _
  | w16 => exact write16_shape k d false a v
  | w32 =>
    obtain ⟨xs, hx⟩ := write16_shape k d false a (upper16 v)
    obtain ⟨ys, hy⟩ := write16_shape k (d.write16 k false a (upper16 v)).2
      (false || (d.write16 k false a (upper16 v)).1.refusedSome) (a + 2#24) (lower16 v)
    refine ⟨xs ++ ys, ?_⟩
    simp only [Device.write, Device.write32]
    rw [hy, hx]
    simp

/-- A write answered `readOnly` was refused in each half, and in no other case is it answered so (R98, R99). -/
theorem both_readOnly {x y : DeviceAnswer} (h : x.both y = .readOnly) : x = .readOnly ∧ y = .readOnly := by
  cases x <;> cases y <;> first | exact ⟨rfl, rfl⟩ | cases h

/-- A refused write leaves a device that does not decide per access as it was (R98). -/
theorem write8_fixed {k : Nat} {d : Device} {after : Bool} {a : Addr} {v : Byte} (hp : d.permission ≠ .perAccess)
    (h : (d.write8 k after a v).1 = .readOnly) : (d.write8 k after a v).2 = d := by
  rw [write8_eq] at h ⊢
  split at h
  · cases h
  · rename_i hn
    rw [if_neg hn]
    exact refused_fixed k after _ hp

theorem write16_fixed {k : Nat} {d : Device} {after : Bool} {a : Addr} {v : Data} (hp : d.permission ≠ .perAccess)
    (h : (d.write16 k after a v).1 = .readOnly) : (d.write16 k after a v).2 = d := by
  simp only [Device.write16] at h ⊢
  obtain ⟨h1, h2⟩ := both_readOnly h
  rw [write8_fixed hp h1] at h2 ⊢
  exact write8_fixed hp h2

theorem write_fixed {k : Nat} {d : Device} {w : Width} {a : Addr} {v : Data} (hp : d.permission ≠ .perAccess)
    (h : (d.write k w a v).1 = .readOnly) : (d.write k w a v).2 = d := by
  cases w with
  | w8 => exact write8_fixed hp h
  | w16 => exact write16_fixed hp h
  | w32 =>
    simp only [Device.write, Device.write32] at h ⊢
    obtain ⟨h1, h2⟩ := both_readOnly h
    rw [write16_fixed hp h1] at h2 ⊢
    exact write16_fixed hp h2

theorem withDevice_done {s : State} {k : Nat} {d : Device} {a : Addr} {n : Nat} {f : Device → Served}
    (h : s.ext[k]? = some d) (hn : 0 < n) (h1 : d.base.toNat ≤ a.toNat) (h2 : a.toNat + n ≤ d.last.toNat + 1) :
    s.withDevice k a n f = f d := by
  rw [State.withDevice, within_done (bounds_ext h) hn h1 h2]
  simp [h]

/-- An operation of a device that has an outcome is the device's own, inside its bounds. -/
theorem withDevice_cases {s s' : State} {k : Nat} {a : Addr} {n : Nat} {f : Device → Served} {v : Verdict}
    (hn : 0 < n) (h : s.withDevice k a n f = .done v s') :
    ∃ d, s.ext[k]? = some d ∧ d.base.toNat ≤ a.toNat ∧ a.toNat + n ≤ d.last.toNat + 1 ∧ f d = .done v s' := by
  obtain ⟨base, last, hb, h1, h2, hf⟩ := within_cases hn h
  cases hd : s.ext[k]? with
  | none => simp [hd] at hf
  | some d =>
    rw [bounds_ext hd] at hb
    simp only [Option.some.injEq, Prod.mk.injEq] at hb
    obtain ⟨rfl, rfl⟩ := hb
    simp only [hd] at hf
    exact ⟨d, rfl, h1, h2, hf⟩

/-! ### The overlay view and resolution -/

@[simp] theorem size_rom (R : RomTyped) : R.size = 0x20000 := by cases R; rfl
@[simp] theorem base_rom (R : RomTyped) : R.base = 0x400000#24 := by cases R; rfl
@[simp] theorem region_rom (R : RomTyped) : R.region = .rom := by cases R; rfl

/-- The translated address of the view does not wrap (R61). -/
theorem view_address {a : Addr} {n : Nat} (hn : 0 < n) (h : a.toNat + n ≤ 0x20000) :
    (0x400000#24 + a).toNat = 0x400000 + a.toNat := by
  rw [BitVec.toNat_add]
  simp only [BitVec.toNat_ofNat]
  omega

/-- While the overlay is inactive, or another region or none is cached, the view serves nothing (R130). -/
theorem viewServes_inactive {R : RomTyped} {a : Addr} {n : Nat} {s : State} {f : Served}
    (h : ¬ (s.ovl = true ∧ s.romref = some R)) : viewServes R a n s f = .refused .viewInactive := if_neg h

theorem viewServes_active {R : RomTyped} {a : Addr} {n : Nat} {s : State} {f : Served}
    (h : s.ovl = true ∧ s.romref = some R) :
    viewServes R a n s f = if a.toNat + n ≤ 0x20000 then f else .refused .outsideView := by
  simp [viewServes, h]

/-- An operation of the view that has an outcome was served by an active view, inside its range. -/
theorem viewServes_cases {R : RomTyped} {a : Addr} {n : Nat} {s u : State} {f : Served} {v : Verdict}
    (h : viewServes R a n s f = .done v u) :
    (s.ovl = true ∧ s.romref = some R) ∧ a.toNat + n ≤ 0x20000 ∧ f = .done v u := by
  by_cases ha : s.ovl = true ∧ s.romref = some R
  · rw [viewServes_active ha] at h
    split at h
    · exact ⟨ha, ‹_›, h⟩
    · cases h
  · simp [viewServes_inactive ha] at h

/-- R131 to R133: the view reads ROM bytes at the bus address as offset. -/
theorem viewRead_eq {w : Width} {R : RomTyped} {a : Addr} {s : State} (hs : s.ovl = true ∧ s.romref = some R) :
    viewRead w R a s = if a.toNat + widthBytes w ≤ 0x20000 then
      .done (.ok (composeBytes (s.rom.readBytes a.toNat (widthBytes w)))) s else .refused .outsideView := by
  simp only [viewRead, viewServes_active hs, base_rom, region_rom]
  split
  · rename_i h
    have hv := view_address (widthBytes_pos w) h
    simp only [regionRead]
    rw [romRead_eq, if_pos (by omega), hv]
    simp
  · rfl

theorem viewWrite_eq {w : Width} {R : RomTyped} {a : Addr} {d : Data} {s : State}
    (hs : s.ovl = true ∧ s.romref = some R) :
    viewWrite w R a d s = if a.toNat + widthBytes w ≤ 0x20000 then .done (.readOnly a d) s
      else .refused .outsideView := viewServes_active hs

theorem viewReadBit_eq {R : RomTyped} {a : Addr} {s : State} (hs : s.ovl = true ∧ s.romref = some R) :
    viewReadBit R a s = if a.toNat + 1 ≤ 0x20000 then
      .done (.ok (bitData (bitRead (s.rom.byte a.toNat)))) s else .refused .outsideView := by
  cases R
  simp only [viewReadBit, viewServes_active hs, base_rom]
  split
  · rename_i h
    rw [romReadBit_eq, if_pos (by have := view_address (by decide : 0 < 1) h; omega), view_address (by decide) h]
    simp
  · rfl

theorem viewWriteBit_eq {R : RomTyped} {a : Addr} {b : Bool} {s : State}
    (hs : s.ovl = true ∧ s.romref = some R) :
    viewWriteBit R a b s = if a.toNat + 1 ≤ 0x20000 then .done (.readOnly a (bitData b)) s
      else .refused .outsideView := viewServes_active hs

/-- A region that the scan finds is registered and contains the address. -/
theorem scan_region {s : State} {a : Addr} {r : Region} (h : s.scan a = .region r) :
    r ∈ s.regs ∧ s.contains r a = true := by
  simp only [State.scan] at h
  split at h
  · rename_i q hq
    cases h
    exact ⟨List.mem_of_find?_eq_some hq, by simpa using List.find?_some hq⟩
  · cases h

theorem resolve_region {s : State} {a : Addr} {r : Region} (h : s.resolve a = .region r) :
    s.scan a = .region r := by
  simp only [State.resolve] at h
  split at h
  · exact h
  · split at h
    · cases h
    · exact h

theorem resolve_view {s : State} {a : Addr} {R : RomTyped} (h : s.resolve a = .view R) :
    s.romref = some R ∧ s.ovl = true ∧ a.toNat < 0x20000 := by
  have hs : ∀ R', s.scan a ≠ .view R' := by
    intro R' h'
    simp only [State.scan] at h'
    split at h' <;> cases h'
  simp only [State.resolve] at h
  split at h
  · exact absurd h (hs _)
  · split at h
    · rename_i hc
      cases h
      exact ⟨by assumption, hc.1, by simpa using hc.2⟩
    · exact absurd h (hs _)

end Sys2Proof.Machine
end

