-- ==== Sys2Proof/Laws/Access.lean ====
section
/-! SUPPORT. Accesses that resolve to a region lie inside it: the scan, the granularity of bounds (spec 00_scope.md R7), and a
device's reads and writes inside its bounds (40_region_contract.md R94 to R104). -/

namespace Sys2Proof.Machine

/-! ### Consecutive bytes of storage -/

theorem readBytes_one (m : Memory) (o : Nat) : m.readBytes o 1 = [m.byte o] := rfl
theorem readBytes_two (m : Memory) (o : Nat) : m.readBytes o 2 = [m.byte o, m.byte (o + 1)] := rfl
theorem readBytes_four (m : Memory) (o : Nat) :
    m.readBytes o 4 = [m.byte o, m.byte (o + 1), m.byte (o + 2), m.byte (o + 3)] := rfl

/-! ### Resolution -/

theorem scan_first {s : State} {a : Addr} {before after : List Region} {r : Region}
    (h : s.regs = before ++ r :: after) (hb : ∀ q ∈ before, s.contains q a = false) (hr : s.contains r a = true) :
    s.scan a = .region r := by
  have : s.regs.find? (fun r => s.contains r a) = some r := by
    rw [h, List.find?_append, List.find?_eq_none.2 (by intro q hq; simp [hb q hq])]
    simp [hr]
  simp only [State.scan, this]

theorem scan_none {s : State} {a : Addr} (h : ∀ q ∈ s.regs, s.contains q a = false) : s.scan a = .nothing := by
  have : s.regs.find? (fun r => s.contains r a) = none := List.find?_eq_none.2 (by intro q hq; simp [h q hq])
  simp only [State.scan, this]

theorem contains_of_resolve {s : State} {a : Addr} {r : Region} (h : s.resolve a = .region r) :
    s.contains r a = true := (scan_region (resolve_region h)).2

/-- In a good state every region's base and length are multiples of 4 (R7). -/
theorem bounds_granular {s : State} (hi : s.Inv) {r : Region} {base last : Addr} (h : s.bounds r = some (base, last)) :
    base.toNat % 4 = 0 ∧ (last.toNat + 1) % 4 = 0 := by
  cases r with
  | ram => cases h; decide
  | rom => cases h; decide
  | ext k =>
    cases hd : s.ext[k]? with
    | none => simp [State.bounds, hd] at h
    | some d =>
      rw [bounds_ext hd] at h
      cases h
      have := hi.devicesAdmissible d (List.mem_of_getElem? hd)
      simp only [Device.admissible, Config.granularity, Bool.and_eq_true] at this
      exact ⟨of_decide_eq_true this.1.2, of_decide_eq_true this.2⟩

/-- The address `k` bytes into an aligned cell does not wrap (R49, R61). -/
theorem toNat_add_small {a : Addr} {k : Nat} (h : a.toNat + k < 2 ^ 24) : (a + BitVec.ofNat 24 k).toNat = a.toNat + k := by
  rw [BitVec.toNat_add, BitVec.toNat_ofNat]
  omega

/-- An aligned access that resolves to a device lies inside the device (R49). -/
theorem device_of_resolve {s : State} {a : Addr} {k : Nat} (hi : s.Inv) (h : s.resolve a = .region (.ext k))
    (w : Width) (hw : a.toNat % widthBytes w = 0) :
    ∃ d, s.ext[k]? = some d ∧ d.base.toNat ≤ a.toNat ∧ a.toNat + widthBytes w ≤ d.last.toNat + 1 := by
  have hc := contains_of_resolve h
  cases hd : s.ext[k]? with
  | none => simp [State.contains, State.bounds, hd] at hc
  | some d =>
    have hb := bounds_ext hd
    have h4 := bounds_granular hi hb
    rw [contains_iff hb] at hc
    refine ⟨d, rfl, hc.1, ?_⟩
    cases w <;> simp only [widthBytes] at hw ⊢ <;> omega

/-! ### A device inside its bounds -/

theorem extRead_inside {s : State} {k : Nat} {d : Device} {a : Addr} (w : Width) (h : s.ext[k]? = some d)
    (h1 : d.base.toNat ≤ a.toNat) (h2 : a.toNat + widthBytes w ≤ d.last.toNat + 1) :
    extRead w k a s = .done (.ok (d.read k w a).1) (s.setDevice k (d.read k w a).2) := by
  rw [extRead, withDevice_done h (widthBytes_pos w) h1 h2]

theorem extWrite_inside {s : State} {k : Nat} {d : Device} {a : Addr} (w : Width) (x : Data) (h : s.ext[k]? = some d)
    (h1 : d.base.toNat ≤ a.toNat) (h2 : a.toNat + widthBytes w ≤ d.last.toNat + 1) :
    extWrite w k a x s = match (d.write k w a x).1 with
      | .accepted => .done (.ok 0#32) (s.setDevice k (d.write k w a x).2)
      | .readOnly => .done (.readOnly a x) (s.setDevice k (d.write k w a x).2)
      | .mixed => .refused .partialWrite := by
  refine (withDevice_done h (widthBytes_pos w) h1 h2).trans ?_
  cases (d.write k w a x).1 <;> rfl

theorem permitsAll_append (k : Nat) (d : Device) (xs ys : List Config.DeviceAccess) :
    d.permitsAll k (xs ++ ys) = (d.permitsAll k xs && Device.permitsAll k { d with log := d.log ++ xs } ys) := by
  induction xs generalizing d with
  | nil => simp [Device.permitsAll]
  | cons x xs ih => simp [Device.permitsAll, ih, Bool.and_assoc, Device.seen]

theorem permitsNone_append (k : Nat) (d : Device) (after : Bool) (xs ys : List Config.DeviceAccess) :
    d.permitsNone k after (xs ++ ys) =
      (d.permitsNone k after xs && Device.permitsNone k (d.refusedAll k after xs) (after || !xs.isEmpty) ys) := by
  induction xs generalizing d after with
  | nil => simp [Device.permitsNone, Device.refusedAll]
  | cons x xs ih => simp [Device.permitsNone, Device.refusedAll, ih, Bool.and_assoc]

theorem refusedAll_append (k : Nat) (d : Device) (after : Bool) (xs ys : List Config.DeviceAccess) :
    d.refusedAll k after (xs ++ ys) = Device.refusedAll k (d.refusedAll k after xs) (after || !xs.isEmpty) ys := by
  induction xs generalizing d after with
  | nil => simp [Device.refusedAll]
  | cons x xs ih => simp [Device.refusedAll, ih]

/-- What a two-byte write answers and leaves, by what the device permits (R98, U4). -/
theorem write16_answer (k : Nat) (d : Device) (after : Bool) (a : Addr) (x : Data) {xs : List Config.DeviceAccess}
    (hx : xs = [.write a (x.extractLsb' 8 8), .write (a + 1#24) (x.extractLsb' 0 8)]) :
    ((d.write16 k after a x).1 = .accepted ∧ d.permitsAll k xs = true ∧ d.permitsNone k after xs = false ∧
      (d.write16 k after a x).2 = { d with log := d.log ++ xs }) ∨
    ((d.write16 k after a x).1 = .readOnly ∧ d.permitsAll k xs = false ∧ d.permitsNone k after xs = true ∧
      (d.write16 k after a x).2 = d.refusedAll k after xs) ∨
    ((d.write16 k after a x).1 = .mixed ∧ d.permitsAll k xs = false ∧ d.permitsNone k after xs = false) := by
  subst hx
  simp only [Device.write16, write8_eq, Device.permitsAll, Device.permitsNone, Device.refusedAll]
  by_cases h1 : d.permits k (.write a (x.extractLsb' 8 8)) = true
  · simp only [h1, if_true]
    by_cases h2 : (d.seen (.write a (x.extractLsb' 8 8))).permits k (.write (a + 1#24) (x.extractLsb' 0 8)) = true
    · simp only [h2, if_true, DeviceAnswer.both, seen_seen]; simp
    · simp [h2, DeviceAnswer.both]
  · simp only [Bool.not_eq_true] at h1
    simp only [h1]
    by_cases h2 : (d.refused k after (.write a (x.extractLsb' 8 8))).permits k
        (.write (a + 1#24) (x.extractLsb' 0 8)) = true <;> simp [h2, DeviceAnswer.both, DeviceAnswer.refusedSome]

/-- The bytes of the two halves of a 32-bit value (R99). -/
theorem upper16_bytes (v : Data) :
    (upper16 v).extractLsb' 8 8 = v.extractLsb' 24 8 ∧ (upper16 v).extractLsb' 0 8 = v.extractLsb' 16 8 := by
  constructor <;> apply BitVec.eq_of_getLsbD_eq <;> intro n hn
  · simp [upper16, hn, show 8 + n < 16 by omega, show 8 + n < 32 by omega, show 16 + (8 + n) = 24 + n by omega]
  · simp [upper16, hn, show n < 16 by omega, show n < 32 by omega]

theorem lower16_bytes (v : Data) :
    (lower16 v).extractLsb' 8 8 = v.extractLsb' 8 8 ∧ (lower16 v).extractLsb' 0 8 = v.extractLsb' 0 8 := by
  constructor <;> apply BitVec.eq_of_getLsbD_eq <;> intro n hn
  · simp [lower16, hn, show 8 + n < 16 by omega, show 8 + n < 32 by omega]
  · simp [lower16, hn, show n < 16 by omega, show n < 32 by omega]

/-- What a four-byte write answers and leaves, by what the device permits (R99, U4). -/
theorem write32_answer (k : Nat) (d : Device) (after : Bool) (a : Addr) (x : Data) {xs : List Config.DeviceAccess}
    (hx : xs = [.write a (x.extractLsb' 24 8), .write (a + 1#24) (x.extractLsb' 16 8),
      .write (a + 2#24) (x.extractLsb' 8 8), .write (a + 3#24) (x.extractLsb' 0 8)]) :
    ((d.write32 k after a x).1 = .accepted ∧ d.permitsAll k xs = true ∧ d.permitsNone k after xs = false ∧
      (d.write32 k after a x).2 = { d with log := d.log ++ xs }) ∨
    ((d.write32 k after a x).1 = .readOnly ∧ d.permitsAll k xs = false ∧ d.permitsNone k after xs = true ∧
      (d.write32 k after a x).2 = d.refusedAll k after xs) ∨
    ((d.write32 k after a x).1 = .mixed ∧ d.permitsAll k xs = false ∧ d.permitsNone k after xs = false) := by
  have e3 : a + 2#24 + 1#24 = a + 3#24 := by rw [BitVec.add_assoc]; rfl
  obtain ⟨ys, hy⟩ : ∃ ys, ys = [Config.DeviceAccess.write a ((upper16 x).extractLsb' 8 8),
    .write (a + 1#24) ((upper16 x).extractLsb' 0 8)] := ⟨_, rfl⟩
  obtain ⟨zs, hz⟩ : ∃ zs, zs = [Config.DeviceAccess.write (a + 2#24) ((lower16 x).extractLsb' 8 8),
    .write (a + 2#24 + 1#24) ((lower16 x).extractLsb' 0 8)] := ⟨_, rfl⟩
  have hne : ys.isEmpty = false := by rw [hy]; rfl
  have hxs : xs = ys ++ zs := by
    rw [hx, hy, hz, (upper16_bytes x).1, (upper16_bytes x).2, (lower16_bytes x).1, (lower16_bytes x).2, e3]; rfl
  have low := fun d' after' => write16_answer k d' after' (a + 2#24) (lower16 x) hz
  rw [hxs, permitsAll_append, permitsNone_append, refusedAll_append, hne]
  simp only [Device.write32]
  rcases write16_answer k d after a (upper16 x) hy with ⟨a1, a2, a3, a4⟩ | ⟨a1, a2, a3, a4⟩ | ⟨a1, a2, a3⟩
  · rw [a1, a2, a3, a4]
    rcases low { d with log := d.log ++ ys } (after || DeviceAnswer.accepted.refusedSome) with
      ⟨b1, b2, -, b4⟩ | ⟨b1, b2, -, -⟩ | ⟨b1, b2, -⟩ <;> simp [b1, b2, DeviceAnswer.both]
    simpa using b4
  · rw [a1, a2, a3, a4]
    rcases low (d.refusedAll k after ys) (after || DeviceAnswer.readOnly.refusedSome) with
      ⟨b1, b2, b3, b4⟩ | ⟨b1, b2, b3, b4⟩ | ⟨b1, b2, b3⟩ <;>
      simp_all [DeviceAnswer.both, DeviceAnswer.refusedSome]
  · simp [a1, a2, a3, DeviceAnswer.both]

/-- A device that does not decide per access is as it was after writes it refuses (R98). -/
theorem refusedAll_fixed (k : Nat) (after : Bool) (xs : List Config.DeviceAccess) {d : Device}
    (h : d.permission ≠ .perAccess) : d.refusedAll k after xs = d := by
  induction xs generalizing after with
  | nil => rfl
  | cons x xs ih => rw [Device.refusedAll, refused_fixed k after x h]; exact ih true

end Sys2Proof.Machine
end

