-- ==== Sys2Proof/Laws/Exec.lean ====
section
/-! SUPPORT. Everything an operation can do, said once: whatever `exec` answers, its state is one of five (`Effect`), by the port
the operation is requested on. Every invariant of the machine is read off from that. -/

namespace Sys2Proof.Machine

/-! ### `exec`, operation by operation -/

section Equations
theorem exec_busRead8 (a : Addr) (s : State) :
    exec (.busRead8 a) s = finish (memRead .w8 a s) := rfl
theorem exec_busRead16 (a : Addr) (s : State) :
    exec (.busRead16 a) s = finish (memRead .w16 a s) := rfl
theorem exec_busRead32 (a : Addr) (s : State) :
    exec (.busRead32 a) s = finish (memRead .w32 a s) := rfl
theorem exec_busWrite8 (a : Addr) (v : BitVec 8) (s : State) :
    exec (.busWrite8 a v) s = finish (memWrite .w8 a (v.setWidth 32) s) := rfl
theorem exec_busWrite16 (a : Addr) (v : BitVec 16) (s : State) :
    exec (.busWrite16 a v) s = finish (memWrite .w16 a (v.setWidth 32) s) := rfl
theorem exec_busWrite32 (a : Addr) (v : BitVec 32) (s : State) :
    exec (.busWrite32 a v) s = finish (memWrite .w32 a v s) := rfl
theorem exec_ramRead8 (a : Addr) (s : State) :
    exec (.ramRead8 a) s = finish (ramRead .w8 a s) := rfl
theorem exec_ramRead16 (a : Addr) (s : State) :
    exec (.ramRead16 a) s = finish (ramRead .w16 a s) := rfl
theorem exec_ramRead32 (a : Addr) (s : State) :
    exec (.ramRead32 a) s = finish (ramRead .w32 a s) := rfl
theorem exec_ramReadBit (a : Addr) (s : State) :
    exec (.ramReadBit a) s = finish (ramReadBit a s) := rfl
theorem exec_ramWrite8 (a : Addr) (v : BitVec 8) (s : State) :
    exec (.ramWrite8 a v) s = finish (ramWrite .w8 a (v.setWidth 32) s) := rfl
theorem exec_ramWrite16 (a : Addr) (v : BitVec 16) (s : State) :
    exec (.ramWrite16 a v) s = finish (ramWrite .w16 a (v.setWidth 32) s) := rfl
theorem exec_ramWrite32 (a : Addr) (v : BitVec 32) (s : State) :
    exec (.ramWrite32 a v) s = finish (ramWrite .w32 a v s) := rfl
theorem exec_ramWriteBit (a : Addr) (b : Bool) (s : State) :
    exec (.ramWriteBit a b) s = finish (ramWriteBit a b s) := rfl
theorem exec_romRead8 (a : Addr) (s : State) :
    exec (.romRead8 a) s = finish (romRead .w8 a s) := rfl
theorem exec_romRead16 (a : Addr) (s : State) :
    exec (.romRead16 a) s = finish (romRead .w16 a s) := rfl
theorem exec_romRead32 (a : Addr) (s : State) :
    exec (.romRead32 a) s = finish (romRead .w32 a s) := rfl
theorem exec_romReadBit (a : Addr) (s : State) :
    exec (.romReadBit a) s = finish (romReadBit a s) := rfl
theorem exec_romWrite8 (a : Addr) (v : BitVec 8) (s : State) :
    exec (.romWrite8 a v) s = finish (romWrite .w8 a (v.setWidth 32) s) := rfl
theorem exec_romWrite16 (a : Addr) (v : BitVec 16) (s : State) :
    exec (.romWrite16 a v) s = finish (romWrite .w16 a (v.setWidth 32) s) := rfl
theorem exec_romWrite32 (a : Addr) (v : BitVec 32) (s : State) :
    exec (.romWrite32 a v) s = finish (romWrite .w32 a v s) := rfl
theorem exec_romWriteBit (a : Addr) (b : Bool) (s : State) :
    exec (.romWriteBit a b) s = finish (romWriteBit a b s) := rfl
theorem exec_viewRead8 (a : Addr) (s : State) :
    exec (.viewRead8 a) s = finish (viewRead .w8 .rom a s) := rfl
theorem exec_viewRead16 (a : Addr) (s : State) :
    exec (.viewRead16 a) s = finish (viewRead .w16 .rom a s) := rfl
theorem exec_viewRead32 (a : Addr) (s : State) :
    exec (.viewRead32 a) s = finish (viewRead .w32 .rom a s) := rfl
theorem exec_viewReadBit (a : Addr) (s : State) :
    exec (.viewReadBit a) s = finish (viewReadBit .rom a s) := rfl
theorem exec_viewWrite8 (a : Addr) (v : BitVec 8) (s : State) :
    exec (.viewWrite8 a v) s = finish (viewWrite .w8 .rom a (v.setWidth 32) s) := rfl
theorem exec_viewWrite16 (a : Addr) (v : BitVec 16) (s : State) :
    exec (.viewWrite16 a v) s = finish (viewWrite .w16 .rom a (v.setWidth 32) s) := rfl
theorem exec_viewWrite32 (a : Addr) (v : BitVec 32) (s : State) :
    exec (.viewWrite32 a v) s = finish (viewWrite .w32 .rom a v s) := rfl
theorem exec_viewWriteBit (a : Addr) (b : Bool) (s : State) :
    exec (.viewWriteBit a b) s = finish (viewWriteBit .rom a b s) := rfl
theorem exec_extRead8 (i : Nat) (a : Addr) (s : State) :
    exec (.extRead8 i a) s = finish (extRead .w8 i a s) := rfl
theorem exec_extRead16 (i : Nat) (a : Addr) (s : State) :
    exec (.extRead16 i a) s = finish (extRead .w16 i a s) := rfl
theorem exec_extRead32 (i : Nat) (a : Addr) (s : State) :
    exec (.extRead32 i a) s = finish (extRead .w32 i a s) := rfl
theorem exec_extReadBit (i : Nat) (a : Addr) (s : State) :
    exec (.extReadBit i a) s = finish (extReadBit i a s) := rfl
theorem exec_extWrite8 (i : Nat) (a : Addr) (v : BitVec 8) (s : State) :
    exec (.extWrite8 i a v) s = finish (extWrite .w8 i a (v.setWidth 32) s) := rfl
theorem exec_extWrite16 (i : Nat) (a : Addr) (v : BitVec 16) (s : State) :
    exec (.extWrite16 i a v) s = finish (extWrite .w16 i a (v.setWidth 32) s) := rfl
theorem exec_extWrite32 (i : Nat) (a : Addr) (v : BitVec 32) (s : State) :
    exec (.extWrite32 i a v) s = finish (extWrite .w32 i a v s) := rfl
theorem exec_extWriteBit (i : Nat) (a : Addr) (b : Bool) (s : State) :
    exec (.extWriteBit i a b) s = finish (extWriteBit i a b s) := rfl
theorem exec_isOverlayActive (s : State) :
    exec .isOverlayActive s = finish (overlayStatus s) := rfl
theorem exec_setOverlayActive (b : Bool) (s : State) :
    exec (.setOverlayActive b) s = finish (setOverlay b s) := rfl
theorem exec_register (r : Region) (s : State) :
    exec (.register r) s = finish (registerRegion r s) := rfl
end Equations

/-- What an operation requested on port `p` can leave, with its outcome, before the outcome is put into the reply. -/
inductive Effect (p : Port) (s : State) : Verdict → State → Prop where
  /-- nothing changes -/
  | answer (v : Verdict) : Effect p s v s
  /-- bytes of RAM are written -/
  | ram {o : Nat} {bs : List Byte} (hp : p = .bus ∨ p = .reg .ram) (h : o + bs.length ≤ 0x100000) :
      Effect p s (.ok 0#32) { s with ram := s.ram.writeBytes o bs }
  /-- a device has served accesses; one that decides per access may also have changed by writes it refused -/
  | device {k : Nat} {d : Device} {xs : List Config.DeviceAccess} {v : Verdict} (hp : p = .bus ∨ p = .reg (.ext k))
      (h : s.ext[k]? = some d)
      (hv : (∃ x, v = .ok x) ∨ d.permission = .perAccess ∧ ∃ a x, v = .readOnly a x) :
      Effect p s v (s.setDevice k { d with log := d.log ++ xs })
  /-- the overlay flag is set -/
  | overlay {b : Bool} (hp : p = .ovl) : Effect p s (.ok 0#32) { s with ovl := b }
  /-- an existing region is registered -/
  | registered {r : Region} (hp : p = .cfg) (h : s.bounds r ≠ none) :
      Effect p s (.ok 0#32) { s with regs := s.regs ++ [r], romref := cachedRom r s.romref }

variable {p : Port} {s u : State} {v : Verdict}

theorem effect_ramRead {w : Width} {a : Addr} (h : ramRead w a s = .done v u) : Effect p s v u := by
  rw [ramRead_eq] at h
  split at h <;> cases h
  exact .answer _

theorem effect_romRead {w : Width} {a : Addr} (h : romRead w a s = .done v u) : Effect p s v u := by
  rw [romRead_eq] at h
  split at h <;> cases h
  exact .answer _

theorem effect_extRead {w : Width} {k : Nat} {a : Addr} (hp : p = .bus ∨ p = .reg (.ext k))
    (h : extRead w k a s = .done v u) : Effect p s v u := by
  obtain ⟨d, hd, -, -, hf⟩ := withDevice_cases (widthBytes_pos w) h
  obtain ⟨xs, hx⟩ := read_shape k d w a
  cases hf
  rw [hx]
  exact .device hp hd (.inl ⟨_, rfl⟩)

theorem effect_regionRead {w : Width} {r : Region} {a : Addr} (h : regionRead w r a s = .done v u) :
    Effect .bus s v u := by
  cases r with
  | ram => exact effect_ramRead h
  | rom => exact effect_romRead h
  | ext k => exact effect_extRead (.inl rfl) h

theorem effect_ramWrite {w : Width} {a : Addr} {d : Data} (hp : p = .bus ∨ p = .reg .ram)
    (h : ramWrite w a d s = .done v u) : Effect p s v u := by
  rw [ramWrite_eq] at h
  split at h <;> cases h
  exact .ram hp (by simpa using ‹_›)

theorem effect_romWrite {w : Width} {a : Addr} {d : Data} (h : romWrite w a d s = .done v u) : Effect p s v u := by
  rw [romWrite_eq] at h
  split at h <;> cases h
  exact .answer _

theorem effect_extWrite {w : Width} {k : Nat} {a : Addr} {x : Data} (hp : p = .bus ∨ p = .reg (.ext k))
    (h : extWrite w k a x s = .done v u) : Effect p s v u := by
  obtain ⟨d, hd, -, -, hf⟩ := withDevice_cases (widthBytes_pos w) h
  obtain ⟨xs, hx⟩ := write_shape k d w a x
  split at hf <;> cases hf
  · rw [hx]; exact .device hp hd (.inl ⟨_, rfl⟩)
  · by_cases hn : d.permission = .perAccess
    · rw [hx]; exact .device hp hd (.inr ⟨hn, _, _, rfl⟩)
    · rw [write_fixed hn ‹_›, setDevice_self s hd]; exact .answer _

theorem effect_regionWrite {w : Width} {r : Region} {a : Addr} {d : Data} (h : regionWrite w r a d s = .done v u) :
    Effect .bus s v u := by
  cases r with
  | ram => exact effect_ramWrite (.inl rfl) h
  | rom => exact effect_romWrite h
  | ext k => exact effect_extWrite (.inl rfl) h

theorem effect_viewRead {w : Width} {R : RomTyped} {a : Addr} (h : viewRead w R a s = .done v u) : Effect p s v u := by
  obtain ⟨hs, hr, -⟩ := viewServes_cases h
  rw [viewRead_eq hs, if_pos hr] at h
  cases h
  exact .answer _

theorem effect_viewWrite {w : Width} {R : RomTyped} {a : Addr} {d : Data} (h : viewWrite w R a d s = .done v u) :
    Effect p s v u := by
  obtain ⟨-, -, hf⟩ := viewServes_cases h
  cases hf
  exact .answer _

/-- The boundary changes the outcome of a refused write and never the state (R148). -/
theorem atBoundary_done {surface : Bool} {x : Served} (h : atBoundary surface x = .done v u) :
    x = .done v u ∨ ∃ a d, x = .done (.readOnly a d) u ∧ v = (if surface then .readOnly a d else .ok 0#32) := by
  cases x with
  | refused r => simp [atBoundary] at h
  | done v' u' =>
    cases v' <;> simp only [atBoundary, Served.done.injEq] at h <;> obtain ⟨rfl, rfl⟩ := h
    · exact .inl rfl
    · exact .inl rfl
    · exact .inl rfl
    · exact .inr ⟨_, _, rfl, rfl⟩

/-- Discarding or surfacing a ReadOnly keeps the effect of a write (R148). -/
theorem effect_atBoundary {surface : Bool} {x : Served} (hx : ∀ v u, x = .done v u → Effect .bus s v u)
    (h : atBoundary surface x = .done v u) : Effect .bus s v u := by
  rcases atBoundary_done h with hd | ⟨a, d, hd, hv⟩
  · exact hx v u hd
  · have he := hx _ _ hd
    cases surface <;> rw [hv]
    · cases he with
      | answer => exact .answer _
      | device hp hk _ => exact .device hp hk (.inl ⟨_, rfl⟩)
    · exact he

theorem effect_memRead {w : Width} {a : Addr} (h : memRead w a s = .done v u) : Effect .bus s v u := by
  simp only [memRead] at h
  split at h
  · split at h
    · exact effect_viewRead h
    · exact effect_regionRead h
    · cases h; exact .answer _
  · cases h; exact .answer _

theorem effect_memWrite {w : Width} {a : Addr} {d : Data} (h : memWrite w a d s = .done v u) : Effect .bus s v u := by
  simp only [memWrite] at h
  split at h
  · split at h
    · exact effect_atBoundary (fun _ _ => effect_viewWrite) h
    · exact effect_atBoundary (fun _ _ => effect_regionWrite) h
    · cases h; exact .answer _
  · cases h; exact .answer _

theorem effect_ramReadBit {a : Addr} (h : ramReadBit a s = .done v u) : Effect p s v u := by
  rw [ramReadBit_eq] at h
  split at h <;> cases h
  exact .answer _

theorem effect_ramWriteBit {a : Addr} {b : Bool} (hp : p = .reg .ram) (h : ramWriteBit a b s = .done v u) :
    Effect p s v u := by
  rw [ramWriteBit_eq] at h
  split at h <;> cases h
  exact .ram (bs := [bitByte b]) (.inr hp) (by simpa using ‹_›)

theorem effect_romReadBit {a : Addr} (h : romReadBit a s = .done v u) : Effect p s v u := by
  rw [romReadBit_eq] at h
  split at h <;> cases h
  exact .answer _

theorem effect_romWriteBit {a : Addr} {b : Bool} (h : romWriteBit a b s = .done v u) : Effect p s v u := by
  rw [romWriteBit_eq] at h
  split at h <;> cases h
  exact .answer _

theorem effect_viewReadBit {R : RomTyped} {a : Addr} (h : viewReadBit R a s = .done v u) : Effect p s v u := by
  obtain ⟨hs, hr, -⟩ := viewServes_cases h
  rw [viewReadBit_eq hs, if_pos hr] at h
  cases h
  exact .answer _

theorem effect_viewWriteBit {R : RomTyped} {a : Addr} {b : Bool} (h : viewWriteBit R a b s = .done v u) :
    Effect p s v u := by
  obtain ⟨-, -, hf⟩ := viewServes_cases h
  cases hf
  exact .answer _

theorem effect_extReadBit {k : Nat} {a : Addr} (hp : p = .bus ∨ p = .reg (.ext k)) (h : extReadBit k a s = .done v u) :
    Effect p s v u := by
  obtain ⟨d, hd, -, -, hf⟩ := withDevice_cases (by decide) h
  split at hf <;> cases hf
  exact .device hp hd (.inl ⟨_, rfl⟩)

theorem effect_extWriteBit {k : Nat} {a : Addr} {b : Bool} (hp : p = .bus ∨ p = .reg (.ext k))
    (h : extWriteBit k a b s = .done v u) : Effect p s v u := by
  obtain ⟨d, hd, -, -, hf⟩ := withDevice_cases (by decide) h
  split at hf
  · split at hf <;> cases hf
    · exact .device hp hd (.inl ⟨_, rfl⟩)
    · obtain ⟨xs, hx⟩ := refused_shape k d false (.writeBit a b)
      by_cases hn : d.permission = .perAccess
      · rw [hx]; exact .device hp hd (.inr ⟨hn, _, _, rfl⟩)
      · rw [refused_fixed k false _ hn, setDevice_self s hd]; exact .answer _
  · cases hf

theorem effect_registerRegion {r : Region} (hp : p = .cfg) (h : registerRegion r s = .done v u) : Effect p s v u := by
  simp only [registerRegion] at h
  split at h
  · cases h
  · cases h
    exact .registered hp (by simp_all)

theorem effect_of_finish {x : Served} {t : State} (h : finish x = .next t)
    (hx : ∀ v u, x = .done v u → Effect p s v u) : ∃ v u, Effect p s v u ∧ t = u.answered v := by
  obtain ⟨v, u, hd, rfl⟩ := finish_next h
  exact ⟨v, u, hx v u hd, rfl⟩

/-- Whatever an operation answers, it has one of the five effects its port allows, with its outcome in the reply. -/
theorem exec_effect {i : Instr} {t : State} (h : exec i s = .next t) :
    ∃ v u, Effect (encodePort i) s v u ∧ t = u.answered v := by
  cases i
  case busRead8 => exact effect_of_finish h fun _ _ => effect_memRead
  case busRead16 => exact effect_of_finish h fun _ _ => effect_memRead
  case busRead32 => exact effect_of_finish h fun _ _ => effect_memRead
  case busWrite8 => exact effect_of_finish h fun _ _ => effect_memWrite
  case busWrite16 => exact effect_of_finish h fun _ _ => effect_memWrite
  case busWrite32 => exact effect_of_finish h fun _ _ => effect_memWrite
  case ramRead8 => exact effect_of_finish h fun _ _ => effect_ramRead
  case ramRead16 => exact effect_of_finish h fun _ _ => effect_ramRead
  case ramRead32 => exact effect_of_finish h fun _ _ => effect_ramRead
  case ramReadBit => exact effect_of_finish h fun _ _ => effect_ramReadBit
  case ramWrite8 => exact effect_of_finish h fun _ _ => effect_ramWrite (.inr rfl)
  case ramWrite16 => exact effect_of_finish h fun _ _ => effect_ramWrite (.inr rfl)
  case ramWrite32 => exact effect_of_finish h fun _ _ => effect_ramWrite (.inr rfl)
  case ramWriteBit => exact effect_of_finish h fun _ _ => effect_ramWriteBit rfl
  case romRead8 => exact effect_of_finish h fun _ _ => effect_romRead
  case romRead16 => exact effect_of_finish h fun _ _ => effect_romRead
  case romRead32 => exact effect_of_finish h fun _ _ => effect_romRead
  case romReadBit => exact effect_of_finish h fun _ _ => effect_romReadBit
  case romWrite8 => exact effect_of_finish h fun _ _ => effect_romWrite
  case romWrite16 => exact effect_of_finish h fun _ _ => effect_romWrite
  case romWrite32 => exact effect_of_finish h fun _ _ => effect_romWrite
  case romWriteBit => exact effect_of_finish h fun _ _ => effect_romWriteBit
  case viewRead8 => exact effect_of_finish h fun _ _ => effect_viewRead
  case viewRead16 => exact effect_of_finish h fun _ _ => effect_viewRead
  case viewRead32 => exact effect_of_finish h fun _ _ => effect_viewRead
  case viewReadBit => exact effect_of_finish h fun _ _ => effect_viewReadBit
  case viewWrite8 => exact effect_of_finish h fun _ _ => effect_viewWrite
  case viewWrite16 => exact effect_of_finish h fun _ _ => effect_viewWrite
  case viewWrite32 => exact effect_of_finish h fun _ _ => effect_viewWrite
  case viewWriteBit => exact effect_of_finish h fun _ _ => effect_viewWriteBit
  case extRead8 => exact effect_of_finish h fun _ _ => effect_extRead (.inr rfl)
  case extRead16 => exact effect_of_finish h fun _ _ => effect_extRead (.inr rfl)
  case extRead32 => exact effect_of_finish h fun _ _ => effect_extRead (.inr rfl)
  case extReadBit => exact effect_of_finish h fun _ _ => effect_extReadBit (.inr rfl)
  case extWrite8 => exact effect_of_finish h fun _ _ => effect_extWrite (.inr rfl)
  case extWrite16 => exact effect_of_finish h fun _ _ => effect_extWrite (.inr rfl)
  case extWrite32 => exact effect_of_finish h fun _ _ => effect_extWrite (.inr rfl)
  case extWriteBit => exact effect_of_finish h fun _ _ => effect_extWriteBit (.inr rfl)
  case isOverlayActive =>
    exact effect_of_finish (x := overlayStatus s) h fun _ _ hx => by cases hx; exact .answer _
  case setOverlayActive b =>
    exact effect_of_finish (x := setOverlay b s) h fun _ _ hx => by cases hx; exact .overlay rfl
  case register r => exact effect_of_finish (x := registerRegion r s) h fun _ _ => effect_registerRegion rfl

/-- What a step can be: an operation decoded from the next request, or a call of the Cycle Counter. -/
theorem step_cases {t : State} (h : step s = .next t) :
    ∃ x rest, s.inputs = x :: rest ∧
      ((∃ p w i, x = .request p w ∧ decode p w = .ok i ∧ exec i { s with inputs := rest } = .next t) ∨
       (∃ c, x = .counter c ∧ serveCounter c { s with inputs := rest } = .next t)) := by
  simp only [step, fetch] at h
  cases hi : s.inputs with
  | nil => simp [hi] at h
  | cons x rest =>
    simp only [hi] at h
    refine ⟨x, rest, rfl, ?_⟩
    cases x with
    | request p w =>
      simp only [serve] at h
      split at h
      · exact .inl ⟨p, w, _, rfl, by assumption, h⟩
      · cases h
    | counter c => exact .inr ⟨c, rfl, h⟩

/-- What a call of the Cycle Counter leaves (R186 to R189). -/
theorem serveCounter_next {c : CounterOp} {t : State} (h : serveCounter c s = .next t) :
    ∃ n r, t = { s with ticks := s.ticks + n, reply := r } := by
  cases c with
  | advance delta => cases h; exact ⟨delta, _, rfl⟩
  | now => cases h; exact ⟨0, _, rfl⟩
  | ticksForPeriod hz =>
    simp only [serveCounter, counterPeriod] at h
    split at h <;> cases h
    exact ⟨0, _, rfl⟩

end Sys2Proof.Machine
end

