-- ==== Sys2Proof/Laws/PerInstr.lean ====
section
/-! SUPPORT. One lemma per operation: its canonical word has the match and mask its row of spec/opcode_table.json gives. -/

namespace Sys2Proof.Laws.TableRow

/-- The `match` of an operation's row of the opcode table, under the mask 0xFF00000000000000 all rows have. -/
def rowMatch : Instr → Word64
  | .busRead8 _ => 0x0000000000000000#64
  | .busRead16 _ => 0x1000000000000000#64
  | .busRead32 _ => 0x2000000000000000#64
  | .busWrite8 _ _ => 0x4000000000000000#64
  | .busWrite16 _ _ => 0x5000000000000000#64
  | .busWrite32 _ _ => 0x6000000000000000#64
  | .ramRead8 _ => 0x0000000000000000#64
  | .ramRead16 _ => 0x1000000000000000#64
  | .ramRead32 _ => 0x2000000000000000#64
  | .ramReadBit _ => 0x3000000000000000#64
  | .ramWrite8 _ _ => 0x4000000000000000#64
  | .ramWrite16 _ _ => 0x5000000000000000#64
  | .ramWrite32 _ _ => 0x6000000000000000#64
  | .ramWriteBit _ _ => 0x7000000000000000#64
  | .romRead8 _ => 0x0000000000000000#64
  | .romRead16 _ => 0x1000000000000000#64
  | .romRead32 _ => 0x2000000000000000#64
  | .romReadBit _ => 0x3000000000000000#64
  | .romWrite8 _ _ => 0x4000000000000000#64
  | .romWrite16 _ _ => 0x5000000000000000#64
  | .romWrite32 _ _ => 0x6000000000000000#64
  | .romWriteBit _ _ => 0x7000000000000000#64
  | .viewRead8 _ => 0x0000000000000000#64
  | .viewRead16 _ => 0x1000000000000000#64
  | .viewRead32 _ => 0x2000000000000000#64
  | .viewReadBit _ => 0x3000000000000000#64
  | .viewWrite8 _ _ => 0x4000000000000000#64
  | .viewWrite16 _ _ => 0x5000000000000000#64
  | .viewWrite32 _ _ => 0x6000000000000000#64
  | .viewWriteBit _ _ => 0x7000000000000000#64
  | .extRead8 _ _ => 0x0000000000000000#64
  | .extRead16 _ _ => 0x1000000000000000#64
  | .extRead32 _ _ => 0x2000000000000000#64
  | .extReadBit _ _ => 0x3000000000000000#64
  | .extWrite8 _ _ _ => 0x4000000000000000#64
  | .extWrite16 _ _ _ => 0x5000000000000000#64
  | .extWrite32 _ _ _ => 0x6000000000000000#64
  | .extWriteBit _ _ _ => 0x7000000000000000#64
  | .isOverlayActive => 0x8000000000000000#64
  | .setOverlayActive _ => 0x9000000000000000#64
  | .register _ => 0xA000000000000000#64

def Statement (i : Instr) : Prop := encodeWord i &&& 0xFF00000000000000#64 = rowMatch i

theorem requestWord_row (op : BitVec 4) (a : Addr) (d : Data) :
    requestWord op a d &&& 0xFF00000000000000#64 = requestWord op 0#24 0#32 := by
  have h := requestWord_and op 0xF#4 a 0#24 d 0#32
  simp only [BitVec.and_zero, show op &&& 0xF#4 = op from BitVec.and_allOnes] at h
  exact h

theorem busRead8 (a : Addr) : Statement (.busRead8 a) := requestWord_row _ _ _
theorem busRead16 (a : Addr) : Statement (.busRead16 a) := requestWord_row _ _ _
theorem busRead32 (a : Addr) : Statement (.busRead32 a) := requestWord_row _ _ _
theorem busWrite8 (a : Addr) (v : BitVec 8) : Statement (.busWrite8 a v) := requestWord_row _ _ _
theorem busWrite16 (a : Addr) (v : BitVec 16) : Statement (.busWrite16 a v) := requestWord_row _ _ _
theorem busWrite32 (a : Addr) (v : BitVec 32) : Statement (.busWrite32 a v) := requestWord_row _ _ _
theorem ramRead8 (a : Addr) : Statement (.ramRead8 a) := requestWord_row _ _ _
theorem ramRead16 (a : Addr) : Statement (.ramRead16 a) := requestWord_row _ _ _
theorem ramRead32 (a : Addr) : Statement (.ramRead32 a) := requestWord_row _ _ _
theorem ramReadBit (a : Addr) : Statement (.ramReadBit a) := requestWord_row _ _ _
theorem ramWrite8 (a : Addr) (v : BitVec 8) : Statement (.ramWrite8 a v) := requestWord_row _ _ _
theorem ramWrite16 (a : Addr) (v : BitVec 16) : Statement (.ramWrite16 a v) := requestWord_row _ _ _
theorem ramWrite32 (a : Addr) (v : BitVec 32) : Statement (.ramWrite32 a v) := requestWord_row _ _ _
theorem ramWriteBit (a : Addr) (b : Bool) : Statement (.ramWriteBit a b) := requestWord_row _ _ _
theorem romRead8 (a : Addr) : Statement (.romRead8 a) := requestWord_row _ _ _
theorem romRead16 (a : Addr) : Statement (.romRead16 a) := requestWord_row _ _ _
theorem romRead32 (a : Addr) : Statement (.romRead32 a) := requestWord_row _ _ _
theorem romReadBit (a : Addr) : Statement (.romReadBit a) := requestWord_row _ _ _
theorem romWrite8 (a : Addr) (v : BitVec 8) : Statement (.romWrite8 a v) := requestWord_row _ _ _
theorem romWrite16 (a : Addr) (v : BitVec 16) : Statement (.romWrite16 a v) := requestWord_row _ _ _
theorem romWrite32 (a : Addr) (v : BitVec 32) : Statement (.romWrite32 a v) := requestWord_row _ _ _
theorem romWriteBit (a : Addr) (b : Bool) : Statement (.romWriteBit a b) := requestWord_row _ _ _
theorem viewRead8 (a : Addr) : Statement (.viewRead8 a) := requestWord_row _ _ _
theorem viewRead16 (a : Addr) : Statement (.viewRead16 a) := requestWord_row _ _ _
theorem viewRead32 (a : Addr) : Statement (.viewRead32 a) := requestWord_row _ _ _
theorem viewReadBit (a : Addr) : Statement (.viewReadBit a) := requestWord_row _ _ _
theorem viewWrite8 (a : Addr) (v : BitVec 8) : Statement (.viewWrite8 a v) := requestWord_row _ _ _
theorem viewWrite16 (a : Addr) (v : BitVec 16) : Statement (.viewWrite16 a v) := requestWord_row _ _ _
theorem viewWrite32 (a : Addr) (v : BitVec 32) : Statement (.viewWrite32 a v) := requestWord_row _ _ _
theorem viewWriteBit (a : Addr) (b : Bool) : Statement (.viewWriteBit a b) := requestWord_row _ _ _
theorem extRead8 (i : Nat) (a : Addr) : Statement (.extRead8 i a) := requestWord_row _ _ _
theorem extRead16 (i : Nat) (a : Addr) : Statement (.extRead16 i a) := requestWord_row _ _ _
theorem extRead32 (i : Nat) (a : Addr) : Statement (.extRead32 i a) := requestWord_row _ _ _
theorem extReadBit (i : Nat) (a : Addr) : Statement (.extReadBit i a) := requestWord_row _ _ _
theorem extWrite8 (i : Nat) (a : Addr) (v : BitVec 8) : Statement (.extWrite8 i a v) := requestWord_row _ _ _
theorem extWrite16 (i : Nat) (a : Addr) (v : BitVec 16) : Statement (.extWrite16 i a v) := requestWord_row _ _ _
theorem extWrite32 (i : Nat) (a : Addr) (v : BitVec 32) : Statement (.extWrite32 i a v) := requestWord_row _ _ _
theorem extWriteBit (i : Nat) (a : Addr) (b : Bool) : Statement (.extWriteBit i a b) := requestWord_row _ _ _
theorem isOverlayActive : Statement .isOverlayActive := requestWord_row _ _ _
theorem setOverlayActive (b : Bool) : Statement (.setOverlayActive b) := requestWord_row _ _ _
theorem register (r : Region) : Statement (.register r) := requestWord_row _ _ _

end Sys2Proof.Laws.TableRow
end

