-- ==== Sys2Proof/Laws/Reset.lean ====
section
/-! SUPPORT. The loader and the cold reset (spec 70_reset_and_hazards.md R200, R203). -/

namespace Sys2Proof.Machine

theorem loadImage_full {image : List Byte} (h : image.length = 131072) :
    loadImage image = some (Memory.ofBytes 0 image) := if_pos h

theorem loadImage_other {image : List Byte} (h : image.length ≠ 131072) : loadImage image = none := if_neg h

theorem coldReset_ok {image : List Byte} {cells : List Host.Cell} {devices : List Device} {policy : Bool} {s : State}
    (h : coldReset image cells devices policy = .ok s) :
    image.length = 131072 ∧ s = State.atReset (Memory.ofBytes 0 image) (Memory.ofCells Config.ramSize cells)
      (devices.map Device.fresh) policy := by
  by_cases hl : image.length = 131072
  · simp only [coldReset, loadImage_full hl] at h
    cases h
    exact ⟨hl, rfl⟩
  · simp [coldReset, loadImage_other hl] at h

theorem fresh_admissible {d : Device} (h : d.admissible = true) : d.fresh.admissible = true := h

end Sys2Proof.Machine
end

