-- ==== Sys2Proof/Laws/Unread.lean ====
section
/-! SUPPORT. What no operation of the block reads: the reply, the count and the inputs still to come. An operation carries the
last two along unchanged (spec 10_state.md R30, 60_exceptions.md R189, 00_scope.md R13). -/

namespace Sys2Proof.Machine

/-- A state with the three fields no operation reads replaced. -/
def State.withUnread (r : Reply) (n : Nat) (xs : List Input) (s : State) : State :=
  { s with reply := r, ticks := n, inputs := xs }

/-- The same change made to what an operation leaves. -/
def Served.onState (f : State → State) : Served → Served
  | .done v s => .done v (f s)
  | .refused r => .refused r

def onNext (f : State → State) : Host.Outcome State Fault Refusal → Host.Outcome State Fault Refusal
  | .next s => .next (f s)
  | .fault f => .fault f
  | .refused r => .refused r

section
variable (r : Reply) (n : Nat) (xs : List Input) (s : State)

theorem bounds_unread (q : Region) : (s.withUnread r n xs).bounds q = s.bounds q := by cases q <;> rfl

theorem translate_unread (q : Region) (a : Addr) : (s.withUnread r n xs).translate q a = s.translate q a := by
  simp only [State.translate, bounds_unread]

theorem resolve_unread (a : Addr) : (s.withUnread r n xs).resolve a = s.resolve a := by
  have hc : ∀ q, (s.withUnread r n xs).contains q a = s.contains q a := fun q => by cases q <;> rfl
  have hs : (s.withUnread r n xs).scan a = s.scan a := by simp only [State.scan, hc]; rfl
  simp only [State.resolve, hs]; rfl

/-- A region-level operation commutes with the change when what it does inside the bounds does. -/
theorem within_unread (q : Region) (a : Addr) (m : Nat) {f g : Nat → Served}
    (h : ∀ o, f o = (g o).onState (State.withUnread r n xs)) :
    (s.withUnread r n xs).within q a m f = (s.within q a m g).onState (State.withUnread r n xs) := by
  simp only [State.within, bounds_unread, translate_unread]
  cases s.bounds q with
  | none => rfl
  | some bl =>
    cases ht : s.translate q a with
    | none => simp only; rfl
    | some o =>
      simp only
      split
      · exact h o
      · rfl

theorem withDevice_unread (k : Nat) (a : Addr) (m : Nat) {f g : Device → Served}
    (h : ∀ d, f d = (g d).onState (State.withUnread r n xs)) :
    (s.withUnread r n xs).withDevice k a m f = (s.withDevice k a m g).onState (State.withUnread r n xs) := by
  refine within_unread r n xs s _ _ _ fun _ => ?_
  show (match s.ext[k]? with | none => _ | some d => _) = _
  cases s.ext[k]? with
  | none => rfl
  | some d => exact h d

theorem ramReadBit_unread (a : Addr) :
    ramReadBit a (s.withUnread r n xs) = (ramReadBit a s).onState (State.withUnread r n xs) :=
  within_unread r n xs s _ _ _ fun _ => rfl

theorem romReadBit_unread (a : Addr) :
    romReadBit a (s.withUnread r n xs) = (romReadBit a s).onState (State.withUnread r n xs) :=
  within_unread r n xs s _ _ _ fun _ => rfl

theorem ramWriteBit_unread (a : Addr) (b : Bool) :
    ramWriteBit a b (s.withUnread r n xs) = (ramWriteBit a b s).onState (State.withUnread r n xs) :=
  within_unread r n xs s _ _ _ fun _ => rfl

theorem romWriteBit_unread (a : Addr) (b : Bool) :
    romWriteBit a b (s.withUnread r n xs) = (romWriteBit a b s).onState (State.withUnread r n xs) :=
  within_unread r n xs s _ _ _ fun _ => rfl

theorem extReadBit_unread (k : Nat) (a : Addr) :
    extReadBit k a (s.withUnread r n xs) = (extReadBit k a s).onState (State.withUnread r n xs) :=
  withDevice_unread r n xs s _ _ _ fun _ => by split <;> rfl

theorem extWriteBit_unread (k : Nat) (a : Addr) (b : Bool) :
    extWriteBit k a b (s.withUnread r n xs) = (extWriteBit k a b s).onState (State.withUnread r n xs) :=
  withDevice_unread r n xs s _ _ _ fun _ => by
    split
    · split <;> rfl
    · rfl

theorem ramRead_unread (w : Width) (a : Addr) :
    ramRead w a (s.withUnread r n xs) = (ramRead w a s).onState (State.withUnread r n xs) :=
  within_unread r n xs s _ _ _ fun _ => rfl

theorem romRead_unread (w : Width) (a : Addr) :
    romRead w a (s.withUnread r n xs) = (romRead w a s).onState (State.withUnread r n xs) :=
  within_unread r n xs s _ _ _ fun _ => rfl

theorem ramWrite_unread (w : Width) (a : Addr) (d : Data) :
    ramWrite w a d (s.withUnread r n xs) = (ramWrite w a d s).onState (State.withUnread r n xs) :=
  within_unread r n xs s _ _ _ fun _ => rfl

theorem romWrite_unread (w : Width) (a : Addr) (d : Data) :
    romWrite w a d (s.withUnread r n xs) = (romWrite w a d s).onState (State.withUnread r n xs) :=
  within_unread r n xs s _ _ _ fun _ => rfl

theorem regionRead_unread (w : Width) (q : Region) (a : Addr) :
    regionRead w q a (s.withUnread r n xs) = (regionRead w q a s).onState (State.withUnread r n xs) := by
  cases q with
  | ram => exact ramRead_unread ..
  | rom => exact romRead_unread ..
  | ext k => exact withDevice_unread r n xs s _ _ _ fun _ => rfl

theorem regionWrite_unread (w : Width) (q : Region) (a : Addr) (d : Data) :
    regionWrite w q a d (s.withUnread r n xs) = (regionWrite w q a d s).onState (State.withUnread r n xs) := by
  cases q with
  | ram => exact ramWrite_unread ..
  | rom => exact romWrite_unread ..
  | ext k => exact withDevice_unread r n xs s _ _ _ fun _ => by split <;> rfl

theorem viewServes_unread (R : RomTyped) (a : Addr) (m : Nat) {x y : Served}
    (h : x = y.onState (State.withUnread r n xs)) :
    viewServes R a m (s.withUnread r n xs) x = (viewServes R a m s y).onState (State.withUnread r n xs) := by
  show (if s.ovl = true ∧ s.romref = some R then _ else _) = _
  simp only [viewServes]
  split
  · split
    · exact h
    · rfl
  · rfl

theorem viewWrite_unread (w : Width) (R : RomTyped) (a : Addr) (d : Data) :
    viewWrite w R a d (s.withUnread r n xs) = (viewWrite w R a d s).onState (State.withUnread r n xs) :=
  viewServes_unread r n xs s _ _ _ rfl

theorem viewWriteBit_unread (R : RomTyped) (a : Addr) (b : Bool) :
    viewWriteBit R a b (s.withUnread r n xs) = (viewWriteBit R a b s).onState (State.withUnread r n xs) :=
  viewServes_unread r n xs s _ _ _ rfl

theorem atBoundary_unread (surface : Bool) (x : Served) :
    atBoundary surface (x.onState (State.withUnread r n xs)) =
      (atBoundary surface x).onState (State.withUnread r n xs) := by
  cases x with
  | refused => rfl
  | done v u => cases v <;> rfl

theorem memRead_unread (w : Width) (a : Addr) :
    memRead w a (s.withUnread r n xs) = (memRead w a s).onState (State.withUnread r n xs) := by
  simp only [memRead, resolve_unread]
  split
  · split
    · exact viewServes_unread r n xs s _ _ _ (regionRead_unread ..)
    · exact regionRead_unread ..
    · rfl
  · rfl

theorem memWrite_unread (w : Width) (a : Addr) (d : Data) :
    memWrite w a d (s.withUnread r n xs) = (memWrite w a d s).onState (State.withUnread r n xs) := by
  simp only [memWrite, resolve_unread]
  split
  · split
    · rw [viewWrite_unread, ← atBoundary_unread]; rfl
    · rw [regionWrite_unread, ← atBoundary_unread]; rfl
    · rfl
  · rfl

theorem registerRegion_unread (q : Region) :
    registerRegion q (s.withUnread r n xs) = (registerRegion q s).onState (State.withUnread r n xs) := by
  simp only [registerRegion, bounds_unread]
  split <;> rfl

theorem finish_unread (x : Served) :
    finish (x.onState (State.withUnread r n xs)) = onNext (fun t => { t with ticks := n, inputs := xs }) (finish x) := by
  cases x <;> rfl

/-- No operation reads the reply, the count or the inputs, and none changes the last two. -/
theorem exec_unread (i : Instr) :
    exec i (s.withUnread r n xs) = onNext (fun t => { t with ticks := n, inputs := xs }) (exec i s) := by
  cases i <;> first
    | exact (congrArg finish (memRead_unread ..)).trans (finish_unread r n xs _)
    | exact (congrArg finish (memWrite_unread ..)).trans (finish_unread r n xs _)
    | exact (congrArg finish (regionRead_unread r n xs s _ .ram _)).trans (finish_unread r n xs _)
    | exact (congrArg finish (regionRead_unread r n xs s _ .rom _)).trans (finish_unread r n xs _)
    | exact (congrArg finish (regionRead_unread r n xs s _ (.ext _) _)).trans (finish_unread r n xs _)
    | exact (congrArg finish (regionWrite_unread r n xs s _ .ram _ _)).trans (finish_unread r n xs _)
    | exact (congrArg finish (regionWrite_unread r n xs s _ .rom _ _)).trans (finish_unread r n xs _)
    | exact (congrArg finish (regionWrite_unread r n xs s _ (.ext _) _ _)).trans (finish_unread r n xs _)
    | exact (congrArg finish (ramReadBit_unread ..)).trans (finish_unread r n xs _)
    | exact (congrArg finish (ramWriteBit_unread ..)).trans (finish_unread r n xs _)
    | exact (congrArg finish (romReadBit_unread ..)).trans (finish_unread r n xs _)
    | exact (congrArg finish (romWriteBit_unread ..)).trans (finish_unread r n xs _)
    | exact (congrArg finish (extReadBit_unread ..)).trans (finish_unread r n xs _)
    | exact (congrArg finish (extWriteBit_unread ..)).trans (finish_unread r n xs _)
    | exact (congrArg finish (viewServes_unread r n xs s _ _ _ (regionRead_unread ..))).trans (finish_unread r n xs _)
    | exact (congrArg finish (viewServes_unread r n xs s _ _ _ (romReadBit_unread ..))).trans (finish_unread r n xs _)
    | exact (congrArg finish (viewWrite_unread ..)).trans (finish_unread r n xs _)
    | exact (congrArg finish (viewWriteBit_unread ..)).trans (finish_unread r n xs _)
    | exact (congrArg finish (registerRegion_unread ..)).trans (finish_unread r n xs _)
    | rfl

end

end Sys2Proof.Machine
end

