-- ==== Sys2Proof/Tests/Slice0.lean ====
section
/-! SUPPORT. Small tests: the well-formedness smoke, every operation's word written out from spec/30_encoding.md R71, R72, R75
and read by the decoder, vectors of spec/95_test_vectors.md one step each, and a witness for every statement that has
hypotheses. Expected results are the spec's. -/

namespace Sys2Proof.Tests

open Sys2Proof.Machine

/-! ### The bench: a launched machine with some bytes of RAM, bytes of the image `ROM_T`, and three devices -/

/-- A request word made of its four fields (R71). -/
def word (op rsv : BitVec 4) (a : Addr) (d : Data) : Word64 := op ++ rsv ++ a ++ d

def acceptor : Device := ⟨Config.Window.serialRead.first, Config.Window.serialRead.last, .accepts, true, true, []⟩
def refuser : Device := ⟨Config.Window.serialWrite.first, Config.Window.serialWrite.last, .refuses, false, false, []⟩
def chooser : Device := ⟨Config.Window.disk.first, Config.Window.disk.last, .perAccess, false, true, []⟩

/-- R50: the peripheral-interface window, and a device over it is admissible. -/
theorem test_windows : Config.Window.peripheral.first = 0xE80000#24 ∧ Config.Window.peripheral.last = 0xEFFFFF#24 ∧
    Device.admissible ⟨Config.Window.peripheral.first, Config.Window.peripheral.last, .accepts, false, false, []⟩ = true := by
  decide

def benchRam : Memory :=
  [(0x200, 0xDE#8), (0x201, 0xAD#8), (0x202, 0xBE#8), (0x203, 0xEF#8), (0x300, 0xF0#8), (0x301, 0x01#8),
    (0x1FFFF, 0x11#8), (0x20000, 0x22#8)]

def benchRom : Memory :=
  [(0, 0xA5#8), (1, 0xA6#8), (2, 0xA7#8), (3, 0xA8#8), (0xFF, 0xA4#8), (0x100, 0xA8#8), (0x101, 0xA9#8), (0x102, 0xAA#8),
    (0x103, 0xAB#8), (0x1FFFC, 0x9E#8), (0x1FFFD, 0x9F#8), (0x1FFFE, 0xA0#8), (0x1FFFF, 0xA1#8)]

def bench (ovl surface : Bool) (inputs : List Input) : State where
  ram := benchRam
  rom := benchRom
  ovl := ovl
  regs := [.ram, .rom, .ext 0, .ext 1, .ext 2]
  romref := some .rom
  ticks := 7
  ext := [acceptor, refuser, chooser]
  surfaceReadOnly := surface
  inputs := inputs
  reply := .nothing

/-- The response word of a step, where it has one. -/
def response (o : Host.Outcome State Fault Refusal) : Option Word64 :=
  match o with
  | .next t => match t.reply with
    | .word w => some w
    | .nothing => none
    | .number _ => none
  | .fault _ => none
  | .refused _ => none

/-- The number a step returned, where it returned one. -/
def number (o : Host.Outcome State Fault Refusal) : Option Nat :=
  match o with
  | .next t => match t.reply with
    | .word _ => none
    | .nothing => none
    | .number n => some n
  | .fault _ => none
  | .refused _ => none

/-- A byte of RAM after a step. -/
def ramAfter (o : Host.Outcome State Fault Refusal) (a : Nat) : Option Byte :=
  match o with
  | .next t => some (t.ram.byte a)
  | .fault _ => none
  | .refused _ => none

/-- A device's record after a step. -/
def logAfter (o : Host.Outcome State Fault Refusal) (k : Nat) : Option (List Config.DeviceAccess) :=
  match o with
  | .next t => (t.ext[k]?).map (·.log)
  | .fault _ => none
  | .refused _ => none

def refusal (o : Host.Outcome State Fault Refusal) : Option Refusal :=
  match o with
  | .next _ => none
  | .fault _ => none
  | .refused r => some r

/-- One request on the bench, with the overlay inactive and ReadOnly discarded. -/
def on (p : Port) (w : Word64) : Host.Outcome State Fault Refusal := step (bench false false [.request p w])

/-- One request on the bench, with the overlay active. -/
def overlaid (p : Port) (w : Word64) : Host.Outcome State Fault Refusal := step (bench true false [.request p w])

/-- One request on the bench, with the overlay active and ReadOnly surfaced. -/
def loud (p : Port) (w : Word64) : Host.Outcome State Fault Refusal := step (bench true true [.request p w])

/-! ### Well-formedness (R76) -/

theorem test_wf_region : Region.wellFormed (.ext 254) = false := by decide
theorem test_wf_port : Port.wellFormed (.reg (.ext 254)) = false := by decide
theorem test_wf_port_decode : decode (.reg (.ext 254)) (word 0 0 0 0) = .error .noSuchPort := by decide
theorem test_wf_register : Instr.wellFormed (.register (.ext 254)) = false := by decide
theorem test_wf_devices : [Instr.extRead8 254 0, .extRead16 254 0, .extRead32 254 0, .extReadBit 254 0, .extWrite8 254 0 0,
    .extWrite16 254 0 0, .extWrite32 254 0 0, .extWriteBit 254 0 true].all (fun i => !i.wellFormed) = true := by decide
theorem test_wf_last_device : Instr.wellFormed (.extRead8 253 0) = true ∧ Instr.wellFormed (.register (.ext 253)) = true := by
  decide

/-! ### Every operation's word, field by field: `op`, `rsv`, `addr`, `data` (R71, R72, R75); bits that are not read are set -/

theorem test_decode_bus_read8 :
    decode .bus (word 0b0000#4 0b0000#4 0xABCDE8#24 0xF1E2D3C4#32) = .ok (.busRead8 0xABCDE8#24) := by decide
theorem test_decode_bus_read16 :
    decode .bus (word 0b0001#4 0b0000#4 0xABCDE8#24 0xF1E2D3C4#32) = .ok (.busRead16 0xABCDE8#24) := by decide
theorem test_decode_bus_read32 :
    decode .bus (word 0b0010#4 0b0000#4 0xABCDE8#24 0xF1E2D3C4#32) = .ok (.busRead32 0xABCDE8#24) := by decide
theorem test_decode_bus_write8 :
    decode .bus (word 0b0100#4 0b0000#4 0xABCDE8#24 0xF1E2D3C4#32) = .ok (.busWrite8 0xABCDE8#24 0xC4#8) := by decide
theorem test_decode_bus_write16 :
    decode .bus (word 0b0101#4 0b0000#4 0xABCDE8#24 0xF1E2D3C4#32) = .ok (.busWrite16 0xABCDE8#24 0xD3C4#16) := by decide
theorem test_decode_bus_write32 :
    decode .bus (word 0b0110#4 0b0000#4 0xABCDE8#24 0xF1E2D3C4#32) = .ok (.busWrite32 0xABCDE8#24 0xF1E2D3C4#32) := by decide
theorem test_decode_ram_read8 :
    decode (.reg .ram) (word 0b0000#4 0b0000#4 0xABCDE8#24 0xF1E2D3C4#32) = .ok (.ramRead8 0xABCDE8#24) := by decide
theorem test_decode_ram_read16 :
    decode (.reg .ram) (word 0b0001#4 0b0000#4 0xABCDE8#24 0xF1E2D3C4#32) = .ok (.ramRead16 0xABCDE8#24) := by decide
theorem test_decode_ram_read32 :
    decode (.reg .ram) (word 0b0010#4 0b0000#4 0xABCDE8#24 0xF1E2D3C4#32) = .ok (.ramRead32 0xABCDE8#24) := by decide
theorem test_decode_ram_read_bit :
    decode (.reg .ram) (word 0b0011#4 0b0000#4 0xABCDE8#24 0xF1E2D3C4#32) = .ok (.ramReadBit 0xABCDE8#24) := by decide
theorem test_decode_ram_write8 :
    decode (.reg .ram) (word 0b0100#4 0b0000#4 0xABCDE8#24 0xF1E2D3C4#32) = .ok (.ramWrite8 0xABCDE8#24 0xC4#8) := by decide
theorem test_decode_ram_write16 :
    decode (.reg .ram) (word 0b0101#4 0b0000#4 0xABCDE8#24 0xF1E2D3C4#32) = .ok (.ramWrite16 0xABCDE8#24 0xD3C4#16) := by decide
theorem test_decode_ram_write32 :
    decode (.reg .ram) (word 0b0110#4 0b0000#4 0xABCDE8#24 0xF1E2D3C4#32) = .ok (.ramWrite32 0xABCDE8#24 0xF1E2D3C4#32) := by decide
theorem test_decode_ram_write_bit :
    decode (.reg .ram) (word 0b0111#4 0b0000#4 0xABCDE8#24 0xF1E2D3C4#32) = .ok (.ramWriteBit 0xABCDE8#24 false) := by decide
theorem test_decode_rom_read8 :
    decode (.reg .rom) (word 0b0000#4 0b0000#4 0xABCDE8#24 0xF1E2D3C4#32) = .ok (.romRead8 0xABCDE8#24) := by decide
theorem test_decode_rom_read16 :
    decode (.reg .rom) (word 0b0001#4 0b0000#4 0xABCDE8#24 0xF1E2D3C4#32) = .ok (.romRead16 0xABCDE8#24) := by decide
theorem test_decode_rom_read32 :
    decode (.reg .rom) (word 0b0010#4 0b0000#4 0xABCDE8#24 0xF1E2D3C4#32) = .ok (.romRead32 0xABCDE8#24) := by decide
theorem test_decode_rom_read_bit :
    decode (.reg .rom) (word 0b0011#4 0b0000#4 0xABCDE8#24 0xF1E2D3C4#32) = .ok (.romReadBit 0xABCDE8#24) := by decide
theorem test_decode_rom_write8 :
    decode (.reg .rom) (word 0b0100#4 0b0000#4 0xABCDE8#24 0xF1E2D3C4#32) = .ok (.romWrite8 0xABCDE8#24 0xC4#8) := by decide
theorem test_decode_rom_write16 :
    decode (.reg .rom) (word 0b0101#4 0b0000#4 0xABCDE8#24 0xF1E2D3C4#32) = .ok (.romWrite16 0xABCDE8#24 0xD3C4#16) := by decide
theorem test_decode_rom_write32 :
    decode (.reg .rom) (word 0b0110#4 0b0000#4 0xABCDE8#24 0xF1E2D3C4#32) = .ok (.romWrite32 0xABCDE8#24 0xF1E2D3C4#32) := by decide
theorem test_decode_rom_write_bit :
    decode (.reg .rom) (word 0b0111#4 0b0000#4 0xABCDE8#24 0xF1E2D3C4#32) = .ok (.romWriteBit 0xABCDE8#24 false) := by decide
theorem test_decode_view_read8 :
    decode .view (word 0b0000#4 0b0000#4 0xABCDE8#24 0xF1E2D3C4#32) = .ok (.viewRead8 0xABCDE8#24) := by decide
theorem test_decode_view_read16 :
    decode .view (word 0b0001#4 0b0000#4 0xABCDE8#24 0xF1E2D3C4#32) = .ok (.viewRead16 0xABCDE8#24) := by decide
theorem test_decode_view_read32 :
    decode .view (word 0b0010#4 0b0000#4 0xABCDE8#24 0xF1E2D3C4#32) = .ok (.viewRead32 0xABCDE8#24) := by decide
theorem test_decode_view_read_bit :
    decode .view (word 0b0011#4 0b0000#4 0xABCDE8#24 0xF1E2D3C4#32) = .ok (.viewReadBit 0xABCDE8#24) := by decide
theorem test_decode_view_write8 :
    decode .view (word 0b0100#4 0b0000#4 0xABCDE8#24 0xF1E2D3C4#32) = .ok (.viewWrite8 0xABCDE8#24 0xC4#8) := by decide
theorem test_decode_view_write16 :
    decode .view (word 0b0101#4 0b0000#4 0xABCDE8#24 0xF1E2D3C4#32) = .ok (.viewWrite16 0xABCDE8#24 0xD3C4#16) := by decide
theorem test_decode_view_write32 :
    decode .view (word 0b0110#4 0b0000#4 0xABCDE8#24 0xF1E2D3C4#32) = .ok (.viewWrite32 0xABCDE8#24 0xF1E2D3C4#32) := by decide
theorem test_decode_view_write_bit :
    decode .view (word 0b0111#4 0b0000#4 0xABCDE8#24 0xF1E2D3C4#32) = .ok (.viewWriteBit 0xABCDE8#24 false) := by decide
theorem test_decode_ext_read8 :
    decode (.reg (.ext 5)) (word 0b0000#4 0b0000#4 0xABCDE8#24 0xF1E2D3C4#32) = .ok (.extRead8 5 0xABCDE8#24) := by decide
theorem test_decode_ext_read16 :
    decode (.reg (.ext 5)) (word 0b0001#4 0b0000#4 0xABCDE8#24 0xF1E2D3C4#32) = .ok (.extRead16 5 0xABCDE8#24) := by decide
theorem test_decode_ext_read32 :
    decode (.reg (.ext 5)) (word 0b0010#4 0b0000#4 0xABCDE8#24 0xF1E2D3C4#32) = .ok (.extRead32 5 0xABCDE8#24) := by decide
theorem test_decode_ext_read_bit :
    decode (.reg (.ext 5)) (word 0b0011#4 0b0000#4 0xABCDE8#24 0xF1E2D3C4#32) = .ok (.extReadBit 5 0xABCDE8#24) := by decide
theorem test_decode_ext_write8 :
    decode (.reg (.ext 5)) (word 0b0100#4 0b0000#4 0xABCDE8#24 0xF1E2D3C4#32) = .ok (.extWrite8 5 0xABCDE8#24 0xC4#8) := by decide
theorem test_decode_ext_write16 :
    decode (.reg (.ext 5)) (word 0b0101#4 0b0000#4 0xABCDE8#24 0xF1E2D3C4#32) = .ok (.extWrite16 5 0xABCDE8#24 0xD3C4#16) := by decide
theorem test_decode_ext_write32 :
    decode (.reg (.ext 5)) (word 0b0110#4 0b0000#4 0xABCDE8#24 0xF1E2D3C4#32) = .ok (.extWrite32 5 0xABCDE8#24 0xF1E2D3C4#32) := by decide
theorem test_decode_ext_write_bit :
    decode (.reg (.ext 5)) (word 0b0111#4 0b0000#4 0xABCDE8#24 0xF1E2D3C4#32) = .ok (.extWriteBit 5 0xABCDE8#24 false) := by decide
theorem test_decode_is_overlay_active :
    decode .ovl (word 0b1000#4 0b0000#4 0xABCDE8#24 0xF1E2D3C4#32) = .ok .isOverlayActive := by decide
theorem test_decode_set_overlay_active :
    decode .ovl (word 0b1001#4 0b0000#4 0xABCDE8#24 0xF1E2D3C5#32) = .ok (.setOverlayActive true) := by decide
theorem test_decode_register :
    decode .cfg (word 0b1010#4 0b0000#4 0xABCDE8#24 0xF1E2D302#32) = .ok (.register (.ext 0)) := by decide
theorem test_decode_register_last :
    decode .cfg 0xA0000000000000FF#64 = .ok (.register (.ext 253)) := by decide

/-! ### Words of the opcode table, and one of them as the first step after reset -/

theorem test_table_word_bus : decodeTableWord 64 0x6000020000000000 = some (.busWrite32 0x000200#24 0#32) := by decide
theorem test_table_word_read_bit : decodeTableWord 64 0x3000000000000000 = some (.ramReadBit 0#24) := by decide
theorem test_table_word_register : decodeTableWord 64 0xA000000000000001 = some (.register .rom) := by decide
theorem test_table_word_reserved : decodeTableWord 64 0xB000000000000000 = none := by decide
theorem test_fetch_word_register :
    response (step (State.reset.withFetchWord 64 0xA000000000000001)) = some 0#64 := by rfl
theorem test_fetch_word_before_registration :
    step (State.reset.withFetchWord 64 0x0000000000000000) = .next (State.reset.answered (.unmapped 0#24)) := by rfl

/-! ### One step each: vectors of 95_test_vectors.md -/

/-- V-RAM1 -/
theorem test_v_ram1 :
    response (on (.reg .ram) 0x40000300000001A5#64) = some 0x0000000000000000#64 ∧
      ramAfter (on (.reg .ram) 0x40000300000001A5#64) 0x300 = some 0xA5#8 := by decide
/-- P6 1 -/
theorem test_v_ram2 :
    response (on (.reg .ram) 0x0000030000000000#64) = some 0x00000000000000F0#64 := by decide
/-- V-RAM3 -/
theorem test_v_ram3 :
    (let o := on (.reg .ram) 0x50000301ABCD1234#64;
      (ramAfter o 0x300, ramAfter o 0x301, ramAfter o 0x302)) = (some 0xF0#8, some 0x12#8, some 0x34#8) := by decide
/-- R111 at an odd address -/
theorem test_v_ram4 :
    response (on (.reg .ram) 0x1000020100000000#64) = some 0x000000000000ADBE#64 := by decide
/-- V-RAM5 -/
theorem test_v_ram5 :
    (let o := on (.reg .ram) 0x600FFFFC80000001#64;
      (ramAfter o 0xFFFFC, ramAfter o 0xFFFFD, ramAfter o 0xFFFFE, ramAfter o 0xFFFFF)) =
      (some 0x80#8, some 0x00#8, some 0x00#8, some 0x01#8) := by decide
/-- R112 example -/
theorem test_v_ram6 :
    response (on (.reg .ram) 0x2000020000000000#64) = some 0x00000000DEADBEEF#64 := by decide
/-- V-RAM7 -/
theorem test_v_ram7 :
    ramAfter (on (.reg .ram) 0x7000030000000001#64) 0x300 = some 0x01#8 := by decide
/-- V-RAM8, on a byte that holds 0x01 -/
theorem test_v_ram8 :
    response (on (.reg .ram) 0x3000030100000000#64) = some 0x0000000000000001#64 := by decide
/-- V-RAM9 -/
theorem test_v_ram9 :
    ramAfter (on (.reg .ram) 0x70000300FFFFFFFE#64) 0x300 = some 0x00#8 := by decide
/-- V-RAM11 -/
theorem test_v_ram11 :
    refusal (on (.reg .ram) 0x0010000000000000#64) = some .outOfBounds := by decide
/-- V-RAM12 -/
theorem test_v_ram12 :
    refusal (on (.reg .ram) 0x200FFFFE00000000#64) = some .outOfBounds := by decide
/-- V-ROM2 -/
theorem test_v_rom2 :
    response (on (.reg .rom) 0x0041FFFF00000000#64) = some 0x00000000000000A1#64 := by decide
/-- V-ROM3 -/
theorem test_v_rom3 :
    response (on (.reg .rom) 0x104000FF00000000#64) = some 0x000000000000A4A8#64 := by decide
/-- V-ROM4 -/
theorem test_v_rom4 :
    response (on (.reg .rom) 0x2040010000000000#64) = some 0x00000000A8A9AAAB#64 := by decide
/-- V-ROM6 -/
theorem test_v_rom6 :
    response (on (.reg .rom) 0x40400000000000A5#64) = some 0x30400000000000A5#64 := by decide
/-- V-ROM7 -/
theorem test_v_rom7 :
    response (on (.reg .rom) 0x5040000012345678#64) = some 0x3040000000005678#64 := by decide
/-- S2 -/
theorem test_s2_rom_write32 :
    response (on (.reg .rom) 0x6041FFFC12345678#64) = some 0x3041FFFC12345678#64 := by decide
/-- V-ROM8 -/
theorem test_v_rom8 :
    response (on (.reg .rom) 0x7040000000000001#64) = some 0x3040000000000001#64 := by decide
/-- V-ROM9, on a byte that holds 0x00 -/
theorem test_v_rom9 :
    response (on (.reg .rom) 0x3040100000000000#64) = some 0x0000000000000000#64 := by decide
/-- V-ROM10 -/
theorem test_v_rom10 :
    refusal (on (.reg .rom) 0x003FFFFF00000000#64) = some .outOfBounds ∧
      refusal (on (.reg .rom) 0x0042000000000000#64) = some .outOfBounds := by decide
/-- V-OV1 -/
theorem test_v_ov1 :
    response (overlaid .bus 0x0000000000000000#64) = some 0x00000000000000A5#64 := by decide
/-- V-OV2, V-OV3 -/
theorem test_v_ov2_ov3 :
    response (overlaid .bus 0x0001FFFF00000000#64) = some 0x00000000000000A1#64 ∧
      response (overlaid .bus 0x0002000000000000#64) = some 0x0000000000000022#64 := by decide
/-- V-OV4 -/
theorem test_v_ov4 :
    response (overlaid .bus 0x1001FFFE00000000#64) = some 0x000000000000A0A1#64 := by decide
/-- V-OV5: four consecutive bytes -/
theorem test_v_ov5 :
    response (overlaid .bus 0x2000000000000000#64) = some 0x00000000A5A6A7A8#64 := by decide
/-- V-OV7 -/
theorem test_v_ov7 :
    response (overlaid .bus 0x4000000000000042#64) = some 0x0000000000000000#64 ∧
      response (loud .bus 0x4000000000000042#64) = some 0x3000000000000042#64 := by decide
/-- V-OV8 -/
theorem test_v_ov8 :
    response (loud .bus 0x6001FFFCFFFFFFFF#64) = some 0x3001FFFCFFFFFFFF#64 ∧
      ramAfter (overlaid .bus 0x6001FFFCFFFFFFFF#64) 0x1FFFF = some 0x11#8 := by decide
/-- V-OV9 -/
theorem test_v_ov9 :
    ramAfter (overlaid .bus 0x4002000000000033#64) 0x20000 = some 0x33#8 := by decide
/-- V-OV10 -/
theorem test_v_ov10 :
    response (on .bus 0x0001FFFF00000000#64) = some 0x0000000000000011#64 := by decide
/-- R131 to R138 -/
theorem test_view_read8 :
    response (overlaid .view 0x0001FFFF00000000#64) = some 0x00000000000000A1#64 := by decide
/-- R131 to R138 -/
theorem test_view_read16 :
    response (overlaid .view 0x100000FF00000000#64) = some 0x000000000000A4A8#64 := by decide
/-- R131 to R138 -/
theorem test_view_read32 :
    response (overlaid .view 0x2000010000000000#64) = some 0x00000000A8A9AAAB#64 := by decide
/-- R131 to R138 -/
theorem test_view_read_bit :
    response (overlaid .view 0x3000100000000000#64) = some 0x0000000000000000#64 := by decide
/-- R131 to R138 -/
theorem test_view_write8 :
    response (overlaid .view 0x4000000000000042#64) = some 0x3000000000000042#64 := by decide
/-- R131 to R138 -/
theorem test_view_write16 :
    response (overlaid .view 0x500000020001BEEF#64) = some 0x300000020000BEEF#64 := by decide
/-- R131 to R138 -/
theorem test_view_write32 :
    response (overlaid .view 0x6001FFFCFFFFFFFF#64) = some 0x3001FFFCFFFFFFFF#64 := by decide
/-- R131 to R138 -/
theorem test_view_write_bit :
    response (overlaid .view 0x7000000000000001#64) = some 0x3000000000000001#64 := by decide
/-- R130 -/
theorem test_view_outside :
    refusal (overlaid .view 0x2001FFFD00000000#64) = some .outsideView ∧
      refusal (on .view 0x2001FFFC00000000#64) = some .viewInactive := by decide
/-- V-BUS1, P5 -/
theorem test_v_bus1 :
    (let o := on .bus 0x6000020001020304#64;
      (ramAfter o 0x200, ramAfter o 0x201, ramAfter o 0x202, ramAfter o 0x203)) =
      (some 0x01#8, some 0x02#8, some 0x03#8, some 0x04#8) := by decide
/-- V-BUS2, V-BUS3 -/
theorem test_v_bus2_bus3 :
    response (on .bus 0x1000020200000000#64) = some 0x000000000000BEEF#64 ∧
      response (on .bus 0x0000020100000000#64) = some 0x00000000000000AD#64 := by decide
/-- V-BUS4 -/
theorem test_v_bus4 :
    response (on .bus 0x5000020100001234#64) = some 0x2000020100000000#64 ∧
      ramAfter (on .bus 0x5000020100001234#64) 0x201 = some 0xAD#8 := by decide
/-- V-BUS7, V-BUS8 -/
theorem test_v_bus7_bus8 :
    response (on .bus 0x0010000000000000#64) = some 0x1010000000000000#64 ∧
      response (on .bus 0x003FFFFF00000000#64) = some 0x103FFFFF00000000#64 ∧
      response (on .bus 0x0040000000000000#64) = some 0x00000000000000A5#64 := by decide
/-- V-BUS11 -/
theorem test_v_bus11 :
    response (on .bus 0x4020000000000055#64) = some 0x1020000000000000#64 := by decide
/-- R146 -/
theorem test_bus_write16 :
    (let o := on .bus 0x50000202FFFF1234#64;
      (ramAfter o 0x202, ramAfter o 0x203)) = (some 0x12#8, some 0x34#8) := by decide
/-- V-FLT1, V-FLT2 -/
theorem test_v_flt1_flt2 :
    response (on .bus 0x1020000100000000#64) = some 0x2020000100000000#64 ∧
      response (loud .bus 0x5040000100001234#64) = some 0x2040000100000000#64 := by decide
/-- R77 -/
theorem test_bus_refuses :
    refusal (on .bus 0x3000000000000000#64) = some (.notARequest .notAccepted) ∧
      refusal (on .bus 0xB000000000000000#64) = some (.notARequest .reservedOp) ∧
      refusal (on .bus 0x0100000000000000#64) = some (.notARequest .reservedBits) := by decide
/-- R160 -/
theorem test_overlay_status :
    response (overlaid .ovl 0x8000000000000000#64) = some 0x0000000000000001#64 ∧
      response (on .ovl 0x8000000000000000#64) = some 0x0000000000000000#64 := by decide
/-- R161 -/
theorem test_set_overlay :
    (match overlaid .ovl 0x9000000000000000#64 with
      | .next t => some t.ovl
      | .fault _ => none
      | .refused _ => none) = some false := by decide
/-- R162, R76 -/
theorem test_register_device :
    (match on .cfg 0xA000000000000004#64 with
      | .next t => some (t.regs.getLast?, t.romref)
      | .fault _ => none
      | .refused _ => none) = some (some (.ext 2), some .rom) := by decide
/-- R77 (d) -/
theorem test_register_nothing :
    refusal (on .cfg 0xA000000000000005#64) = some .noSuchRegion := by decide
/-- R94: the device sees one byte read -/
theorem test_ext_read8 :
    logAfter (on (.reg (.ext 0)) 0x0080000300000000#64) 0 = some [.read 0x800003#24] := by decide
/-- R95: high byte first -/
theorem test_ext_read16 :
    logAfter (on (.reg (.ext 0)) 0x1080000300000000#64) 0 = some [.read 0x800003#24, .read 0x800004#24] := by decide
/-- R96: four byte reads in ascending order -/
theorem test_ext_read32 :
    logAfter (on (.reg (.ext 0)) 0x2080000000000000#64) 0 =
      some [.read 0x800000#24, .read 0x800001#24, .read 0x800002#24, .read 0x800003#24] := by decide
/-- R100 -/
theorem test_ext_read_bit :
    logAfter (on (.reg (.ext 0)) 0x3080000300000000#64) 0 = some [.readBit 0x800003#24] ∧
      refusal (on (.reg (.ext 1)) 0x30A0000300000000#64) = some .declinedBit := by decide
/-- R97 -/
theorem test_ext_write8 :
    logAfter (on (.reg (.ext 0)) 0x40800002000001FF#64) 0 = some [.write 0x800002#24 0xFF#8] ∧
      response (on (.reg (.ext 1)) 0x40A00002000001FF#64) = some 0x30A00002000000FF#64 := by decide
/-- R98 -/
theorem test_ext_write16 :
    logAfter (on (.reg (.ext 0)) 0x508000020000BEEF#64) 0 =
      some [.write 0x800002#24 0xBE#8, .write 0x800003#24 0xEF#8] ∧
      response (on (.reg (.ext 1)) 0x50A000021234BEEF#64) = some 0x30A000020000BEEF#64 := by decide
/-- R99 -/
theorem test_ext_write32 :
    logAfter (on (.reg (.ext 0)) 0x6080000012345678#64) 0 =
      some [.write 0x800000#24 0x12#8, .write 0x800001#24 0x34#8, .write 0x800002#24 0x56#8, .write 0x800003#24 0x78#8] ∧
      response (on (.reg (.ext 1)) 0x60A0000012345678#64) = some 0x30A0000012345678#64 := by decide
/-- R101 -/
theorem test_ext_write_bit :
    logAfter (on (.reg (.ext 0)) 0x70800002FFFFFFFE#64) 0 = some [.writeBit 0x800002#24 false] := by decide
/-- R98: a device that refuses every write is left as it was. -/
theorem test_refuser_unchanged : logAfter (on (.reg (.ext 1)) 0x60A0000012345678#64) 1 = some [] := by decide
/-- R97: a device that decides per access may be left changed by a write it refuses, at its port and through the bus. -/
theorem test_refused_write (hp : Config.devicePermits 2 [] (.write 0xC00000#24 5#8) = false)
    (hr : Config.deviceReacts 2 [] false (.write 0xC00000#24 5#8) = true) :
    exec (.extWrite8 2 0xC00000#24 5#8) (bench false false []) =
        .next (((bench false false []).setDevice 2 { chooser with log := [.write 0xC00000#24 5#8] }).answered
          (.readOnly 0xC00000#24 5#32)) ∧
      exec (.busWrite8 0xC00000#24 5#8) (bench false false []) =
        .next (((bench false false []).setDevice 2 { chooser with log := [.write 0xC00000#24 5#8] }).answered
          (.ok 0#32)) := by
  have hw : chooser.write 2 .w8 0xC00000#24 5#32 =
      (.readOnly, { chooser with log := [.write 0xC00000#24 5#8] }) := by
    have h1 : chooser.permits 2 (.write 0xC00000#24 5#8) = false := hp
    have h2 : chooser.refused 2 false (.write 0xC00000#24 5#8) =
        { chooser with log := [.write 0xC00000#24 5#8] } := if_pos hr
    show chooser.write8 2 false 0xC00000#24 5#8 = _
    rw [write8_eq, h1, h2]; rfl
  have he : extWrite .w8 2 0xC00000#24 5#32 (bench false false []) =
      .done (.readOnly 0xC00000#24 5#32)
        ((bench false false []).setDevice 2 { chooser with log := [.write 0xC00000#24 5#8] }) := by
    rw [extWrite_inside (d := chooser) .w8 _ (by rfl) (by decide) (by decide), hw]
  constructor
  · exact congrArg finish he
  · have hr : (bench false false []).resolve 0xC00000#24 = .region (.ext 2) := by decide
    show finish (memWrite .w8 0xC00000#24 5#32 (bench false false [])) = _
    simp only [memWrite, hr, aligned_w8, if_true, regionWrite]
    rw [he]; rfl
/-- R187, R188 -/
theorem test_counter :
    number (step (bench true false [.counter .now])) = some 7 ∧
      number (step (bench true false [.counter (.ticksForPeriod 60)])) = some 130560 ∧
      number (step (bench true false [.counter (.ticksForPeriod 7833601)])) = some 0 ∧
      number (step (bench true false [.counter (.ticksForPeriod 7)])) = some 1119085 := by decide
/-! ### Witnesses: for each statement with hypotheses, states and operands that meet them, each clause at a boundary -/

theorem witness_inv (ovl surface : Bool) (inputs : List Input) : (bench ovl surface inputs).Inv where
  ramWf := by show benchRam.wf = true; decide
  ramBelow := by show benchRam.below Config.ramSize = true; decide
  romWf := by show benchRom.wf = true; decide
  romBelow := by show benchRom.below Config.romSize = true; decide
  romrefExact := by simp [bench]
  regsExist := by simp [bench]
  devicesAdmissible := by
    show ∀ d ∈ [acceptor, refuser, chooser], d.admissible = true
    decide

theorem witness_DecodeOfEncode :
    Instr.wellFormed (.extWriteBit 253 0xFFFFFF#24 true) = true ∧ Instr.wellFormed (.register (.ext 0)) = true := by decide
theorem witness_EncodeOfDecodeIsCanonical :
    decode (.reg .ram) 0x70000300FFFFFFFF#64 = .ok (.ramWriteBit 0x000300#24 true) := by decide
theorem witness_IgnoredBitsHaveNoEffect :
    decode .ovl 0x9000000000000001#64 = .ok (.setOverlayActive true) ∧
      0x90ABCDEFFFFFFFFF#64 &&& usedBits (.setOverlayActive true) =
        0x9000000000000001#64 &&& usedBits (.setOverlayActive true) := by decide
theorem witness_RequestsAcceptedByPort :
    rsvField 0x7000000000000000#64 = 0#4 ∧ Port.wellFormed (.reg (.ext 253)) = true ∧
      portAccepts (.reg (.ext 253)) (opField 0x7000000000000000#64).toNat = true ∧ portAccepts .bus 0x3 = false ∧
      portAccepts .bus 0x6 = true ∧ portAccepts .bus 0x7 = false ∧ portAccepts .ovl 0x9 = true ∧
      portAccepts .cfg 0x9 = false := by decide
theorem witness_NotRequestsHaveNoStep :
    rsvField 0x0100000000000000#64 ≠ 0#4 ∧ 0xB ≤ (opField 0xB000000000000000#64).toNat ∧
      portAccepts .ovl (opField 0x4000000000000042#64).toNat = false ∧
      (bench true false []).ext.length + 2 ≤ ((0xA000000000000005#64).extractLsb' 0 8).toNat ∧
      refusal (on .cfg 0xA000000000000005#64) = some .noSuchRegion ∧
      refusal (on .cfg 0xA000000000000004#64) = none ∧
      Port.wellFormed .bus = true ∧ portAccepts .bus (0x6#4).toNat = true := by decide
theorem witness_StepRunsTheDecodedOperation :
    decode .bus 0x0000000000000000#64 = .ok (.busRead8 0#24) ∧ decode .bus 0xB000000000000000#64 = .error .reservedOp ∧
      (bench true false [.request .bus 0#64, .counter .now]).inputs = [.request .bus 0#64, .counter .now] ∧
      (bench true false [.counter .now]).inputs = [.counter .now] := by decide
theorem witness_NoStepWithoutRequest : (bench true false []).inputs = [] := rfl
theorem witness_ColdResetValues : (List.replicate 131072 (0xA5#8 : Byte)).length = 131072 := List.length_replicate
theorem witness_ColdResetValues_machine : ∃ image cells s, coldReset image cells [acceptor] false = .ok s := by
  have key : ∀ image : List Byte, image.length = 131072 → ∃ s, coldReset image [] [acceptor] false = .ok s := by
    intro image h
    exact ⟨_, by rw [coldReset, loadImage_full h]⟩
  obtain ⟨s, hs⟩ := key _ (List.length_replicate (n := 131072) (a := (0#8 : Byte)))
  exact ⟨_, _, s, hs⟩
theorem witness_OnlyFullImagesLoad :
    (List.replicate 131071 (0#8 : Byte)).length ≠ 131072 ∧ (List.replicate 131073 (0#8 : Byte)).length ≠ 131072 ∧
      (List.replicate 131072 (0#8 : Byte)).length = 131072 := by
  simp only [List.length_replicate]; decide
theorem witness_StandardRegistrationLaunches :
    let s : State := { bench true false [.request .cfg 0xA000000000000000#64, .request .cfg 0xA000000000000001#64] with
      regs := [], romref := none }
    s.regs = [] ∧ s.romref = none ∧
      s.inputs = [.request .cfg 0xA000000000000000#64, .request .cfg 0xA000000000000001#64] := ⟨rfl, rfl, rfl⟩
theorem witness_InvAtReset : ∀ d ∈ [acceptor, refuser, chooser], d.admissible = true := by decide

/-- The edges of the RAM at its port, for each width: the last address served and the first refused. -/
theorem witness_RamReads :
    (0x0FFFFF#24).toNat ≤ 0x0FFFFF ∧ 0x0FFFFF < (0x100000#24).toNat ∧ (0x0FFFFE#24).toNat ≤ 0x0FFFFE ∧
      0x0FFFFE < (0x0FFFFF#24).toNat ∧ (0x0FFFFC#24).toNat ≤ 0x0FFFFC ∧ 0x0FFFFC < (0x0FFFFD#24).toNat := by decide
theorem witness_RamReads_edges :
    response (on (.reg .ram) 0x000FFFFF00000000#64) = some 0#64 ∧
      refusal (on (.reg .ram) 0x100FFFFF00000000#64) = some .outOfBounds ∧
      response (on (.reg .ram) 0x200FFFFC00000000#64) = some 0#64 ∧
      refusal (on (.reg .ram) 0x200FFFFD00000000#64) = some .outOfBounds := by decide
theorem witness_RamWrites : (bench true false []).ram.wf = true ∧ (0x0FFFFC#24).toNat ≤ 0x0FFFFC ∧
    refusal (on (.reg .ram) 0x500FFFFF00000001#64) = some .outOfBounds ∧
    ramAfter (on (.reg .ram) 0x500FFFFE00000001#64) 0x0FFFFF = some 0x01#8 := by
  refine ⟨(witness_inv true false []).ramWf, ?_⟩; decide
theorem witness_RamBitOperations : (bench true false []).ram.wf = true ∧ (0x0FFFFF#24).toNat ≤ 0x0FFFFF ∧
    0x0FFFFF < (0x100000#24).toNat := by
  refine ⟨(witness_inv true false []).ramWf, ?_⟩; decide
theorem witness_RomReads :
    (0x400000#24).toNat = 0x400000 + 0 ∧ (0x41FFFF#24).toNat = 0x400000 + 0x1FFFF ∧
      (0x41FFFC#24).toNat = 0x400000 + 0x1FFFC ∧ refusal (on (.reg .rom) 0x2041FFFD00000000#64) = some .outOfBounds ∧
      refusal (on (.reg .rom) 0x1041FFFF00000000#64) = some .outOfBounds ∧
      response (on (.reg .rom) 0x1041FFFE00000000#64) = some 0xA0A1#64 := by decide
theorem witness_RomWrites :
    0x400000 ≤ (0x400000#24).toNat ∧ (0x41FFFC#24).toNat ≤ 0x41FFFC ∧ (0x41FFFE#24).toNat ≤ 0x41FFFE ∧
      (0x41FFFF#24).toNat ≤ 0x41FFFF := by decide
theorem witness_RomReadBit : (0x41FFFF#24).toNat = 0x400000 + 0x1FFFF ∧ 0x1FFFF ≤ 0x1FFFF ∧
    (0x0FFFFF#24).toNat ≤ 0x0FFFFF := by decide
theorem witness_OutOfBoundsRefusedAtRegionPorts :
    Instr.portAccess (.extRead32 0 0x9FFFFD#24) = some (.ext 0, 0x9FFFFD#24, 4) ∧
      (bench true false []).bounds (.ext 0) = some (0x800000#24, 0x9FFFFF#24) ∧
      ¬ (0x9FFFFD + 4 - 1 ≤ (0x9FFFFF#24).toNat) ∧ (bench true false []).bounds (.ext 3) = none ∧
      refusal (on (.reg (.ext 0)) 0x209FFFFD00000000#64) = some .outOfBounds ∧
      refusal (on (.reg (.ext 3)) 0x209FFFFC00000000#64) = some .noSuchRegion := by decide
theorem witness_ViewReads :
    (bench true false []).ovl = true ∧ (bench true false []).romref = some .rom ∧ (0x01FFFF#24).toNat ≤ 0x01FFFF ∧ 0x01FFFF < (0x020000#24).toNat ∧
      response (overlaid .view 0x2001FFFC00000000#64) = some 0x9E9FA0A1#64 ∧
      refusal (overlaid .view 0x2001FFFD00000000#64) = some .outsideView := by decide
theorem witness_ViewWrites :
    (bench true false []).ovl = true ∧ (bench true false []).romref = some .rom ∧
      response (overlaid .view 0x5001FFFE0000ABCD#64) = some 0x3001FFFE0000ABCD#64 ∧
      refusal (overlaid .view 0x5001FFFF0000ABCD#64) = some .outsideView := by decide
theorem witness_ViewBitOperations :
    (bench true false []).ovl = true ∧ (bench true false []).romref = some .rom ∧ (0x01FFFF#24).toNat ≤ 0x01FFFF ∧
      0x01FFFF < (0x020000#24).toNat ∧ response (overlaid .view 0x7001FFFF00000001#64) = some 0x3001FFFF00000001#64 ∧
      refusal (overlaid .view 0x7002000000000001#64) = some .outsideView ∧
      refusal (overlaid .view 0x3002000000000000#64) = some .outsideView := by decide
theorem witness_ViewServesOnlyWhileActive :
    (bench false false []).ovl = false ∧ State.reset.romref = none ∧
      refusal (on .view 0x0000000000000000#64) = some .viewInactive := ⟨rfl, rfl, by decide⟩
theorem witness_DeviceReads :
    (bench true false []).ext[0]? = some acceptor ∧ acceptor.base.toNat ≤ (0x9FFFFC#24).toNat ∧
      253 ≤ 253 ∧ decode (.reg (.ext 253)) (requestWord 0x0 0 0) = .ok (.extRead8 253 0) ∧
      (0x9FFFFC#24).toNat + 3 ≤ acceptor.last.toNat ∧ (0x9FFFFE#24).toNat + 1 ≤ acceptor.last.toNat ∧
      (0x9FFFFF#24).toNat ≤ acceptor.last.toNat := by decide
theorem witness_DeviceWrites :
    acceptor.permitsAll 0 [.write 0x800000#24 1#8, .write 0x800001#24 2#8] = true ∧
      refuser.permitsAll 1 [.write 0xA00000#24 1#8, .write 0xA00001#24 2#8] = false ∧
      refuser.permitsNone 1 false [.write 0xA00000#24 1#8, .write 0xA00001#24 2#8] = true ∧
      (0x9FFFFC#24).toNat + 3 ≤ acceptor.last.toNat := by decide
theorem witness_DevicesPermitAsAWhole :
    acceptor.permission = .accepts ∧ refuser.permission = .refuses ∧ (bench true false []).ext[1]? = some refuser ∧
      refuser.base.toNat ≤ (0xBFFFFC#24).toNat ∧ (0xBFFFFC#24).toNat + 3 ≤ refuser.last.toNat := by decide
theorem witness_DeviceBitOperations :
    acceptor.hasBitRead = true ∧ chooser.hasBitRead = false ∧ chooser.hasBitWrite = true ∧ refuser.hasBitWrite = false ∧
      acceptor.base.toNat ≤ (0x800000#24).toNat ∧ (0x9FFFFF#24).toNat ≤ acceptor.last.toNat := by decide
theorem witness_DevicesKeepTheirShape : ∃ t, on (.reg (.ext 0)) 0x4080000000000001#64 = .next t ∧
    (bench false false []).ext[0]? = some acceptor := ⟨_, by rfl, by decide⟩
theorem witness_ContainsAndTranslate :
    (bench true false []).bounds .ram = some (0x000000#24, 0x0FFFFF#24) ∧
      (bench true false []).contains .ram 0x0FFFFF#24 = true ∧ (bench true false []).contains .ram 0x100000#24 = false ∧
      (bench true false []).contains .rom 0x3FFFFF#24 = false ∧ (bench true false []).contains .rom 0x400000#24 = true ∧
      (bench true false []).translate .rom 0x400010#24 = some 0x10 := by decide
theorem witness_ResolutionOrder :
    (bench true false []).ovl = true ∧ (bench true false []).romref = some .rom ∧ (0x1FFFF#24).toNat < 0x20000 ∧
      0x20000 ≤ (0x020000#24).toNat ∧ (bench false false []).ovl = false ∧
      (bench true false []).regs = [.ram] ++ .rom :: [.ext 0, .ext 1, .ext 2] ∧
      (∀ q ∈ [Region.ram], (bench true false []).contains q 0x400000#24 = false) ∧
      (bench true false []).contains .rom 0x400000#24 = true ∧
      (∀ q ∈ (bench true false []).regs, (bench true false []).contains q 0x100000#24 = false) := by decide
theorem witness_AlignedCellHasOneTarget :
    (bench true false []).Inv ∧ (0x01FFFC#24).toNat % widthBytes .w32 = 0 ∧ 3 < widthBytes .w32 :=
  ⟨witness_inv _ _ _, by decide⟩
theorem witness_EffectiveMap :
    ({ bench true false [] with regs := [.ram, .rom] } : State).romref = some .rom ∧
      (0x01FFFF#24).toNat ≤ 0x01FFFF ∧ 0x020000 ≤ (0x020000#24).toNat ∧ (0x0FFFFF#24).toNat ≤ 0x0FFFFF ∧
      0x100000 ≤ (0x100000#24).toNat ∧ (0x3FFFFF#24).toNat ≤ 0x3FFFFF ∧ 0x400000 ≤ (0x400000#24).toNat ∧
      (0x41FFFF#24).toNat ≤ 0x41FFFF ∧ 0x420000 ≤ (0x420000#24).toNat ∧ State.reset.romref = none :=
  ⟨rfl, by decide, by decide, by decide, by decide, by decide, by decide, by decide, by decide, rfl⟩
theorem witness_MisalignedComesFirst :
    (0x000001#24).toNat % 2 ≠ 0 ∧ (0x000002#24).toNat % 4 ≠ 0 ∧ (0xFFFFFF#24).toNat % 4 ≠ 0 := by decide
theorem witness_UnclaimedIsUnmapped :
    (bench true false []).resolve 0x100000#24 = .nothing ∧ (bench true false []).resolve 0xFFFFFC#24 = .nothing ∧
      (0x100000#24).toNat % 4 = 0 ∧ (0xFFFFFC#24).toNat % 4 = 0 ∧ (0xFFFFFC#24).toNat % 2 = 0 := by decide
theorem witness_BusReadsStorage :
    (bench true false []).resolve 0x01FFFC#24 = .view .rom ∧ (bench false false []).resolve 0x01FFFC#24 = .region .ram ∧
      (bench true false []).resolve 0x41FFFC#24 = .region .rom ∧ (0x41FFFC#24).toNat = 0x400000 + 0x1FFFC ∧
      (0x41FFFC#24).toNat % 4 = 0 ∧ (0x41FFFC#24).toNat % 2 = 0 := by decide
theorem witness_BusReadsDevice :
    (bench true false []).Inv ∧ (bench true false []).resolve 0x9FFFFC#24 = .region (.ext 0) ∧
      (0x9FFFFC#24).toNat % 4 = 0 := ⟨witness_inv _ _ _, by decide⟩
theorem witness_BusWritesRam :
    (bench false false []).ram.wf = true ∧ (bench false false []).resolve 0x0FFFFC#24 = .region .ram ∧
      (0x0FFFFC#24).toNat % 4 = 0 ∧ (0x0FFFFC#24).toNat % 2 = 0 :=
  ⟨(witness_inv _ _ _).ramWf, by decide⟩
theorem witness_BusWritesToReadOnlyTargets :
    (bench true true []).resolve 0x01FFFC#24 = .view .rom ∧ (bench true false []).resolve 0x400000#24 = .region .rom ∧
      (0x01FFFC#24).toNat % 4 = 0 ∧ (0x400000#24).toNat % 2 = 0 := by decide
theorem witness_BusWritesDevice :
    (bench true true []).Inv ∧ (bench true true []).resolve 0xA00000#24 = .region (.ext 1) ∧
      (bench true true []).ext[1]? = some refuser ∧ (bench true true []).resolve 0x800000#24 = .region (.ext 0) ∧
      refuser.permits 1 (.write 0xA00000#24 1#8) = false ∧ acceptor.permits 0 (.write 0x800000#24 1#8) = true ∧
      acceptor.permitsAll 0 (deviceWrites 0x800000#24 [1#8, 2#8, 3#8, 4#8]) = true ∧
      refuser.permitsNone 1 false (deviceWrites 0xA00000#24 [1#8, 2#8, 3#8, 4#8]) = true :=
  ⟨witness_inv _ _ _, by decide⟩
theorem witness_EveryBusAccessIsAnswered : (bench true true []).Inv := witness_inv _ _ _
theorem witness_FaultPriority :
    (∃ t, exec (.busWrite32 0x400002#24 1#32) (bench true true []) = .next t ∧ replyStatus t = some 0x2#4) ∧
      (∃ t, exec (.busRead16 0x100000#24) (bench true true []) = .next t ∧ replyStatus t = some 0x1#4) ∧
      (∃ t, exec (.busWrite8 0x41FFFF#24 1#8) (bench true true []) = .next t ∧ replyStatus t = some 0x3#4) :=
  ⟨⟨_, by rfl, by decide⟩, ⟨_, by rfl, by decide⟩, ⟨_, by rfl, by decide⟩⟩
theorem witness_OutcomesByOperation :
    (∃ t, loud .bus 0x4000000000000042#64 = .next t ∧ replyStatus t = some 0x3#4) ∧
      (∃ t, on .bus 0x2000000200000000#64 = .next t ∧ replyStatus t = some 0x2#4) ∧
      (∃ t, on (.reg .rom) 0x7040000000000001#64 = .next t ∧ replyStatus t = some 0x3#4) :=
  ⟨⟨_, by rfl, by decide⟩, ⟨_, by rfl, by decide⟩, ⟨_, by rfl, by decide⟩⟩
theorem witness_MixedWidthsSeeEachOther :
    (bench false false []).Inv ∧ (bench false false []).resolve 0x001000#24 = .region .ram ∧
      (0x001000#24).toNat % 4 = 0 := ⟨witness_inv _ _ _, by decide⟩
theorem witness_RamUnderTheOverlayIsOutOfReach :
    (bench true false [.request .bus 0x6001FFFCFFFFFFFF#64]).Inv ∧
      (bench true false [.request .bus 0x6001FFFCFFFFFFFF#64]).romref = some .rom ∧
      response (overlaid .bus 0x6001FFFCFFFFFFFF#64) = some 0#64 ∧
      (∀ o, 0x20000 ≤ o → Memory.byte benchRam o = (bench true false []).ram.byte o) :=
  ⟨witness_inv _ _ _, rfl, by decide, fun _ _ => rfl⟩
theorem witness_OverlaySwitchIsSeenAtOnce :
    (bench true false []).romref = some .rom ∧ (0x01FFFF#24).toNat < 0x20000 ∧
      (bench true false []).scan 0x01FFFF#24 = .region .ram := by decide
theorem witness_RegisterAppends : 2 < (bench true false []).ext.length ∧ (bench true false []).ext.length ≤ 3 := by decide
theorem witness_CycleCounter :
    (bench true false [.counter (.advance 3)]).inputs = [.counter (.advance 3)] ∧ 0 < 60 ∧
      (bench true false [.counter (.ticksForPeriod 0)]).inputs = [.counter (.ticksForPeriod 0)] ∧
      refusal (step (bench true false [.counter (.ticksForPeriod 0)])) = some .zeroFrequency := by decide
theorem witness_CounterIsIndependent :
    (∃ t, exec .isOverlayActive (bench true false []) = .next t) ∧
      (∃ t, serveCounter (.advance 3) (bench true false []) = .next t ∧ t.ticks = 10) := ⟨⟨_, rfl⟩, ⟨_, rfl, rfl⟩⟩
theorem witness_InvKept : ∃ t, (bench false false [.request .bus 0x6000020001020304#64]).Inv ∧
    step (bench false false [.request .bus 0x6000020001020304#64]) = .next t := ⟨_, witness_inv _ _ _, by rfl⟩
theorem witness_RomNeverChanges : ∃ t, step (bench false false [.request (.reg .rom) 0x4040000000000012#64]) = .next t :=
  ⟨_, by rfl⟩
theorem witness_RegistryAndCountOnlyGrow : ∃ t, step (bench false false [.request .cfg 0xA000000000000000#64]) = .next t ∧
    t.regs = [.ram, .rom, .ext 0, .ext 1, .ext 2, .ram] := ⟨_, by rfl, by decide⟩
theorem witness_WhatEachPortCanChange :
    response (on .ovl 0x9000000000000000#64) = some 0#64 ∧ response (on .cfg 0xA000000000000001#64) = some 0#64 ∧
      response (overlaid .view 0x0000000000000000#64) = some 0xA5#64 ∧
      response (on (.reg .rom) 0x0040000000000000#64) = some 0xA5#64 ∧
      response (on (.reg .ram) 0x4000030000000012#64) = some 0#64 ∧
      response (on (.reg (.ext 0)) 0x4080000000000012#64) = some 0#64 := by decide
theorem witness_FaultsChangeNothing : (∃ t, exec (.busRead16 0x000001#24) (bench true false []) = .next t ∧
    t.reply = .word 0x2000000100000000#64 ∧ statusOf 0x2000000100000000#64 ≠ 0x0#4 ∧
    statusOf 0x2000000100000000#64 ≠ 0x3#4) ∧
    ∃ t, exec (.extWrite8 1 0xA00000#24 5#8) (bench true false []) = .next t ∧
      t.reply = .word 0x30A0000000000005#64 ∧ statusOf 0x30A0000000000005#64 ≠ 0x0#4 :=
  ⟨⟨_, by rfl, by decide, by decide, by decide⟩, ⟨_, by rfl, by decide, by decide⟩⟩
theorem witness_StorageReadsRepeat :
    Instr.isStorageRead (.busRead32 0x400000#24) = true ∧
      (∃ t, exec (.busRead32 0x400000#24) (bench true false []) = .next t) ∧
      (bench true false []).resolve 0x400000#24 = .region .rom := ⟨rfl, ⟨_, by rfl⟩, by decide⟩
theorem witness_RamWritesAreIdempotent :
    (bench false false []).ram.wf = true ∧
      (∃ t, exec (.busWrite16 0x0FFFFE#24 0xCAFE#16) (bench false false []) = .next t) ∧
      (bench false false []).resolve 0x0FFFFE#24 = .region .ram := ⟨(witness_inv _ _ _).ramWf, ⟨_, by rfl⟩, by decide⟩

end Sys2Proof.Tests
end

section
/-! The obligations of 00_scope.md: how a step serves its input (R13), and that a fault leaves the block as it was (R11, R177). -/

namespace Sys2Proof.Machine

/-! ### A step serves the head of the inputs (R13) -/

theorem step_of_inputs_nil {s : State} (h : s.inputs = []) : step s = .refused .noRequest := by
  simp only [step, fetch, h]

theorem step_of_inputs_cons {s : State} {x : Input} {rest : List Input} (h : s.inputs = x :: rest) :
    step s = serve x { s with inputs := rest } := by
  simp only [step, fetch, h]

theorem serve_request_ok {p : Port} {w : Word64} {i : Instr} (h : decode p w = .ok i) (s : State) :
    serve (.request p w) s = exec i s := by
  simp only [serve, h]

theorem serve_request_error {p : Port} {w : Word64} {e : DecodeError} (h : decode p w = .error e) (s : State) :
    serve (.request p w) s = .refused (.notARequest e) := by
  simp only [serve, h]

/-! ### What a fault leaves (R11, R177) -/

/-- A response word is laid out as a request word is (R71, R73), so its outcome code is read back as an `op` is. -/
@[simp] theorem statusOf_responseWord (v : Verdict) : statusOf (responseWord v) = statusCode v :=
  opField_requestWord (statusCode v) (faultAddress v) (responseData v)

/-- A fault leaves every piece of state as it was, or is a ReadOnly of a device that decides per access and that its port reaches,
and then only the record of that device may have grown (R97, R104). -/
theorem effect_of_fault {p : Port} {s u : State} {v : Verdict} (he : Effect p s v u) (hv : statusCode v ≠ 0x0#4) :
    u = s ∨ statusCode v = 0x3#4 ∧ ∃ k d xs, (p = .bus ∨ p = .reg (.ext k)) ∧ s.ext[k]? = some d ∧
      d.permission = .perAccess ∧ u = s.setDevice k { d with log := d.log ++ xs } := by
  cases he with
  | answer => exact .inl rfl
  | device hp hd hdev =>
    rcases hdev with ⟨x, rfl⟩ | ⟨hper, a, x, rfl⟩
    · exact absurd rfl hv
    · exact .inr ⟨rfl, _, _, _, hp, hd, hper, rfl⟩
  | ram | overlay | registered => exact absurd rfl hv

end Sys2Proof.Machine

open Sys2Proof Sys2Proof.Machine

/-- Settles O9: a step serves the head of the inputs, and serving a request is running what it decodes to. -/
theorem stepRunsTheDecodedOperation : Obligations.StepRunsTheDecodedOperation :=
  ⟨fun _ _ _ _ _ hs hd => (step_of_inputs_cons hs).trans (serve_request_ok hd _),
    fun _ _ _ _ _ hs hd => (step_of_inputs_cons hs).trans (serve_request_error hd _),
    fun _ _ _ hs => step_of_inputs_cons hs⟩

/-- Settles O10: with no input there is nothing to fetch. -/
theorem noStepWithoutRequest : Obligations.NoStepWithoutRequest :=
  fun _ => step_of_inputs_nil

/-- Settles O55: of the effects an operation can have, a fault has only "nothing changes" and "a device that decides per access
has refused a write". -/
theorem faultsChangeNothing : Obligations.FaultsChangeNothing := by
  intro i s t w h hw hfault
  obtain ⟨v, u, he, rfl⟩ := exec_effect h
  obtain rfl : responseWord v = w := by simpa using hw
  rw [statusOf_responseWord] at hfault ⊢
  rcases effect_of_fault he hfault with rfl | ⟨hcode, k, d, xs, hp, hd, hper, rfl⟩
  · exact ⟨rfl, fun _ => rfl, fun _ => .inl rfl⟩
  · refine ⟨rfl, fun hne => absurd hcode hne, fun j => ?_⟩
    by_cases hj : k = j
    · subst hj
      exact .inr ⟨hp, d, hd, hper⟩
    · exact .inl (List.getElem?_set_ne hj)

end

section
/-! The obligations of 10_state.md: the state after cold reset (R34), what a step can change (R21 to R27), the invariant
every step keeps, and that no step reads the last reply (R30). -/

namespace Sys2Proof.Machine

/-! ### The port an operation was requested on (R70, R75) -/

/-- A word decodes only to operations of the port it arrives on. -/
theorem encodePort_of_decode {p : Port} {w : Word64} {i : Instr} (h : decode p w = .ok i) : encodePort i = p := by
  simp only [decode] at h
  split at h
  · cases h
  · cases p with
    | bus => simp only [decodeBus] at h; split at h <;> cases h <;> rfl
    | ovl => simp only [decodeOvl] at h; split at h <;> cases h <;> rfl
    | cfg => simp only [decodeCfg] at h; split at h <;> cases h; rfl
    | view => simp only [decodeView] at h; split at h <;> cases h <;> rfl
    | reg r =>
      cases r with
      | ram => simp only [decodeRam] at h; split at h <;> cases h <;> rfl
      | rom => simp only [decodeRom] at h; split at h <;> cases h <;> rfl
      | ext k =>
        simp only [decodeExt] at h
        split at h
        · cases h
        · split at h <;> cases h <;> rfl

/-! ### What a step leaves -/

/-- A step either serves a request, with an effect its port allows and the outcome in the reply, or a call of the Cycle Counter,
which moves nothing but the count and the reply. -/
theorem step_effect {s t : State} (h : step s = .next t) :
    (∃ p w rest v u, s.inputs = .request p w :: rest ∧ Effect p { s with inputs := rest } v u ∧ t = u.answered v) ∨
    (∃ c rest n r, s.inputs = .counter c :: rest ∧ t = s.withUnread r (s.ticks + n) rest) := by
  obtain ⟨x, rest, hs, ⟨p, w, i, rfl, hd, he⟩ | ⟨c, rfl, hc⟩⟩ := step_cases h
  · obtain ⟨v, u, heff, rfl⟩ := exec_effect he
    rw [encodePort_of_decode hd] at heff
    exact .inl ⟨p, w, rest, v, u, hs, heff, rfl⟩
  · obtain ⟨n, r, rfl⟩ := serveCounter_next hc
    exact .inr ⟨c, rest, n, r, hs, rfl⟩

section Frame
variable {p : Port} {s u : State} {v : Verdict}

/-- No operation changes the inputs to come, the ROM (R22), the count (R189) or the policy. -/
theorem effect_fixed (he : Effect p s v u) :
    u.inputs = s.inputs ∧ u.rom = s.rom ∧ u.ticks = s.ticks ∧ u.surfaceReadOnly = s.surfaceReadOnly := by
  cases he <;> exact ⟨rfl, rfl, rfl, rfl⟩

theorem effect_ovl (he : Effect p s v u) (hp : p ≠ .ovl) : u.ovl = s.ovl := by
  cases he with
  | overlay h => exact absurd h hp
  | answer | ram | device | registered => rfl

theorem effect_registry (he : Effect p s v u) (hp : p ≠ .cfg) : u.regs = s.regs ∧ u.romref = s.romref := by
  cases he with
  | registered h => exact absurd h hp
  | answer | ram | device | overlay => exact ⟨rfl, rfl⟩

/-- The registry grows at its end or stays (R24). -/
theorem effect_regs_prefix (he : Effect p s v u) : s.regs <+: u.regs := by
  cases he with
  | registered => exact List.prefix_append _ _
  | answer | ram | device | overlay => exact List.prefix_rfl

theorem effect_ram (he : Effect p s v u) (hbus : p ≠ .bus) (hram : p ≠ .reg .ram) : u.ram = s.ram := by
  cases he with
  | ram h => exact absurd h (not_or.2 ⟨hbus, hram⟩)
  | answer | device | overlay | registered => rfl

/-- A device changes only through the bus or its own port. -/
theorem effect_device (he : Effect p s v u) {k : Nat} (hbus : p ≠ .bus) (hk : p ≠ .reg (.ext k)) :
    u.ext[k]? = s.ext[k]? := by
  cases he with
  | @device j _ _ _ h =>
    have hjk : j ≠ k := by
      rintro rfl
      exact not_or.2 ⟨hbus, hk⟩ h
    exact List.getElem?_set_ne hjk
  | answer | ram | overlay | registered => rfl

theorem effect_devices (he : Effect p s v u) (hbus : p ≠ .bus) (hext : ∀ k, p ≠ .reg (.ext k)) : u.ext = s.ext :=
  List.ext_getElem? fun k => effect_device he hbus (hext k)

end Frame

/-! ### The state at reset (R34) -/

section AtReset
variable (rom ram : Memory) (ext : List Device) (policy : Bool)
@[simp] theorem atReset_ram : (State.atReset rom ram ext policy).ram = ram := rfl
@[simp] theorem atReset_rom : (State.atReset rom ram ext policy).rom = rom := rfl
@[simp] theorem atReset_regs : (State.atReset rom ram ext policy).regs = [] := rfl
@[simp] theorem atReset_romref : (State.atReset rom ram ext policy).romref = none := rfl
end AtReset

/-! ### The invariant (R21, R22, R24, R25, R104) -/

section Invariant
variable {s : State}

theorem inv_withUnread (hi : s.Inv) (r : Reply) (n : Nat) (xs : List Input) : (s.withUnread r n xs).Inv :=
  { hi with }

/-- Bytes written inside RAM keep its form (R21). -/
theorem inv_writeBytes (hi : s.Inv) {o : Nat} {bs : List Byte} (h : o + bs.length ≤ 0x100000) :
    ({ s with ram := s.ram.writeBytes o bs } : State).Inv :=
  { hi with ramWf := Memory.wf_writeBytes hi.ramWf, ramBelow := Memory.below_writeBytes hi.ramBelow h }

/-- A device's record is no part of what makes it admissible (R104). -/
theorem inv_setDevice (hi : s.Inv) {k : Nat} {d : Device} (h : s.ext[k]? = some d) (log : List Config.DeviceAccess) :
    (s.setDevice k { d with log := log }).Inv where
  __ := hi
  regsExist j hj := by simpa using hi.regsExist j hj
  devicesAdmissible e he := by
    rcases List.mem_or_eq_of_mem_set he with he | rfl
    · exact hi.devicesAdmissible e he
    · exact hi.devicesAdmissible d (List.mem_of_getElem? h)

/-- Registering the ROM caches it, and registering another region leaves the cached reference (R162). -/
theorem cachedRom_eq_some_rom (r : Region) (old : Option RomTyped) :
    cachedRom r old = some .rom ↔ old = some .rom ∨ r = .rom := by
  cases r <;> simp [cachedRom]

/-- A device with bounds is in the table `EXT` (R90). -/
theorem lt_length_of_bounds {k : Nat} (h : s.bounds (.ext k) ≠ none) : k < s.ext.length := by
  simpa [State.bounds] using h

theorem inv_registered (hi : s.Inv) {r : Region} (h : s.bounds r ≠ none) :
    ({ s with regs := s.regs ++ [r], romref := cachedRom r s.romref } : State).Inv where
  __ := hi
  romrefExact := by
    rw [cachedRom_eq_some_rom, hi.romrefExact, List.mem_append, List.mem_singleton, eq_comm (a := r)]
  regsExist k hk := by
    rcases List.mem_append.1 hk with hk | hk
    · exact hi.regsExist k hk
    · obtain rfl := List.mem_singleton.1 hk
      exact lt_length_of_bounds h

theorem inv_effect {p : Port} {u : State} {v : Verdict} (hi : s.Inv) (he : Effect p s v u) : u.Inv := by
  cases he with
  | answer => exact hi
  | ram _ h => exact inv_writeBytes hi h
  | device _ h _ => exact inv_setDevice hi h _
  | overlay _ => exact { hi with }
  | registered _ h => exact inv_registered hi h

/-- Right after reset nothing is registered or cached, so only the storages and the devices given matter. -/
theorem inv_atReset {rom ram : Memory} {ext : List Device} {policy : Bool}
    (hrom : rom.wf = true ∧ rom.below Config.romSize = true) (hram : ram.wf = true ∧ ram.below Config.ramSize = true)
    (hext : ∀ d ∈ ext, d.admissible = true) : (State.atReset rom ram ext policy).Inv where
  ramWf := hram.1
  ramBelow := hram.2
  romWf := hrom.1
  romBelow := hrom.2
  romrefExact := by simp
  regsExist _ hk := absurd hk List.not_mem_nil
  devicesAdmissible := hext

end Invariant

/-! ### The loader (R203) -/

theorem coldReset_full {image : List Byte} (h : image.length = 131072) (cells : List Host.Cell) (devices : List Device)
    (policy : Bool) : coldReset image cells devices policy = .ok (State.atReset (Memory.ofBytes 0 image)
      (Memory.ofCells Config.ramSize cells) (devices.map Device.fresh) policy) := by
  simp only [coldReset, loadImage_full h]

theorem ofBytes_image_form {image : List Byte} (h : image.length = 131072) :
    (Memory.ofBytes 0 image).wf = true ∧ (Memory.ofBytes 0 image).below Config.romSize = true := by
  have hbelow := Memory.ofBytes_below (bs := image) (o := 0)
  rw [Nat.zero_add, h] at hbelow
  exact ⟨Memory.ofBytes_wf, hbelow⟩

/-- The cells that list the values of `f` at every offset of RAM. -/
def listedRam (f : Nat → Byte) : List Host.Cell := (List.range Config.ramSize).map fun o => (o, f o)

theorem byte_listedRam (f : Nat → Byte) {o : Nat} (h : o < 0x100000) :
    (Memory.ofCells Config.ramSize (listedRam f)).byte o = f o := by
  have hsize : 0x100000 = Config.ramSize := rfl
  rw [hsize] at h
  exact Memory.byte_ofCells_range f le_rfl o h

/-! ### The last reply is not read (R30, R178) -/

section Reply
variable (s : State) (r : Reply)

theorem exec_reply (i : Instr) : exec i { s with reply := r } = exec i s :=
  (exec_unread r s.ticks s.inputs s i).trans (exec_unread s.reply s.ticks s.inputs s i).symm

theorem serveCounter_reply (c : CounterOp) : serveCounter c { s with reply := r } = serveCounter c s := by
  cases c with
  | advance | now => rfl
  | ticksForPeriod hz =>
    simp only [serveCounter, counterPeriod]

theorem serve_reply (x : Input) : serve x { s with reply := r } = serve x s := by
  cases x with
  | counter c => exact serveCounter_reply s r c
  | request p w =>
    cases hd : decode p w with
    | ok i => rw [serve_request_ok hd, serve_request_ok hd, exec_reply]
    | error e => rw [serve_request_error hd, serve_request_error hd]

end Reply

end Sys2Proof.Machine

open Sys2Proof Sys2Proof.Machine

/-- Settles O51: a step is an effect of an operation, and each of the five keeps the invariant, or a call of the counter, which
changes nothing the invariant speaks of. -/
theorem invKept : Obligations.InvKept := by
  intro s t hi h
  obtain ⟨p, w, rest, v, u, -, he, rfl⟩ | ⟨c, rest, n, r, -, rfl⟩ := step_effect h
  · have hstart : ({ s with inputs := rest } : State).Inv := inv_withUnread hi s.reply s.ticks rest
    exact inv_withUnread (inv_effect hstart he) (.word (responseWord v)) u.ticks u.inputs
  · exact inv_withUnread hi r _ rest

/-- Settles O54: the request served is the one at the head, and its effect is one its port allows. -/
theorem whatEachPortCanChange : Obligations.WhatEachPortCanChange := by
  intro s t p w rest hs h
  obtain ⟨p', w', rest', v, u, hs', he, rfl⟩ | ⟨c, _, _, _, hs', -⟩ := step_effect h <;> rw [hs] at hs' <;> cases hs'
  obtain ⟨hinputs, hrom, hticks, hpolicy⟩ := effect_fixed he
  have hovl := effect_ovl he
  have hregistry := effect_registry he
  have hram := effect_ram he
  have hdevice := fun k => effect_device he (k := k)
  have hdevices := effect_devices he
  refine ⟨hinputs, hrom, hticks, hpolicy, hovl, hregistry, ?_, ?_, ?_⟩
  · rintro (rfl | rfl | rfl | rfl) <;> exact ⟨hram nofun nofun, hdevices nofun nofun⟩
  · rintro rfl
    exact hdevices nofun nofun
  · rintro k rfl
    refine ⟨hram nofun nofun, fun j hj => hdevice j nofun ?_⟩
    rintro ⟨⟩
    exact hj rfl

/-- Settles O11: the machine is built from the image's bytes, and cells that list the values of `f` leave RAM as `f`. -/
theorem coldResetValues : Obligations.ColdResetValues := by
  refine ⟨fun image cells devices policy hlen => ?_, fun f => ?_⟩
  · refine ⟨_, coldReset_full hlen cells devices policy, rfl, rfl, rfl, rfl, fun o ho => ?_, rfl, rfl⟩
    simpa using Memory.byte_ofBytes (o := 0) ho
  · refine ⟨listedRam f, fun image devices policy s hs o ho => ?_⟩
    obtain ⟨-, rfl⟩ := coldReset_ok hs
    rw [atReset_ram]
    exact byte_listedRam f ho

/-- Settles O52: no effect of an operation and no call of the counter touches the ROM. -/
theorem romNeverChanges : Obligations.RomNeverChanges := by
  intro s t h
  obtain ⟨_, _, _, _, _, -, he, rfl⟩ | ⟨_, _, _, _, -, rfl⟩ := step_effect h
  · obtain ⟨-, hrom, -, -⟩ := effect_fixed he
    exact hrom
  · rfl

/-- Settles O53: only a registration changes the registry, at its end, and only the counter moves the count, upwards. -/
theorem registryAndCountOnlyGrow : Obligations.RegistryAndCountOnlyGrow := by
  intro s t h
  obtain ⟨_, _, _, _, _, -, he, rfl⟩ | ⟨_, _, n, _, -, rfl⟩ := step_effect h
  · obtain ⟨-, -, hticks, -⟩ := effect_fixed he
    have hregs := effect_regs_prefix he
    exact ⟨hregs, hticks.ge⟩
  · exact ⟨List.prefix_rfl, Nat.le_add_right s.ticks n⟩

/-- Settles O56: serving an input does not read the reply, and neither does fetching it. -/
theorem repliesAreForgotten : Obligations.RepliesAreForgotten := by
  intro s r
  cases hs : s.inputs with
  | nil => exact (step_of_inputs_nil rfl).trans (step_of_inputs_nil hs).symm
  | cons x rest =>
    have hserve := serve_reply { s with inputs := rest } r x
    exact (step_of_inputs_cons rfl).trans (hserve.trans (step_of_inputs_cons hs).symm)

/-- Settles O12: the fields of the reset state, as `State.atReset` sets them. -/
theorem resetState : Obligations.ResetState :=
  ⟨rfl, rfl, rfl, rfl, rfl, rfl, rfl, rfl⟩

/-- Settles O15: both resets build canonical storages, and a device as built is as admissible as the one given. -/
theorem invAtReset : Obligations.InvAtReset := by
  refine ⟨inv_atReset (Memory.ofCells_form _) (Memory.ofCells_form _) (fun _ hd => absurd hd List.not_mem_nil), ?_⟩
  intro image cells devices policy s hadm hs
  obtain ⟨hlen, rfl⟩ := coldReset_ok hs
  refine inv_atReset (ofBytes_image_form hlen) (Memory.ofCells_form _) fun d hd => ?_
  obtain ⟨e, he, rfl⟩ := List.mem_map.1 hd
  exact fresh_admissible (hadm e he)

end

section
/-! The obligations of 20_memory.md: the memory map (R50 to R54), alignment (R44, R49), accesses of different widths to the same
bytes (R43), repeated accesses (R47), and the RAM under the overlay (R52). -/

namespace Sys2Proof.Machine

/-! ### Resolution (R49 to R54) -/

section Resolution
variable {s : State} {a b : Addr}

/-- Outside the overlay, or while it is inactive, the registry decides (R140). -/
theorem resolve_eq_scan (h : s.ovl = false ∨ 0x20000 ≤ a.toNat) : s.resolve a = s.scan a := by
  have hview : ¬ (s.ovl = true ∧ a.toNat < 0x20000) := by
    rintro ⟨hovl, hlow⟩
    rcases h with h | h
    · simp [h] at hovl
    · omega
  simp only [State.resolve, size_rom, if_neg hview]
  split <;> rfl

/-- With no ROM cached the registry decides (R54). -/
theorem resolve_of_romref_none (h : s.romref = none) : s.resolve a = s.scan a := by
  simp only [State.resolve, h]

/-- With a ROM cached, an active overlay answers below its size (R51). -/
theorem resolve_overlay {R : RomTyped} (hovl : s.ovl = true) (hrom : s.romref = some R) (ha : a.toNat < 0x20000) :
    s.resolve a = .view R := by
  simp only [State.resolve, hrom, size_rom, if_pos (And.intro hovl ha)]

/-- Under an active overlay no region answers below 0x20000. -/
theorem overlay_le_of_resolve_region {r : Region} (hovl : s.ovl = true) (hrom : s.romref = some .rom)
    (h : s.resolve a = .region r) : 0x20000 ≤ a.toNat := by
  by_contra hlow
  rw [resolve_overlay hovl hrom (by omega)] at h
  cases h

theorem contains_ram_iff : s.contains .ram a = true ↔ a.toNat ≤ 0x0FFFFF := by
  simp [contains_iff (bounds_ram s)]

theorem contains_rom_iff : s.contains .rom a = true ↔ 0x400000 ≤ a.toNat ∧ a.toNat ≤ 0x41FFFF := by
  simp [contains_iff (bounds_rom s)]

theorem contains_ram_eq_false (h : 0x100000 ≤ a.toNat) : s.contains .ram a = false := by
  rw [Bool.eq_false_iff, Ne, contains_ram_iff]
  omega

theorem contains_rom_eq_false (h : a.toNat < 0x400000 ∨ 0x420000 ≤ a.toNat) : s.contains .rom a = false := by
  rw [Bool.eq_false_iff, Ne, contains_rom_iff]
  omega

/-! The registry of the launch state (R202), address by address. -/

theorem scan_launched_ram (hr : s.regs = [.ram, .rom]) (h : a.toNat ≤ 0x0FFFFF) : s.scan a = .region .ram :=
  scan_first (before := []) hr (fun _ hq => absurd hq List.not_mem_nil) (contains_ram_iff.2 h)

theorem scan_launched_rom (hr : s.regs = [.ram, .rom]) (h : 0x400000 ≤ a.toNat ∧ a.toNat ≤ 0x41FFFF) :
    s.scan a = .region .rom := by
  have hram : s.contains .ram a = false := contains_ram_eq_false (by omega)
  exact scan_first (before := [.ram]) hr (by simpa using hram) (contains_rom_iff.2 h)

theorem scan_launched_hole (hr : s.regs = [.ram, .rom]) (hram : 0x100000 ≤ a.toNat)
    (hrom : a.toNat < 0x400000 ∨ 0x420000 ≤ a.toNat) : s.scan a = .nothing :=
  scan_none (by simp [hr, contains_ram_eq_false hram, contains_rom_eq_false hrom])

/-! The bounds of every region are multiples of 4 (R7, D8), so no region ends inside a 4-byte cell (R49). -/

theorem contains_sameCell (hi : s.Inv) (h : b.toNat / 4 = a.toNat / 4) (r : Region) :
    s.contains r b = s.contains r a := by
  cases hb : s.bounds r with
  | none => simp only [State.contains, hb]
  | some bl =>
    obtain ⟨base, last⟩ := bl
    obtain ⟨hbase, hlast⟩ := bounds_granular hi hb
    rw [Bool.eq_iff_iff, contains_iff hb, contains_iff hb]
    omega

theorem scan_sameCell (hi : s.Inv) (h : b.toNat / 4 = a.toNat / 4) : s.scan b = s.scan a := by
  simp only [State.scan, contains_sameCell hi h]

theorem resolve_sameCell (hi : s.Inv) (h : b.toNat / 4 = a.toNat / 4) : s.resolve b = s.resolve a := by
  have hlow : b.toNat < 0x20000 ↔ a.toNat < 0x20000 := by omega
  simp only [State.resolve, scan_sameCell hi h, size_rom, hlow]

end Resolution

/-! ### Consecutive bytes -/

section ReadBytes
variable {m m' : Memory} {o : Nat}

@[simp] theorem length_readBytes (m : Memory) (o n : Nat) : (m.readBytes o n).length = n := by
  induction n generalizing o with
  | zero => rfl
  | succ n ih => simp [Memory.readBytes, ih]

@[simp] theorem getElem_readBytes {n k : Nat} (h : k < (m.readBytes o n).length) :
    (m.readBytes o n)[k] = m.byte (o + k) := by
  induction n generalizing o k with
  | zero => simp [Memory.readBytes] at h
  | succ n ih =>
    cases k with
    | zero => rfl
    | succ k =>
      simp only [Memory.readBytes, List.getElem_cons_succ, ih]
      congr 1
      omega

theorem readBytes_congr {n : Nat} (h : ∀ k, k < n → m.byte (o + k) = m'.byte (o + k)) :
    m.readBytes o n = m'.readBytes o n := by
  refine List.ext_getElem (by simp) fun k hk _ => ?_
  simpa using h k (by simpa using hk)

/-- A narrower read is a part of a wider one (R43). -/
theorem readBytes_part {k n N : Nat} (h : k + n ≤ N) :
    m.readBytes (o + k) n = ((m.readBytes o N).drop k).take n := by
  refine List.ext_getElem (by simp; omega) fun j hj _ => ?_
  simp [Nat.add_assoc]

/-- The bytes written are the bytes read. -/
theorem readBytes_writeBytes (h : m.wf = true) (bs : List Byte) : (m.writeBytes o bs).readBytes o bs.length = bs := by
  refine List.ext_getElem (by simp) fun k _ hk => ?_
  rw [getElem_readBytes, Memory.byte_writeBytes_inside h hk]

/-- One byte written shows in that byte and in no other (R43). -/
theorem readBytes_write (h : m.wf = true) (k n : Nat) (b : Byte) :
    (m.write (o + k) b).readBytes o n = (m.readBytes o n).set k b := by
  refine List.ext_getElem (by simp) fun j _ _ => ?_
  rw [getElem_readBytes, Memory.byte_write h, List.getElem_set, getElem_readBytes]
  congr 1
  simp only [eq_iff_iff]
  omega

end ReadBytes

/-! ### The parts of a value (R41) -/

/-- Two adjacent fields of a value, one after the other, are one field. -/
theorem field_append_field {n : Nat} (v : BitVec n) (k l lo : Nat) :
    v.extractLsb' (lo + l) k ++ v.extractLsb' lo l = v.extractLsb' lo (k + l) :=
  BitVec.extractLsb'_append_extractLsb'_eq_extractLsb' rfl

/-- So they are when something else stands before them. -/
theorem append_field_append_field {m n : Nat} (x : BitVec m) (v : BitVec n) (k l lo : Nat) :
    x ++ v.extractLsb' (lo + l) k ++ v.extractLsb' lo l =
      (x ++ v.extractLsb' lo (k + l)).cast (Nat.add_assoc ..).symm := by
  rw [BitVec.append_assoc, field_append_field]

/-- Two bytes of a value, composed (R41). -/
theorem composeBytes_fields (v : Data) (lo : Nat) :
    composeBytes [v.extractLsb' (lo + 8) 8, v.extractLsb' lo 8] = (v.extractLsb' lo 16).setWidth 32 := by
  rw [composeBytes_two, field_append_field v 8 8 lo]

/-- Splitting a 32-bit value into bytes and composing them gives it back (R41). -/
theorem composeBytes_splitBytes (v : Data) : composeBytes (splitBytes .w32 v) = v := by
  rw [splitBytes, composeBytes_four, field_append_field v 8 8 16, field_append_field v 16 8 8,
    field_append_field v 24 8 0]
  exact BitVec.extractLsb'_eq_self

theorem splitBytes_byte (b : Byte) : splitBytes .w8 (b.setWidth 32) = [b] := by
  rw [splitBytes, BitVec.extractLsb'_setWidth_of_le (by decide)]
  simp

/-! ### Bus accesses, by what they resolve to (R44, R141) -/

section Bus
variable {s : State} {w : Width} {a : Addr}

theorem memRead_misaligned (h : ¬ aligned w a = true) : memRead w a s = .done (.misaligned a) s := if_neg h

theorem memWrite_misaligned (h : ¬ aligned w a = true) (d : Data) : memWrite w a d s = .done (.misaligned a) s :=
  if_neg h

/-- An aligned access that resolves to RAM lies inside it (R49). -/
theorem ram_of_resolve (hr : s.resolve a = .region .ram) (h : aligned w a = true) :
    a.toNat + widthBytes w ≤ 0x100000 := by
  have hc := contains_ram_iff.1 (contains_of_resolve hr)
  rw [aligned_iff] at h
  cases w <;> simp only [widthBytes] at h ⊢ <;> omega

theorem memRead_ram (hr : s.resolve a = .region .ram) (h : aligned w a = true) :
    memRead w a s = .done (.ok (composeBytes (s.ram.readBytes a.toNat (widthBytes w)))) s := by
  rw [memRead, if_pos h, hr]
  exact (ramRead_eq w a s).trans (if_pos (ram_of_resolve hr h))

theorem memWrite_ram (hr : s.resolve a = .region .ram) (h : aligned w a = true) (d : Data) :
    memWrite w a d s = .done (.ok 0#32) { s with ram := s.ram.writeBytes a.toNat (splitBytes w d) } := by
  rw [memWrite, if_pos h, hr]
  exact congrArg (atBoundary s.surfaceReadOnly) ((ramWrite_eq w a d s).trans (if_pos (ram_of_resolve hr h)))

/-- An operation of P_BUS is one common access, a read or a write (R12). -/
theorem exec_of_busPort {i : Instr} (h : encodePort i = .bus) :
    (∃ w a, ∀ s, exec i s = finish (memRead w a s)) ∨ ∃ w a d, ∀ s, exec i s = finish (memWrite w a d s) := by
  cases i
  case busRead8 a => exact .inl ⟨_, _, exec_busRead8 a⟩
  case busRead16 a => exact .inl ⟨_, _, exec_busRead16 a⟩
  case busRead32 a => exact .inl ⟨_, _, exec_busRead32 a⟩
  case busWrite8 a v => exact .inr ⟨_, _, _, exec_busWrite8 a v⟩
  case busWrite16 a v => exact .inr ⟨_, _, _, exec_busWrite16 a v⟩
  case busWrite32 a v => exact .inr ⟨_, _, _, exec_busWrite32 a v⟩
  all_goals cases h

end Bus

/-- What an operation answers keeps the invariant. -/
theorem inv_exec {i : Instr} {s t : State} (hi : s.Inv) (h : exec i s = .next t) : t.Inv := by
  obtain ⟨v, u, he, rfl⟩ := exec_effect h
  exact { inv_effect hi he with }

/-! ### An aligned cell of RAM, seen through the bus (R43) -/

/-- The four bytes from `a` on are one aligned cell of RAM for the bus, and hold `bs`. -/
structure RamCell (s : State) (a : Addr) (bs : List Byte) : Prop where
  inv : s.Inv
  aligned : a.toNat % 4 = 0
  resolves : s.resolve a = .region .ram
  holds : s.ram.readBytes a.toNat 4 = bs

section Cell
variable {s : State} {a : Addr} {bs : List Byte}

theorem RamCell.toNat_add (h : RamCell s a bs) {k : Nat} (hk : k < 4) :
    (a + BitVec.ofNat 24 k).toNat = a.toNat + k := by
  have := h.aligned
  exact toNat_add_small (by omega)

theorem RamCell.resolves_add (h : RamCell s a bs) {k : Nat} (hk : k < 4) :
    s.resolve (a + BitVec.ofNat 24 k) = .region .ram := by
  have := h.aligned
  rw [← h.resolves]
  refine resolve_sameCell h.inv ?_
  rw [h.toNat_add hk]
  omega

theorem RamCell.aligned_add (h : RamCell s a bs) {w : Width} {k : Nat} (hk : k < 4) (hw : k % widthBytes w = 0) :
    Machine.aligned w (a + BitVec.ofNat 24 k) = true := by
  have := h.aligned
  rw [aligned_iff, h.toNat_add hk]
  cases w <;> simp only [widthBytes] at hw ⊢ <;> omega

/-- A read inside the cell gives the bytes of the cell it covers. -/
theorem RamCell.read (h : RamCell s a bs) {w : Width} {b : Addr} {k : Nat} {x : Data} (hb : b = a + BitVec.ofNat 24 k)
    (hx : composeBytes ((bs.drop k).take (widthBytes w)) = x) (hk : k + widthBytes w ≤ 4 := by decide)
    (hw : k % widthBytes w = 0 := by decide) : finish (memRead w b s) = .next (s.answered (.ok x)) := by
  have hk4 : k < 4 := by have := widthBytes_pos w; omega
  subst hb hx
  rw [memRead_ram (h.resolves_add hk4) (h.aligned_add hk4 hw), h.toNat_add hk4, readBytes_part hk, h.holds,
    finish_done]

/-- A 32-bit write makes the cell hold the bytes of the value. -/
theorem ramCell_write32 (hi : s.Inv) (ha : a.toNat % 4 = 0) (hr : s.resolve a = .region .ram) (v : Data) :
    ∃ t, exec (.busWrite32 a v) s = .next t ∧ RamCell t a (splitBytes .w32 v) := by
  have he : exec (.busWrite32 a v) s = _ :=
    congrArg finish (memWrite_ram (w := .w32) hr (aligned_iff.2 ha) v)
  exact ⟨_, he, inv_exec hi he, ha, hr, readBytes_writeBytes hi.ramWf _⟩

/-- A byte write inside the cell replaces that byte. -/
theorem RamCell.write8 (h : RamCell s a bs) {k : Nat} (hk : k < 4) (b : Byte) :
    ∃ u, exec (.busWrite8 (a + BitVec.ofNat 24 k) b) s = .next u ∧ RamCell u a (bs.set k b) := by
  have hm := memWrite_ram (h.resolves_add hk) (aligned_w8 _) (b.setWidth 32)
  rw [splitBytes_byte, h.toNat_add hk] at hm
  have he : exec (.busWrite8 (a + BitVec.ofNat 24 k) b) s = _ := congrArg finish hm
  refine ⟨_, he, inv_exec h.inv he, h.aligned, h.resolves, ?_⟩
  exact (readBytes_write h.inv.ramWf k 4 b).trans (congrArg (·.set k b) h.holds)

/-- The 32-bit read after a byte write inside the cell. -/
theorem RamCell.read32_write8 (h : RamCell s a bs) {b : Addr} {k : Nat} {y : Byte} {x : Data}
    (hb : b = a + BitVec.ofNat 24 k) (hx : composeBytes ((bs.set k y).take 4) = x) (hk : k < 4 := by decide) :
    ∃ u, exec (.busWrite8 b y) s = .next u ∧ exec (.busRead32 a) u = .next (u.answered (.ok x)) := by
  subst hb
  obtain ⟨u, hu, hcell⟩ := h.write8 hk y
  exact ⟨u, hu, hcell.read (w := .w32) (k := 0) (BitVec.add_zero a).symm hx⟩

end Cell

/-! ### Repeated reads (R47) -/

/-- The operation leaves the state as it was, whatever it answers. -/
def Served.Keeps (s : State) (x : Served) : Prop := ∀ v u, x = .done v u → u = s

section Keeps
variable {s : State}

theorem keeps_done (v : Verdict) : (Served.done v s).Keeps s := by
  rintro _ _ ⟨⟩
  rfl

theorem keeps_within {r : Region} {a : Addr} {n : Nat} {f : Nat → Served} (hn : 0 < n) (h : ∀ o, (f o).Keeps s) :
    (s.within r a n f).Keeps s := by
  intro v u hd
  obtain ⟨_, _, _, _, _, hf⟩ := within_cases hn hd
  exact h _ v u hf

theorem keeps_viewServes {R : RomTyped} {a : Addr} {n : Nat} {x : Served} (h : x.Keeps s) :
    (viewServes R a n s x).Keeps s := by
  intro v u hd
  obtain ⟨-, -, hx⟩ := viewServes_cases hd
  exact h v u hx

theorem keeps_ramRead (w : Width) (a : Addr) : (ramRead w a s).Keeps s :=
  keeps_within (widthBytes_pos w) fun _ => keeps_done _

theorem keeps_romRead (w : Width) (a : Addr) : (romRead w a s).Keeps s :=
  keeps_within (widthBytes_pos w) fun _ => keeps_done _

theorem keeps_romReadBit (a : Addr) : (romReadBit a s).Keeps s :=
  keeps_within Nat.one_pos fun _ => keeps_done _

theorem keeps_ramReadBit (a : Addr) : (ramReadBit a s).Keeps s :=
  keeps_within Nat.one_pos fun _ => keeps_done _

theorem keeps_viewRead (w : Width) (R : RomTyped) (a : Addr) : (viewRead w R a s).Keeps s := by
  refine keeps_viewServes ?_
  rw [region_rom]
  exact keeps_romRead w _

theorem keeps_viewReadBit (R : RomTyped) (a : Addr) : (viewReadBit R a s).Keeps s := by
  cases R
  exact keeps_viewServes (keeps_romReadBit _)

/-- A bus read leaves the state as it was unless it resolves to a device, whose record it would enter (R47, R94). -/
theorem keeps_memRead (w : Width) (a : Addr) (hdev : ∀ k, s.resolve a ≠ .region (.ext k)) : (memRead w a s).Keeps s := by
  by_cases ha : aligned w a = true
  · rw [memRead, if_pos ha]
    cases hr : s.resolve a with
    | view R => exact keeps_viewRead w R a
    | nothing => exact keeps_done _
    | region r =>
      cases r with
      | ram => exact keeps_ramRead w a
      | rom => exact keeps_romRead w a
      | ext k => exact absurd hr (hdev k)
  · rw [memRead_misaligned ha]
    exact keeps_done _

theorem answered_of_keeps {x : Served} {t : State} (hx : x.Keeps s) (h : finish x = .next t) :
    ∃ v, t = s.answered v := by
  obtain ⟨v, u, hd, rfl⟩ := finish_next h
  exact ⟨v, congrArg (·.answered v) (hx v u hd)⟩

/-- A read of storage or of the flag changes nothing but the reply (R47, R160). -/
theorem storageRead_next {i : Instr} {t : State} (hi : i.isStorageRead = true) (h : exec i s = .next t)
    (hdev : ∀ k a, i = .busRead8 a ∨ i = .busRead16 a ∨ i = .busRead32 a → s.resolve a ≠ .region (.ext k)) :
    ∃ v, t = s.answered v := by
  cases i
  case busRead8 a => exact answered_of_keeps (keeps_memRead .w8 a fun k => hdev k a (.inl rfl)) h
  case busRead16 a => exact answered_of_keeps (keeps_memRead .w16 a fun k => hdev k a (.inr (.inl rfl))) h
  case busRead32 a => exact answered_of_keeps (keeps_memRead .w32 a fun k => hdev k a (.inr (.inr rfl))) h
  case ramRead8 a => exact answered_of_keeps (keeps_ramRead .w8 a) h
  case ramRead16 a => exact answered_of_keeps (keeps_ramRead .w16 a) h
  case ramRead32 a => exact answered_of_keeps (keeps_ramRead .w32 a) h
  case ramReadBit a => exact answered_of_keeps (keeps_ramReadBit a) h
  case romRead8 a => exact answered_of_keeps (keeps_romRead .w8 a) h
  case romRead16 a => exact answered_of_keeps (keeps_romRead .w16 a) h
  case romRead32 a => exact answered_of_keeps (keeps_romRead .w32 a) h
  case romReadBit a => exact answered_of_keeps (keeps_romReadBit a) h
  case viewRead8 a => exact answered_of_keeps (keeps_viewRead .w8 .rom a) h
  case viewRead16 a => exact answered_of_keeps (keeps_viewRead .w16 .rom a) h
  case viewRead32 a => exact answered_of_keeps (keeps_viewRead .w32 .rom a) h
  case viewReadBit a => exact answered_of_keeps (keeps_viewReadBit .rom a) h
  case isOverlayActive => exact answered_of_keeps (x := overlayStatus s) (keeps_done _) h
  all_goals cases hi

theorem exec_answered (i : Instr) (v : Verdict) : exec i (s.answered v) = exec i s :=
  exec_reply s (.word (responseWord v)) i

end Keeps

/-! ### Repeated writes of RAM (R47) -/

section Idempotent
variable {s t : State} {w : Width} {a : Addr} {d : Data}

/-- Bytes stored a second time leave the state, with its reply, as it was. -/
theorem store_twice (hwf : s.ram.wf = true) {o : Nat} {bs : List Byte} {v : Verdict}
    (ht : t = ({ s with ram := s.ram.writeBytes o bs } : State).answered v) :
    ({ t with ram := t.ram.writeBytes o bs } : State).answered v = t := by
  subst ht
  simp only [answered_ram, Memory.writeBytes_twice hwf]
  rfl

theorem ramWrite_twice (hwf : s.ram.wf = true) (h : finish (ramWrite w a d s) = .next t) :
    finish (ramWrite w a d t) = .next t := by
  rw [ramWrite_eq] at h ⊢
  split at h <;> cases h
  rw [if_pos ‹_›, finish_done, store_twice hwf rfl]

theorem ramWriteBit_twice {b : Bool} (hwf : s.ram.wf = true) (h : finish (ramWriteBit a b s) = .next t) :
    finish (ramWriteBit a b t) = .next t := by
  rw [ramWriteBit_eq] at h ⊢
  split at h <;> cases h
  rw [if_pos ‹_›, finish_done]
  exact congrArg _ (store_twice (bs := [bitByte b]) hwf rfl)

theorem memWrite_ram_twice (hwf : s.ram.wf = true) (hr : s.resolve a = .region .ram)
    (h : finish (memWrite w a d s) = .next t) : finish (memWrite w a d t) = .next t := by
  by_cases ha : aligned w a = true
  · rw [memWrite_ram hr ha] at h
    cases h
    exact (congrArg finish (memWrite_ram (by exact hr) ha d)).trans (congrArg _ (store_twice hwf rfl))
  · rw [memWrite_misaligned ha] at h ⊢
    cases h
    rfl

end Idempotent

/-! ### What the RAM has no part in (R52, R208) -/

/-- What the requester learns: the outcome, or that there is no step. -/
def Served.outcome : Served → Except Refusal Verdict
  | .done v _ => .ok v
  | .refused r => .error r

section Outcome
variable {s : State} {m : Memory}

theorem finish_of_outcome {x y : Served} {t : State} (h : finish x = .next t) (hy : y.outcome = x.outcome) :
    ∃ t', finish y = .next t' ∧ t'.reply = t.reply := by
  obtain ⟨v, u, rfl, rfl⟩ := finish_next h
  cases y with
  | refused r => cases hy
  | done v' u' =>
    cases hy
    exact ⟨u'.answered v, rfl, rfl⟩

/-- What the bus boundary answers depends on the outcome alone (R148). -/
theorem outcome_atBoundary {x y : Served} (surface : Bool) (h : x.outcome = y.outcome) :
    (atBoundary surface x).outcome = (atBoundary surface y).outcome := by
  cases x <;> cases y <;> cases h
  · rename_i v _ _
    cases v <;> rfl
  · rfl

theorem outcome_within {r : Region} {a : Addr} {n : Nat} {f g : Nat → Served} (hn : 0 < n)
    (h : ∀ o, (f o).outcome = (g o).outcome) :
    (({ s with ram := m } : State).within r a n f).outcome = (s.within r a n g).outcome := by
  have hsame : ({ s with ram := m } : State).bounds r = s.bounds r := rfl
  cases hb : s.bounds r with
  | none => rw [within_noSuchRegion hb, within_noSuchRegion (hsame.trans hb)]
  | some bl =>
    obtain ⟨base, last⟩ := bl
    by_cases hc : base.toNat ≤ a.toNat ∧ a.toNat + n ≤ last.toNat + 1
    · rw [within_done hb hn hc.1 hc.2, within_done (hsame.trans hb) hn hc.1 hc.2]
      exact h _
    · rw [within_outOfBounds hb hc, within_outOfBounds (hsame.trans hb) hc]

theorem outcome_withDevice {k : Nat} {a : Addr} {n : Nat} {f g : Device → Served} (hn : 0 < n)
    (h : ∀ d, (f d).outcome = (g d).outcome) :
    (({ s with ram := m } : State).withDevice k a n f).outcome = (s.withDevice k a n g).outcome := by
  refine outcome_within hn fun _ => ?_
  cases s.ext[k]? with
  | none => rfl
  | some d => exact h d

theorem outcome_ramRead (w : Width) (a : Addr) (h : ∀ k, m.byte (a.toNat + k) = s.ram.byte (a.toNat + k)) :
    (ramRead w a { s with ram := m }).outcome = (ramRead w a s).outcome := by
  rw [ramRead_eq, ramRead_eq, readBytes_congr fun k _ => h k]
  split <;> rfl

theorem outcome_romRead (w : Width) (a : Addr) :
    (romRead w a { s with ram := m }).outcome = (romRead w a s).outcome :=
  outcome_within (widthBytes_pos w) fun _ => rfl

theorem outcome_regionRead (w : Width) (r : Region) (a : Addr)
    (h : r = .ram → ∀ k, m.byte (a.toNat + k) = s.ram.byte (a.toNat + k)) :
    (regionRead w r a { s with ram := m }).outcome = (regionRead w r a s).outcome := by
  cases r with
  | ram => exact outcome_ramRead w a (h rfl)
  | rom => exact outcome_romRead w a
  | ext k => exact outcome_withDevice (widthBytes_pos w) fun _ => rfl

theorem outcome_ramWrite (w : Width) (a : Addr) (d : Data) :
    (ramWrite w a d { s with ram := m }).outcome = (ramWrite w a d s).outcome :=
  outcome_within (widthBytes_pos w) fun _ => rfl

theorem outcome_romWrite (w : Width) (a : Addr) (d : Data) :
    (romWrite w a d { s with ram := m }).outcome = (romWrite w a d s).outcome :=
  outcome_within (widthBytes_pos w) fun _ => rfl

theorem outcome_regionWrite (w : Width) (r : Region) (a : Addr) (d : Data) :
    (regionWrite w r a d { s with ram := m }).outcome = (regionWrite w r a d s).outcome := by
  cases r with
  | ram => exact outcome_ramWrite w a d
  | rom => exact outcome_romWrite w a d
  | ext k => exact outcome_withDevice (widthBytes_pos w) fun e => by cases (e.write k w a d).1 <;> rfl

theorem outcome_viewServes (R : RomTyped) (a : Addr) (n : Nat) {x y : Served} (h : x.outcome = y.outcome) :
    (viewServes R a n { s with ram := m } x).outcome = (viewServes R a n s y).outcome := by
  simp only [viewServes]
  split
  · split
    · exact h
    · rfl
  · rfl

theorem outcome_viewRead (w : Width) (R : RomTyped) (a : Addr) :
    (viewRead w R a { s with ram := m }).outcome = (viewRead w R a s).outcome := by
  cases R
  exact outcome_viewServes .rom a _ (outcome_romRead w _)

theorem outcome_viewWrite (w : Width) (R : RomTyped) (a : Addr) (d : Data) :
    (viewWrite w R a d { s with ram := m }).outcome = (viewWrite w R a d s).outcome :=
  outcome_viewServes R a _ rfl

/-- A bus read tells nothing of RAM but, where it resolves to it, the bytes from its address on. -/
theorem outcome_memRead (w : Width) (a : Addr)
    (h : s.resolve a = .region .ram → ∀ k, m.byte (a.toNat + k) = s.ram.byte (a.toNat + k)) :
    (memRead w a { s with ram := m }).outcome = (memRead w a s).outcome := by
  have hsame : ({ s with ram := m } : State).resolve a = s.resolve a := rfl
  simp only [memRead, hsame]
  split
  · cases hr : s.resolve a with
    | view R => exact outcome_viewRead w R a
    | region r => exact outcome_regionRead w r a fun hram => h (by rw [hr, hram])
    | nothing => rfl
  · rfl

/-- A bus write tells nothing of RAM. -/
theorem outcome_memWrite (w : Width) (a : Addr) (d : Data) :
    (memWrite w a d { s with ram := m }).outcome = (memWrite w a d s).outcome := by
  have hsame : ({ s with ram := m } : State).resolve a = s.resolve a := rfl
  simp only [memWrite, hsame]
  split
  · cases s.resolve a with
    | view R => exact outcome_atBoundary _ (outcome_viewWrite w R a d)
    | region r => exact outcome_atBoundary _ (outcome_regionWrite w r a d)
    | nothing => rfl
  · rfl

end Outcome

/-! ### The RAM under the overlay (R52, R208) -/

section UnderOverlay
variable {s u : State} {w : Width} {a : Addr} {d : Data} {v : Verdict}

theorem ram_regionRead {r : Region} (h : regionRead w r a s = .done v u) : u.ram = s.ram := by
  cases r with
  | ram => exact effect_ram (effect_ramRead (p := .view) h) nofun nofun
  | rom => exact effect_ram (effect_romRead (p := .view) h) nofun nofun
  | ext k => exact effect_ram (effect_extRead (.inr rfl) h) nofun nofun

theorem ram_regionWrite {r : Region} (hr : r ≠ .ram) (h : regionWrite w r a d s = .done v u) : u.ram = s.ram := by
  cases r with
  | ram => exact absurd rfl hr
  | rom => exact effect_ram (effect_romWrite (p := .view) h) nofun nofun
  | ext k => exact effect_ram (effect_extWrite (.inr rfl) h) nofun nofun

theorem ram_atBoundary {surface : Bool} {x : Served} (hx : ∀ v, x = .done v u → u.ram = s.ram)
    (h : atBoundary surface x = .done v u) : u.ram = s.ram := by
  obtain hd | ⟨_, _, hd, -⟩ := atBoundary_done h <;> exact hx _ hd

/-- No bus read changes RAM (R47). -/
theorem ram_memRead (h : memRead w a s = .done v u) : u.ram = s.ram := by
  simp only [memRead] at h
  split at h
  · split at h
    · exact effect_ram (effect_viewRead (p := .view) h) nofun nofun
    · exact ram_regionRead h
    · cases h; rfl
  · cases h; rfl

/-- A bus write changes RAM only where it resolves to it, and then in the bytes from its address on (R141). -/
theorem ram_memWrite (h : memWrite w a d s = .done v u) :
    u.ram = s.ram ∨ s.resolve a = .region .ram ∧ u.ram = s.ram.writeBytes a.toNat (splitBytes w d) := by
  by_cases hram : s.resolve a = .region .ram ∧ aligned w a = true
  · obtain ⟨hr, ha⟩ := hram
    rw [memWrite_ram hr ha] at h
    cases h
    exact .inr ⟨hr, rfl⟩
  · left
    simp only [memWrite] at h
    split at h
    · split at h
      · exact ram_atBoundary (fun _ hx => effect_ram (effect_viewWrite (p := .view) hx) nofun nofun) h
      · rename_i ha _ r hr
        have hne : r ≠ .ram := by
          rintro rfl
          exact hram ⟨hr, ha⟩
        exact ram_atBoundary (fun _ => ram_regionWrite hne) h
      · cases h; rfl
    · cases h; rfl

section Active
variable {i : Instr} {t : State} (hovl : s.ovl = true) (hrom : s.romref = some .rom) (hp : encodePort i = .bus)
include hovl hrom hp

/-- Under an active overlay a bus operation changes no RAM byte below 0x20000. -/
theorem byte_busOp_under_overlay (hwf : s.ram.wf = true) (h : exec i s = .next t) {o : Nat} (ho : o < 0x20000) :
    t.ram.byte o = s.ram.byte o := by
  rcases exec_of_busPort hp with ⟨w, a, he⟩ | ⟨w, a, d, he⟩
  · rw [he] at h
    obtain ⟨v, u, hd, rfl⟩ := finish_next h
    rw [answered_ram, ram_memRead hd]
  · rw [he] at h
    obtain ⟨v, u, hd, rfl⟩ := finish_next h
    rcases ram_memWrite hd with hu | ⟨hr, hu⟩
    · rw [answered_ram, hu]
    · have hle := overlay_le_of_resolve_region hovl hrom hr
      rw [answered_ram, hu, Memory.byte_writeBytes_outside hwf (.inl (by omega))]

/-- Under an active overlay the reply of a bus operation is the same for every contents of RAM below 0x20000. -/
theorem reply_busOp_under_overlay (h : exec i s = .next t) {m : Memory}
    (hm : ∀ o, 0x20000 ≤ o → m.byte o = s.ram.byte o) :
    ∃ t', exec i { s with ram := m } = .next t' ∧ t'.reply = t.reply := by
  rcases exec_of_busPort hp with ⟨w, a, he⟩ | ⟨w, a, d, he⟩
  · rw [he] at h ⊢
    refine finish_of_outcome h (outcome_memRead w a fun hr k => hm _ ?_)
    have hle := overlay_le_of_resolve_region hovl hrom hr
    omega
  · rw [he] at h ⊢
    exact finish_of_outcome h (outcome_memWrite w a d)

end Active

end UnderOverlay

end Sys2Proof.Machine

open Sys2Proof Sys2Proof.Machine

/-- Settles O33: a cell of 4 bytes covers the access, and no region and no view ends inside it. -/
theorem alignedCellHasOneTarget : Obligations.AlignedCellHasOneTarget := by
  intro s w a k hi ha hk
  have hcell : a.toNat + k < 2 ^ 24 ∧ (a.toNat + k) / 4 = a.toNat / 4 := by
    cases w <;> simp only [widthBytes] at ha hk <;> omega
  obtain ⟨hwrap, hdiv⟩ := hcell
  refine ⟨hwrap, resolve_sameCell hi ?_⟩
  rw [toNat_add_small hwrap, hdiv]

/-- Settles O34: the view where the overlay's conditions hold, and elsewhere the scan of RAM and ROM. -/
theorem effectiveMap : Obligations.EffectiveMap := by
  refine ⟨fun s a hr hrom => ⟨?_, ?_, ?_, ?_, ?_, ?_⟩, fun s a hnone => ?_⟩
  · intro hlow hovl
    exact resolve_overlay hovl hrom (by omega)
  · intro hlow hovl
    rw [resolve_eq_scan (.inl hovl), scan_launched_ram hr (by omega)]
  · intro hlo hhi
    rw [resolve_eq_scan (.inr hlo), scan_launched_ram hr hhi]
  · intro hlo hhi
    rw [resolve_eq_scan (.inr (by omega)), scan_launched_hole hr hlo (by omega)]
  · intro hlo hhi
    rw [resolve_eq_scan (.inr (by omega)), scan_launched_rom hr ⟨hlo, hhi⟩]
  · intro hlo
    rw [resolve_eq_scan (.inr (by omega)), scan_launched_hole hr (by omega) (.inr hlo)]
  · have hscan (b : Bool) : ({ s with ovl := b } : State).resolve a = s.scan a := resolve_of_romref_none hnone
    rw [hscan, hscan]

/-- Settles O35: the alignment test stands before resolution in both common accesses. -/
theorem misalignedComesFirst : Obligations.MisalignedComesFirst := by
  intro s a
  have hmis {w : Width} (h : a.toNat % widthBytes w ≠ 0) : ¬ aligned w a = true := mt aligned_iff.1 h
  refine ⟨fun h => ⟨?_, fun v => ?_⟩, fun h => ⟨?_, fun v => ?_⟩⟩
  · exact congrArg finish (memRead_misaligned (hmis (w := .w16) h))
  · exact congrArg finish (memWrite_misaligned (hmis (w := .w16) h) _)
  · exact congrArg finish (memRead_misaligned (hmis (w := .w32) h))
  · exact congrArg finish (memWrite_misaligned (hmis (w := .w32) h) _)

/-- Settles O44: after the write the cell holds the value's four bytes; each read takes its part of them, and a byte write
replaces one. -/
theorem mixedWidthsSeeEachOther : Obligations.MixedWidthsSeeEachOther := by
  intro s a v hi hr ha
  obtain ⟨t, ht, hcell⟩ := ramCell_write32 hi ha hr v
  have h0 : a = a + BitVec.ofNat 24 0 := (BitVec.add_zero a).symm
  refine ⟨t, ht, hcell.read (w := .w8) h0 (composeBytes_one _), hcell.read (w := .w8) (k := 1) rfl (composeBytes_one _),
    hcell.read (w := .w8) (k := 2) rfl (composeBytes_one _), hcell.read (w := .w8) (k := 3) rfl (composeBytes_one _),
    hcell.read (w := .w16) h0 (composeBytes_fields v 16), hcell.read (w := .w16) (k := 2) rfl (composeBytes_fields v 0),
    hcell.read (w := .w32) h0 (composeBytes_splitBytes v), fun b => ⟨?_, ?_, ?_, ?_⟩⟩
  · refine hcell.read32_write8 h0 ((composeBytes_four ..).trans ?_)
    have hhigh := append_field_append_field b v 8 8 8
    exact (congrArg (· ++ v.extractLsb' 0 8) hhigh).trans (append_field_append_field b v 16 8 0)
  · exact hcell.read32_write8 (k := 1) rfl ((composeBytes_four ..).trans (append_field_append_field _ v 8 8 0))
  · refine hcell.read32_write8 (k := 2) rfl ((composeBytes_four ..).trans ?_)
    rw [field_append_field v 8 8 16]
  · refine hcell.read32_write8 (k := 3) rfl ((composeBytes_four ..).trans ?_)
    rw [field_append_field v 8 8 16, field_append_field v 16 8 8]

/-- Settles O45: RAM answers no bus access below the overlay's end, and elsewhere the bytes under it have no part. -/
theorem ramUnderTheOverlayIsOutOfReach : Obligations.RamUnderTheOverlayIsOutOfReach := by
  intro s w rest t hi hovl hrom hs h
  have hstep (m : Memory) : step { s with ram := m } = serve _ { s with ram := m, inputs := rest } :=
    step_of_inputs_cons hs
  rw [hstep s.ram] at h
  cases hd : decode .bus w with
  | error e =>
    rw [serve_request_error hd] at h
    cases h
  | ok i =>
    rw [serve_request_ok hd] at h
    have hp := encodePort_of_decode hd
    refine ⟨fun o ho => byte_busOp_under_overlay (s := { s with inputs := rest }) hovl hrom hp hi.ramWf h ho,
      fun m hm => ?_⟩
    rw [hstep, serve_request_ok hd]
    exact reply_busOp_under_overlay (s := { s with inputs := rest }) hovl hrom hp h hm

/-- Settles O57: such a read changes nothing but the reply, and no operation reads the reply. -/
theorem storageReadsRepeat : Obligations.StorageReadsRepeat := by
  intro i s t hi h hdev
  obtain ⟨v, rfl⟩ := storageRead_next hi h hdev
  exact ⟨rfl, (exec_answered i v).trans h⟩

/-- Settles O58: bytes already stored are stored again. -/
theorem ramWritesAreIdempotent : Obligations.RamWritesAreIdempotent := by
  intro i s t hwf h hi
  rcases hi with ⟨a, v, rfl⟩ | ⟨a, v, rfl⟩ | ⟨a, v, rfl⟩ | ⟨a, b, rfl⟩ | ⟨a, v, rfl, hr⟩ | ⟨a, v, rfl, hr⟩ |
    ⟨a, v, rfl, hr⟩
  · exact ramWrite_twice hwf h
  · exact ramWrite_twice hwf h
  · exact ramWrite_twice hwf h
  · exact ramWriteBit_twice hwf h
  · exact memWrite_ram_twice hwf hr h
  · exact memWrite_ram_twice hwf hr h
  · exact memWrite_ram_twice hwf hr h

end

section
/-! The obligations of 30_encoding.md: decoding and encoding undo each other (R71 to R76), the bits an operation does not read
(R72), the canonical words (R81), the response word (R73, R74), and the words that are no request (R77). -/

namespace Sys2Proof

/-! ### Decoding a word made of its fields (R71) -/

section Decode
variable (op : BitVec 4) (a : Addr) (d : Data)

@[simp] theorem decode_bus_requestWord : decode .bus (requestWord op a d) = decodeBus op.toNat a d := by
  simp [decode]

@[simp] theorem decode_ovl_requestWord : decode .ovl (requestWord op a d) = decodeOvl op.toNat d := by
  simp [decode]

@[simp] theorem decode_cfg_requestWord : decode .cfg (requestWord op a d) = decodeCfg op.toNat d := by
  simp [decode]

@[simp] theorem decode_ram_requestWord : decode (.reg .ram) (requestWord op a d) = decodeRam op.toNat a d := by
  simp [decode]

@[simp] theorem decode_rom_requestWord : decode (.reg .rom) (requestWord op a d) = decodeRom op.toNat a d := by
  simp [decode]

@[simp] theorem decode_ext_requestWord (k : Nat) :
    decode (.reg (.ext k)) (requestWord op a d) = decodeExt k op.toNat a d := by
  simp [decode]

@[simp] theorem decode_view_requestWord : decode .view (requestWord op a d) = decodeView op.toNat a d := by
  simp [decode]

end Decode

theorem decode_of_rsv_ne_zero {w : Word64} (h : rsvField w ≠ 0#4) (p : Port) : decode p w = .error .reservedBits :=
  if_pos h

theorem rsvField_of_decode {p : Port} {w : Word64} {i : Instr} (h : decode p w = .ok i) : rsvField w = 0#4 := by
  by_contra hrsv
  rw [decode_of_rsv_ne_zero hrsv] at h
  cases h

theorem exists_requestWord {w : Word64} (h : rsvField w = 0#4) : ∃ op a d, w = requestWord op a d :=
  ⟨_, _, _, (requestWord_of_fields h).symm⟩

/-- The spelling `simp` gives the bit that `getLsbD_bitData` reads. -/
@[simp] theorem getElem_bitData (b : Bool) : (bitData b)[0] = b := getLsbD_bitData b

/-- The match of `decodeExt` is reached when a handle can name the device (R76). -/
theorem not_lastDevice_lt {k : Nat} (h : (Region.ext k).wellFormed = true) : ¬ Config.lastDevice < k :=
  Nat.not_lt.2 (of_decide_eq_true h)

/-! ### Decoding the canonical word (R81) -/

/-- Each operation's fields stand in its word where the decoder of its port looks for them. -/
theorem decode_encodeWord {i : Instr} (hi : i.wellFormed = true) : decode (encodePort i) (encodeWord i) = .ok i := by
  cases i with
  | busRead8 | busRead16 | busRead32 | busWrite8 | busWrite16 | busWrite32 => simp [encodePort, encodeWord, decodeBus]
  | ramRead8 | ramRead16 | ramRead32 | ramReadBit | ramWrite8 | ramWrite16 | ramWrite32 | ramWriteBit =>
    simp [encodePort, encodeWord, decodeRam]
  | romRead8 | romRead16 | romRead32 | romReadBit | romWrite8 | romWrite16 | romWrite32 | romWriteBit =>
    simp [encodePort, encodeWord, decodeRom]
  | viewRead8 | viewRead16 | viewRead32 | viewReadBit | viewWrite8 | viewWrite16 | viewWrite32 | viewWriteBit =>
    simp [encodePort, encodeWord, decodeView]
  | extRead8 | extRead16 | extRead32 | extReadBit | extWrite8 | extWrite16 | extWrite32 | extWriteBit =>
    simp [encodePort, encodeWord, decodeExt, not_lastDevice_lt hi]
  | isOverlayActive | setOverlayActive => simp [encodePort, encodeWord, decodeOvl]
  | register => simp [encodePort, encodeWord, decodeCfg, regionOfHandle_handle hi]

/-- Two well-formed operations with one port and one canonical word are one operation. -/
theorem eq_of_encode_eq {i j : Instr} (hi : i.wellFormed = true) (hj : j.wellFormed = true)
    (hp : encodePort i = encodePort j) (hw : encodeWord i = encodeWord j) : i = j := by
  have h := decode_encodeWord hi
  rw [hp, hw, decode_encodeWord hj] at h
  exact (Except.ok.inj h).symm

/-! ### A word of fields under the mask of an operation (R72) -/

section Masks
variable (op : BitVec 4) (a : Addr) (d : Data)

theorem op_and_allOnes : op &&& 0xF#4 = op := BitVec.and_allOnes

theorem addr_and_allOnes : a &&& 0xFFFFFF#24 = a := BitVec.and_allOnes

/-- An operation that reads the address keeps `op`, `rsv` and `addr`. -/
theorem requestWord_and_access (dm : Data) :
    requestWord op a d &&& (0xFFFFFFFF#32 ++ dm) = requestWord op a (d &&& dm) := by
  have hfields := requestWord_and op 0xF#4 a 0xFFFFFF#24 d dm
  rwa [op_and_allOnes, addr_and_allOnes] at hfields

/-- An operation that ignores the address keeps `op` and `rsv`. -/
theorem requestWord_and_control (dm : Data) :
    requestWord op a d &&& (0xFF000000#32 ++ dm) = requestWord op 0#24 (d &&& dm) := by
  have hfields := requestWord_and op 0xF#4 a 0#24 d dm
  rwa [op_and_allOnes, BitVec.and_zero] at hfields

@[simp] theorem requestWord_and_read : requestWord op a d &&& 0xFFFFFFFF00000000#64 = requestWord op a 0#32 :=
  (requestWord_and_access op a d 0#32).trans (congrArg _ BitVec.and_zero)

@[simp] theorem requestWord_and_write8 :
    requestWord op a d &&& 0xFFFFFFFF000000FF#64 = requestWord op a ((d.extractLsb' 0 8).setWidth 32) :=
  (requestWord_and_access op a d 0xFF#32).trans (congrArg _ (byte_as_mask d).symm)

@[simp] theorem requestWord_and_write16 :
    requestWord op a d &&& 0xFFFFFFFF0000FFFF#64 = requestWord op a ((d.extractLsb' 0 16).setWidth 32) :=
  (requestWord_and_access op a d 0xFFFF#32).trans (congrArg _ (half_as_mask d).symm)

@[simp] theorem requestWord_and_write32 : requestWord op a d &&& 0xFFFFFFFFFFFFFFFF#64 = requestWord op a d :=
  BitVec.and_allOnes

@[simp] theorem requestWord_and_writeBit :
    requestWord op a d &&& 0xFFFFFFFF00000001#64 = requestWord op a (bitData (d.getLsbD 0)) :=
  (requestWord_and_access op a d 1#32).trans (congrArg _ (bit_as_mask d).symm)

@[simp] theorem requestWord_and_none : requestWord op a d &&& 0xFF00000000000000#64 = requestWord op 0#24 0#32 :=
  (requestWord_and_control op a d 0#32).trans (congrArg _ BitVec.and_zero)

@[simp] theorem requestWord_and_flag :
    requestWord op a d &&& 0xFF00000000000001#64 = requestWord op 0#24 (bitData (d.getLsbD 0)) :=
  (requestWord_and_control op a d 1#32).trans (congrArg _ (bit_as_mask d).symm)

@[simp] theorem requestWord_and_handle :
    requestWord op a d &&& 0xFF000000000000FF#64 = requestWord op 0#24 ((d.extractLsb' 0 8).setWidth 32) :=
  (requestWord_and_control op a d 0xFF#32).trans (congrArg _ (byte_as_mask d).symm)

end Masks

/-! ### The words as numbers (R81) -/

theorem requestWord_eq_or (op : BitVec 4) (a : Addr) (d : Data) :
    requestWord op a d = (op.setWidth 64 <<< 60) ||| (a.setWidth 64 <<< 32) ||| d.setWidth 64 := by
  apply BitVec.eq_of_getLsbD_eq
  intro n hn
  rw [getLsbD_requestWord]
  by_cases h1 : n < 32
  · simp [h1, show n < 60 by omega, show n < 64 by omega]
  · have hd : d.getLsbD n = false := BitVec.getLsbD_of_ge d n (by omega)
    by_cases h2 : n < 56
    · simp [h1, h2, hn, hd, show n < 60 by omega]
    · have ha : a.getLsbD (n - 32) = false := BitVec.getLsbD_of_ge a (n - 32) (by omega)
      by_cases h3 : n < 60
      · simp [h1, h2, h3, hd, ha]
      · simp [h1, h2, h3, hn, hd, ha]

theorem setWidth_bitData (b : Bool) : (bitData b).setWidth 64 = if b then 1#64 else 0#64 := by
  cases b <;> rfl

/-! ### Which words decode (R70, R75) -/

section Accepted
variable {n : Nat} {a : Addr} {d : Data}

theorem decodeBus_ok_iff : (∃ i, decodeBus n a d = .ok i) ↔ n ∈ [0x0, 0x1, 0x2, 0x4, 0x5, 0x6] := by
  unfold decodeBus
  split <;> simp_all

theorem decodeOvl_ok_iff : (∃ i, decodeOvl n d = .ok i) ↔ n ∈ [0x8, 0x9] := by
  unfold decodeOvl
  split <;> simp_all

theorem decodeCfg_ok_iff : (∃ i, decodeCfg n d = .ok i) ↔ n = 0xA := by
  unfold decodeCfg
  split <;> simp_all

theorem decodeRam_ok_iff : (∃ i, decodeRam n a d = .ok i) ↔ n ≤ 0x7 := by
  unfold decodeRam
  split <;> simp_all
  omega

theorem decodeRom_ok_iff : (∃ i, decodeRom n a d = .ok i) ↔ n ≤ 0x7 := by
  unfold decodeRom
  split <;> simp_all
  omega

theorem decodeView_ok_iff : (∃ i, decodeView n a d = .ok i) ↔ n ≤ 0x7 := by
  unfold decodeView
  split <;> simp_all
  omega

theorem decodeExt_ok_iff {k : Nat} :
    (∃ i, decodeExt k n a d = .ok i) ↔ (Region.ext k).wellFormed = true ∧ n ≤ 0x7 := by
  simp only [Region.wellFormed, decide_eq_true_eq]
  unfold decodeExt
  split
  · simp_all
  · split <;> simp_all
    omega

end Accepted

end Sys2Proof

namespace Sys2Proof.Machine

/-- With `rsv` zero, the port's existence and the code decide; every address and every data value is legal (R77). -/
theorem decode_requestWord_ok_iff {p : Port} {op : BitVec 4} {a : Addr} {d : Data} :
    (∃ i, decode p (requestWord op a d) = .ok i) ↔ p.wellFormed = true ∧ portAccepts p op.toNat = true := by
  cases p with
  | bus => simp [Port.wellFormed, portAccepts, decodeBus_ok_iff]
  | ovl => simp [Port.wellFormed, portAccepts, decodeOvl_ok_iff]
  | cfg => simp [Port.wellFormed, portAccepts, decodeCfg_ok_iff]
  | view => simp [Port.wellFormed, portAccepts, decodeView_ok_iff]
  | reg r =>
    cases r with
    | ram => simp [Port.wellFormed, Region.wellFormed, portAccepts, decodeRam_ok_iff]
    | rom => simp [Port.wellFormed, Region.wellFormed, portAccepts, decodeRom_ok_iff]
    | ext k => simp [Port.wellFormed, portAccepts, decodeExt_ok_iff]

theorem decode_ok_iff {p : Port} {w : Word64} : (∃ i, decode p w = .ok i) ↔
    rsvField w = 0#4 ∧ p.wellFormed = true ∧ portAccepts p (opField w).toNat = true := by
  by_cases hrsv : rsvField w = 0#4
  · obtain ⟨op, a, d, rfl⟩ := exists_requestWord hrsv
    simp [decode_requestWord_ok_iff]
  · simp [decode_of_rsv_ne_zero hrsv, hrsv]

/-! ### The bits an operation reads (R72) -/

/-- What a word decodes to is well-formed, and its canonical word is that word with the bits it does not read cleared:
each branch of a port's decoder takes from the fields what the mask of its operation leaves of them. -/
theorem canonical_of_decode {p : Port} {w : Word64} {i : Instr} (h : decode p w = .ok i) :
    i.wellFormed = true ∧ encodeWord i = w &&& usedBits i := by
  obtain ⟨op, a, d, rfl⟩ := exists_requestWord (rsvField_of_decode h)
  obtain ⟨n, hn, rfl⟩ : ∃ n, op.toNat = n ∧ BitVec.ofNat 4 n = op := ⟨_, rfl, BitVec.ofNat_toNat _ _⟩
  cases p with
  | bus =>
    simp only [decode_bus_requestWord, hn, decodeBus] at h
    split at h <;> cases h <;> simp [Instr.wellFormed, Instr.namedRegion, encodeWord, usedBits]
  | ovl =>
    simp only [decode_ovl_requestWord, hn, decodeOvl] at h
    split at h <;> cases h <;> simp [Instr.wellFormed, Instr.namedRegion, encodeWord, usedBits]
  | cfg =>
    simp only [decode_cfg_requestWord, hn, decodeCfg] at h
    split at h <;> cases h
    simp [Instr.wellFormed, Instr.namedRegion, regionOfHandle_wellFormed, encodeWord, handle_regionOfHandle, usedBits]
  | view =>
    simp only [decode_view_requestWord, hn, decodeView] at h
    split at h <;> cases h <;> simp [Instr.wellFormed, Instr.namedRegion, encodeWord, usedBits]
  | reg r =>
    cases r with
    | ram =>
      simp only [decode_ram_requestWord, hn, decodeRam] at h
      split at h <;> cases h <;> simp [Instr.wellFormed, Instr.namedRegion, Region.wellFormed, encodeWord, usedBits]
    | rom =>
      simp only [decode_rom_requestWord, hn, decodeRom] at h
      split at h <;> cases h <;> simp [Instr.wellFormed, Instr.namedRegion, Region.wellFormed, encodeWord, usedBits]
    | ext k =>
      simp only [decode_ext_requestWord, hn, decodeExt] at h
      split at h
      · cases h
      · next hk =>
        have hwf : (Region.ext k).wellFormed = true := decide_eq_true (Nat.not_lt.1 hk)
        split at h <;> cases h <;> simp [Instr.wellFormed, Instr.namedRegion, hwf, encodeWord, usedBits]

/-- R72's table by operation code: the bits an operation reads do not depend on the port. -/
def bitsReadBy (op : BitVec 4) : Word64 :=
  match op.toNat with
  | 0x4 => 0xFFFFFFFF000000FF#64
  | 0x5 => 0xFFFFFFFF0000FFFF#64
  | 0x6 => 0xFFFFFFFFFFFFFFFF#64
  | 0x7 => 0xFFFFFFFF00000001#64
  | 0x8 => 0xFF00000000000000#64
  | 0x9 => 0xFF00000000000001#64
  | 0xA => 0xFF000000000000FF#64
  | _ => 0xFFFFFFFF00000000#64

theorem usedBits_eq_bitsReadBy (i : Instr) : usedBits i = bitsReadBy (opField (encodeWord i)) := by
  cases i <;> simp [usedBits, bitsReadBy, encodeWord]

theorem fields_bitsReadBy (op : BitVec 4) : opField (bitsReadBy op) = 0xF#4 ∧ rsvField (bitsReadBy op) = 0xF#4 := by
  revert op
  decide

/-- Every operation reads `op`. -/
theorem opField_and_usedBits (w : Word64) (i : Instr) : opField (w &&& usedBits i) = opField w := by
  obtain ⟨hmask, -⟩ := fields_bitsReadBy (opField (encodeWord i))
  rw [← usedBits_eq_bitsReadBy] at hmask
  calc opField (w &&& usedBits i)
    _ = opField w &&& opField (usedBits i) := BitVec.extractLsb'_and
    _ = opField w := by rw [hmask, op_and_allOnes]

/-- Every operation reads `rsv`. -/
theorem rsvField_and_usedBits (w : Word64) (i : Instr) : rsvField (w &&& usedBits i) = rsvField w := by
  obtain ⟨-, hmask⟩ := fields_bitsReadBy (opField (encodeWord i))
  rw [← usedBits_eq_bitsReadBy] at hmask
  calc rsvField (w &&& usedBits i)
    _ = rsvField w &&& rsvField (usedBits i) := BitVec.extractLsb'_and
    _ = rsvField w := by rw [hmask, op_and_allOnes]

theorem usedBits_of_decode {p : Port} {w : Word64} {i : Instr} (h : decode p w = .ok i) :
    usedBits i = bitsReadBy (opField w) := by
  obtain ⟨-, hword⟩ := canonical_of_decode h
  rw [usedBits_eq_bitsReadBy, hword, opField_and_usedBits]

/-! ### The response word (R73, R74) -/

/-- A response word is laid out as a request word is (R71, R73). -/
theorem responseWord_eq_requestWord (v : Verdict) :
    responseWord v = requestWord (statusCode v) (faultAddress v) (responseData v) := rfl

@[simp] theorem rsvField_responseWord (v : Verdict) : (responseWord v).extractLsb' 56 4 = 0#4 :=
  rsvField_requestWord (statusCode v) (faultAddress v) (responseData v)

@[simp] theorem addrField_responseWord (v : Verdict) : (responseWord v).extractLsb' 32 24 = faultAddress v :=
  addrField_requestWord (statusCode v) (faultAddress v) (responseData v)

@[simp] theorem dataField_responseWord (v : Verdict) : (responseWord v).extractLsb' 0 32 = responseData v :=
  dataField_requestWord (statusCode v) (faultAddress v) (responseData v)

theorem statusCode_le_three (v : Verdict) : (statusCode v).toNat ≤ 3 := by
  cases v <;> simp [statusCode]

/-! ### Words that are no request (R77) -/

/-- No port accepts a reserved `op`. -/
theorem le_of_portAccepts {p : Port} {n : Nat} (h : portAccepts p n = true) : n ≤ 0xA := by
  cases p <;> simp [portAccepts] at h <;> omega

theorem step_refused_of_not_decode {s : State} {p : Port} {w : Word64} {rest : List Input}
    (hs : s.inputs = .request p w :: rest) (h : ¬ ∃ i, decode p w = .ok i) : ∃ r, step s = .refused r := by
  cases hd : decode p w with
  | ok i => exact absurd ⟨i, hd⟩ h
  | error e => exact ⟨_, (step_of_inputs_cons hs).trans (serve_request_error hd _)⟩

theorem decode_register {w : Word64} (hrsv : rsvField w = 0#4) (hop : opField w = 0xA#4) :
    decode .cfg w = .ok (.register (regionOfHandle (w.extractLsb' 0 8))) := by
  have hhandle : (dataField w).extractLsb' 0 8 = w.extractLsb' 0 8 := by simp [dataField]
  simp [decode, hrsv, hop, decodeCfg, hhandle]

/-- A handle beyond the table of devices names no region (R76). -/
theorem bounds_regionOfHandle {s : State} {rid : BitVec 8} (h : s.ext.length + 2 ≤ rid.toNat) :
    s.bounds (regionOfHandle rid) = none := by
  unfold regionOfHandle
  split
  · omega
  · omega
  · next k hk => simp [State.bounds, show s.ext.length ≤ k by omega]

theorem execRegister_of_bounds_none {s : State} {r : Region} (h : s.bounds r = none) :
    exec (.register r) s = .refused .noSuchRegion :=
  congrArg finish (show registerRegion r s = .refused .noSuchRegion by simp only [registerRegion, h])

end Sys2Proof.Machine

open Sys2Proof Sys2Proof.Machine

/-- Settles O1: each operation's fields stand in its word where its port's decoder looks for them; a device's port exists and a
handle names its region because the operation is well-formed. -/
theorem decodeOfEncode : Obligations.DecodeOfEncode :=
  fun _ => decode_encodeWord

/-- Settles O2: a word decodes only on its operation's port, and the operation takes the bits it reads from the word's fields. -/
theorem encodeOfDecodeIsCanonical : Obligations.EncodeOfDecodeIsCanonical :=
  fun _ _ _ h => ⟨encodePort_of_decode h, canonical_of_decode h⟩

/-- Settles O3: the other word has the same `op` and `rsv`, so it decodes, to an operation that reads the same bits; the two
operations have one canonical word. -/
theorem ignoredBitsHaveNoEffect : Obligations.IgnoredBitsHaveNoEffect := by
  intro p w w' i h hw
  have hrsv : rsvField w' = rsvField w := by
    rw [← rsvField_and_usedBits w' i, hw, rsvField_and_usedBits]
  have hop : opField w' = opField w := by
    rw [← opField_and_usedBits w' i, hw, opField_and_usedBits]
  obtain ⟨j, hj⟩ : ∃ j, decode p w' = .ok j := by
    have haccept := decode_ok_iff.1 ⟨i, h⟩
    rw [← hrsv, ← hop] at haccept
    exact decode_ok_iff.2 haccept
  obtain ⟨hwfi, hwordi⟩ := canonical_of_decode h
  obtain ⟨hwfj, hwordj⟩ := canonical_of_decode hj
  have hword : encodeWord j = encodeWord i :=
    calc encodeWord j
      _ = w' &&& usedBits i := by rw [hwordj, usedBits_of_decode hj, hop, ← usedBits_of_decode h]
      _ = encodeWord i := by rw [hw, ← hwordi]
  have hport : encodePort j = encodePort i := (encodePort_of_decode hj).trans (encodePort_of_decode h).symm
  rw [hj, eq_of_encode_eq hwfj hwfi hport hword]

/-- Settles O4: a request or response word is its three fields shifted into place and joined, and the operation's own value is
the low part of the data field. -/
theorem canonicalWords : Obligations.CanonicalWords := by
  refine ⟨fun a v8 v16 v b k => ⟨?_, ?_, ?_, ?_, ?_, ?_, ?_, ?_, ?_, ?_⟩, fun rid => ?_, fun a v => ⟨?_, ?_, ?_, ?_⟩⟩
  -- codes 0x0 to 0x6, with an address and at most a value; then 0x7 to 0xA
  iterate 7 simp [encodeWord, requestWord_eq_or]
  · simp [encodeWord, requestWord_eq_or, setWidth_bitData]
  · simp [encodeWord, requestWord_eq_or]
  · simp [encodeWord, requestWord_eq_or, setWidth_bitData]
  · simp [encodeWord, requestWord_eq_or, handle_regionOfHandle]
  -- the four outcomes
  iterate 4 simp [responseWord_eq_requestWord, requestWord_eq_or, statusCode, faultAddress, responseData]

/-- Settles O5: the fields are read back as those of a request word, and there are four outcome codes. -/
theorem responseFields : Obligations.ResponseFields := by
  refine ⟨fun v => ⟨rsvField_responseWord v, ?_⟩, fun a v => ?_⟩
  · rw [statusOf_responseWord]
    exact statusCode_le_three v
  · simp [statusCode, faultAddress, responseData]

/-- Settles O6: with the reserved field zero a word is made of its fields, and each port's decoder answers the codes of its
table. -/
theorem requestsAcceptedByPort : Obligations.RequestsAcceptedByPort :=
  fun _ _ => decode_ok_iff

/-- Settles O7: a word that decodes has none of the first three faults, and a handle beyond the table has no bounds, so that its
registration is refused. -/
theorem notRequestsHaveNoStep : Obligations.NotRequestsHaveNoStep := by
  refine ⟨fun s p w rest hs hbad => ?_, fun p op a d hp hop => decode_requestWord_ok_iff.2 ⟨hp, hop⟩⟩
  by_cases hdec : ∃ i, decode p w = .ok i
  · obtain ⟨hrsv, -, haccept⟩ := decode_ok_iff.1 hdec
    have hop := le_of_portAccepts haccept
    rcases hbad with hne | hge | hnot | ⟨rfl, hreg, hhandle⟩
    · exact absurd hrsv hne
    · omega
    · rw [haccept] at hnot
      cases hnot
    · have hserve := serve_request_ok (decode_register hrsv hreg) { s with inputs := rest }
      have hbounds := bounds_regionOfHandle (s := { s with inputs := rest }) hhandle
      exact ⟨_, (step_of_inputs_cons hs).trans (hserve.trans (execRegister_of_bounds_none hbounds))⟩
  · exact step_refused_of_not_decode hs hdec

/-- Settles O8: the decoder runs on each of the twelve words. -/
theorem vectorWordsDecode : Obligations.VectorWordsDecode := by
  unfold Obligations.VectorWordsDecode
  decide

end

section
/-! The obligations of 40_region_contract.md: bounds, containment and translation (R90 to R92, R102), the reads, writes and bit
operations of an external device (R94 to R101, R103), and what no step changes in one (R104). -/

namespace Sys2Proof.Machine

/-! ### Bounds (R90 to R92, R102) -/

/-- The translation of a region with bounds (R92). -/
theorem translate_eq {s : State} {r : Region} {base last : Addr} (h : s.bounds r = some (base, last)) (a : Addr) :
    s.translate r a =
      if base.toNat ≤ a.toNat ∧ a.toNat ≤ last.toNat then some (a.toNat - base.toNat) else none := by
  simp only [State.translate, h]

/-- An operation at a region port does all its work inside the check of its region's bounds (R102). -/
theorem exec_of_portAccess {i : Instr} {r : Region} {a : Addr} {n : Nat} (h : i.portAccess = some (r, a, n)) (s : State) :
    0 < n ∧ ∃ f, exec i s = finish (s.within r a n f) := by
  cases i with
  | ramRead8 | ramRead16 | ramRead32 | ramReadBit | ramWrite8 | ramWrite16 | ramWrite32 | ramWriteBit
  | romRead8 | romRead16 | romRead32 | romReadBit | romWrite8 | romWrite16 | romWrite32 | romWriteBit
  | extRead8 | extRead16 | extRead32 | extReadBit | extWrite8 | extWrite16 | extWrite32 | extWriteBit =>
    cases h
    exact ⟨by decide, _, rfl⟩
  | busRead8 | busRead16 | busRead32 | busWrite8 | busWrite16 | busWrite32 | viewRead8 | viewRead16 | viewRead32
  | viewReadBit | viewWrite8 | viewWrite16 | viewWrite32 | viewWriteBit | isOverlayActive | setOverlayActive
  | register => cases h

/-! ### The byte writes of a request (R97 to R99) -/

theorem deviceWrites_byte (a : Addr) (v : BitVec 8) :
    deviceWrites a (splitBytes .w8 (v.setWidth 32)) = [.write a v] := by
  rw [splitBytes_byte]
  rfl

theorem deviceWrites_half (a : Addr) (v : BitVec 16) :
    deviceWrites a (splitBytes .w16 (v.setWidth 32)) =
      [.write a (v.extractLsb' 8 8), .write (a + 1#24) (v.extractLsb' 0 8)] := by
  have hhigh : (v.setWidth 32).extractLsb' 8 8 = v.extractLsb' 8 8 := BitVec.extractLsb'_setWidth_of_le (by decide)
  have hlow : (v.setWidth 32).extractLsb' 0 8 = v.extractLsb' 0 8 := BitVec.extractLsb'_setWidth_of_le (by decide)
  simp only [splitBytes, deviceWrites, hhigh, hlow]

/-- The four addresses, counted from the first (R99). -/
theorem deviceWrites_word (a : Addr) (x : Data) :
    deviceWrites a (splitBytes .w32 x) =
      [.write a (x.extractLsb' 24 8), .write (a + 1#24) (x.extractLsb' 16 8), .write (a + 2#24) (x.extractLsb' 8 8),
        .write (a + 3#24) (x.extractLsb' 0 8)] := by
  have h2 : a + 1#24 + 1#24 = a + 2#24 := BitVec.add_assoc a 1#24 1#24
  have h3 : a + 2#24 + 1#24 = a + 3#24 := BitVec.add_assoc a 2#24 1#24
  simp only [splitBytes, deviceWrites, h2, h3]

section Write
variable {s : State} {k : Nat} {d : Device} {a : Addr} {x : Data} {xs : List Config.DeviceAccess}

/-- What a write answers and leaves, by what the device permits of its byte writes, at every width (R97 to R99, U4). -/
theorem write_answer (w : Width) (hx : xs = deviceWrites a (splitBytes w x)) :
    ((d.write k w a x).1 = .accepted ∧ d.permitsAll k xs = true ∧ d.permitsNone k false xs = false ∧
      (d.write k w a x).2 = { d with log := d.log ++ xs }) ∨
    ((d.write k w a x).1 = .readOnly ∧ d.permitsAll k xs = false ∧ d.permitsNone k false xs = true ∧
      (d.write k w a x).2 = d.refusedAll k false xs) ∨
    ((d.write k w a x).1 = .mixed ∧ d.permitsAll k xs = false ∧ d.permitsNone k false xs = false) := by
  cases w with
  | w8 =>
    subst hx
    by_cases h : d.permits k (.write a (x.extractLsb' 0 8)) = true
    · exact .inl (by simp [Device.write, write8_eq, splitBytes, deviceWrites, Device.permitsAll, Device.permitsNone,
        Device.seen, h])
    · exact .inr (.inl (by simp [Device.write, write8_eq, splitBytes, deviceWrites, Device.permitsAll,
        Device.permitsNone, Device.refusedAll, h]))
  | w16 => exact write16_answer k d false a x hx
  | w32 => exact write32_answer k d false a x (hx.trans (deviceWrites_word a x))

/-- A write inside a device is accepted or refused as a whole, by what the device permits of its byte writes (R98). -/
theorem extWrite_eq (w : Width) (hd : s.ext[k]? = some d) (hbase : d.base.toNat ≤ a.toNat)
    (hlast : a.toNat + widthBytes w ≤ d.last.toNat + 1) (hx : xs = deviceWrites a (splitBytes w x)) :
    extWrite w k a x s =
      if d.permitsAll k xs = true then .done (.ok 0#32) (s.setDevice k { d with log := d.log ++ xs })
      else if d.permitsNone k false xs = true then .done (.readOnly a x) (s.setDevice k (d.refusedAll k false xs))
      else .refused .partialWrite := by
  rw [extWrite_inside w x hd hbase hlast]
  rcases write_answer (k := k) (d := d) w hx with
    ⟨hans, hall, -, hleft⟩ | ⟨hans, hall, hnone, hleft⟩ | ⟨hans, hall, hnone⟩
  · simp [hans, hall, hleft]
  · simp [hans, hall, hnone, hleft]
  · simp [hans, hall, hnone]

/-- A write at a device's port, with the outcome in the reply. -/
theorem finish_extWrite (w : Width) (hd : s.ext[k]? = some d) (hbase : d.base.toNat ≤ a.toNat)
    (hlast : a.toNat + widthBytes w ≤ d.last.toNat + 1) (hx : xs = deviceWrites a (splitBytes w x)) :
    finish (extWrite w k a x s) =
      if d.permitsAll k xs = true then
        .next ((s.setDevice k { d with log := d.log ++ xs }).answered (.ok 0#32))
      else if d.permitsNone k false xs = true then
        .next ((s.setDevice k (d.refusedAll k false xs)).answered (.readOnly a x))
      else .refused .partialWrite := by
  rw [extWrite_eq w hd hbase hlast hx, apply_ite finish, apply_ite finish]
  rfl

/-! ### Devices that permit every write, or none (R103) -/

theorem permitsAll_of_accepts (h : d.permission = .accepts) : d.permitsAll k xs = true := by
  induction xs generalizing d with
  | nil => rfl
  | cons y ys ih =>
    have hy : d.permits k y = true := by simp only [Device.permits, h]
    simp only [Device.permitsAll, hy, ih (d := d.seen y) h, Bool.and_self]

theorem permits_of_refuses (h : d.permission = .refuses) (y : Config.DeviceAccess) : d.permits k y = false := by
  simp only [Device.permits, h]

theorem permitsNone_of_refuses (h : d.permission = .refuses) (after : Bool) : d.permitsNone k after xs = true := by
  induction xs generalizing after with
  | nil => rfl
  | cons y ys ih =>
    have hfix : d.refused k after y = d := refused_fixed k after y (by simp [h])
    simp only [Device.permitsNone, permits_of_refuses h, hfix, ih true, Bool.not_false, Bool.and_self]

/-- A device that accepts every write serves it at every width. -/
theorem extWrite_of_accepts (w : Width) (hd : s.ext[k]? = some d) (hbase : d.base.toNat ≤ a.toNat)
    (hlast : a.toNat + widthBytes w ≤ d.last.toNat + 1) (h : d.permission = .accepts) :
    extWrite w k a x s =
      .done (.ok 0#32) (s.setDevice k { d with log := d.log ++ deviceWrites a (splitBytes w x) }) := by
  rw [extWrite_eq w hd hbase hlast rfl, if_pos (permitsAll_of_accepts h)]

/-- A device that refuses every write answers ReadOnly at every width and is as it was (R98). -/
theorem extWrite_of_refuses (w : Width) (hd : s.ext[k]? = some d) (hbase : d.base.toNat ≤ a.toNat)
    (hlast : a.toNat + widthBytes w ≤ d.last.toNat + 1) (h : d.permission = .refuses) :
    extWrite w k a x s = .done (.readOnly a x) s := by
  have hall : ¬ d.permitsAll k (deviceWrites a (splitBytes w x)) = true := by
    cases w <;> simp [splitBytes, deviceWrites, Device.permitsAll, permits_of_refuses h]
  rw [extWrite_eq w hd hbase hlast rfl, if_neg hall, if_pos (permitsNone_of_refuses h false),
    refusedAll_fixed k false _ (by simp [h]), setDevice_self s hd]

end Write

/-! ### Reads and bit operations of a device (R94 to R96, R100, R101) -/

section ReadAndBit
variable {s : State} {k : Nat} {d : Device} {a : Addr}

/-- A read at a device's port gives what the device reads and adds to its record, with the outcome in the reply. -/
theorem finish_extRead (w : Width) (hd : s.ext[k]? = some d) (hbase : d.base.toNat ≤ a.toNat)
    (hlast : a.toNat + widthBytes w ≤ d.last.toNat + 1) {x : Data} {e : Device} (h : d.read k w a = (x, e)) :
    finish (extRead w k a s) = .next ((s.setDevice k e).answered (.ok x)) := by
  rw [extRead_inside w hd hbase hlast, h]
  rfl

theorem extReadBit_inside (hd : s.ext[k]? = some d) (hbase : d.base.toNat ≤ a.toNat) (hlast : a.toNat ≤ d.last.toNat) :
    extReadBit k a s =
      if d.hasBitRead = true then
        .done (.ok (bitData (Config.deviceBit k d.log a))) (s.setDevice k (d.seen (.readBit a)))
      else .refused .declinedBit :=
  withDevice_done hd Nat.one_pos hbase (Nat.succ_le_succ hlast)

theorem extWriteBit_inside (hd : s.ext[k]? = some d) (hbase : d.base.toNat ≤ a.toNat) (hlast : a.toNat ≤ d.last.toNat)
    (b : Bool) :
    extWriteBit k a b s =
      if d.hasBitWrite = true then
        if d.permits k (.writeBit a b) = true then .done (.ok 0#32) (s.setDevice k (d.seen (.writeBit a b)))
        else .done (.readOnly a (bitData b)) (s.setDevice k (d.refused k false (.writeBit a b)))
      else .refused .declinedBit :=
  withDevice_done hd Nat.one_pos hbase (Nat.succ_le_succ hlast)

end ReadAndBit

/-! ### What no step changes in a device (R90, R104) -/

/-- No operation adds or removes a device. -/
theorem effect_ext_length {p : Port} {s u : State} {v : Verdict} (he : Effect p s v u) : u.ext.length = s.ext.length := by
  cases he with
  | device => exact List.length_set
  | answer | ram | overlay | registered => rfl

/-- The only part of a device an operation can change is its record of accesses, which it only adds to. -/
theorem effect_device_shape {p : Port} {s u : State} {v : Verdict} (he : Effect p s v u) {k : Nat} {d : Device}
    (hd : s.ext[k]? = some d) : ∃ xs, u.ext[k]? = some { d with log := d.log ++ xs } := by
  have hsame : s.ext[k]? = some { d with log := d.log ++ [] } := by simpa using hd
  cases he with
  | @device j e ys _ _ hj =>
    by_cases hjk : j = k
    · subst hjk
      obtain rfl : d = e := Option.some.inj (hd.symm.trans hj)
      obtain ⟨hlt, -⟩ := List.getElem?_eq_some_iff.1 hd
      exact ⟨ys, List.getElem?_set_self hlt⟩
    · exact ⟨[], (List.getElem?_set_ne hjk).trans hsame⟩
  | answer | ram | overlay | registered => exact ⟨[], hsame⟩

/-- A step changes no device but by adding to its record: it runs one operation, or a call of the counter, which reaches none. -/
theorem step_device_shape {s t : State} (h : step s = .next t) :
    t.ext.length = s.ext.length ∧ ∀ (k : Nat) (d : Device), s.ext[k]? = some d →
      ∃ xs, t.ext[k]? = some { d with log := d.log ++ xs } := by
  obtain ⟨_, _, _, _, _, -, he, rfl⟩ | ⟨_, _, _, _, -, rfl⟩ := step_effect h
  · have hlen := effect_ext_length he
    exact ⟨hlen, fun _ _ hd => effect_device_shape he hd⟩
  · exact ⟨rfl, fun _ d hd => ⟨[], hd.trans (by simp)⟩⟩

end Sys2Proof.Machine

open Sys2Proof Sys2Proof.Machine

/-- Settles O22: every operation at a region port runs inside the check of its region's bounds. -/
theorem outOfBoundsRefusedAtRegionPorts : Obligations.OutOfBoundsRefusedAtRegionPorts := by
  intro i s r a n hi
  obtain ⟨hn, f, hexec⟩ := exec_of_portAccess hi s
  rw [hexec]
  refine ⟨fun base last hb hout => ?_, fun hb => congrArg finish (within_noSuchRegion hb)⟩
  exact congrArg finish (within_outOfBounds hb (by omega))

/-- Settles O26: inside the device's bounds the answer and the record are those of the byte reads one after the other. -/
theorem deviceReads : Obligations.DeviceReads := by
  refine ⟨fun k a d hk => ?_, fun s k d a hd hbase => ⟨fun h => ?_, fun h => ?_, fun h => ?_⟩⟩
  · simp [decodeExt, not_lastDevice_lt (decide_eq_true hk)]
  · exact finish_extRead .w8 hd hbase (Nat.succ_le_succ h) (read8_eq k d a)
  · exact finish_extRead .w16 hd hbase (Nat.succ_le_succ h) (read16_eq k d a)
  · exact finish_extRead .w32 hd hbase (Nat.succ_le_succ h) (read32_eq k d a)

/-- Settles O27: each write is the answer to its byte writes; a single byte write is permitted or refused, never in part. -/
theorem deviceWrites : Obligations.DeviceWrites := by
  refine ⟨fun k a d hk => ?_, fun s k d a hd hbase => ⟨fun v h => ?_, fun v xs h hx => ?_, fun v xs h hx => ?_⟩⟩
  · simp [decodeExt, not_lastDevice_lt (decide_eq_true hk)]
  · refine (finish_extWrite .w8 hd hbase (Nat.succ_le_succ h) (deviceWrites_byte a v).symm).trans ?_
    by_cases hp : d.permits k (.write a v) = true
    · rw [if_pos (by simp [Device.permitsAll, hp]), if_pos hp]
      rfl
    · rw [if_neg (by simp [Device.permitsAll, hp]), if_pos (by simp [Device.permitsNone, hp]), if_neg hp]
      rfl
  · exact finish_extWrite .w16 hd hbase (Nat.succ_le_succ h) (hx.trans (deviceWrites_half a v).symm)
  · exact finish_extWrite .w32 hd hbase (Nat.succ_le_succ h) (hx.trans (deviceWrites_word a v).symm)

/-- Settles O28: every byte write is permitted, or none is and the device is as it was. -/
theorem devicesPermitAsAWhole : Obligations.DevicesPermitAsAWhole := by
  intro s k d a hd hbase hlast
  have hin (w : Width) : a.toNat + widthBytes w ≤ d.last.toNat + 1 := by
    cases w <;> simp only [widthBytes] <;> omega
  refine ⟨fun h v8 v16 v32 => ?_, fun h v8 v16 v32 => ?_⟩
  · have hok (w : Width) (x : Data) := congrArg finish (extWrite_of_accepts (x := x) w hd hbase (hin w) h)
    exact ⟨⟨_, hok .w8 _, rfl⟩, ⟨_, hok .w16 _, rfl⟩, ⟨_, hok .w32 _, rfl⟩⟩
  · have hro (w : Width) (x : Data) := congrArg finish (extWrite_of_refuses (x := x) w hd hbase (hin w) h)
    exact ⟨hro .w8 _, hro .w16 _, hro .w32 _⟩

/-- Settles O29: inside the device's bounds the operation is the device's own, where it has it. -/
theorem deviceBitOperations : Obligations.DeviceBitOperations := by
  refine ⟨fun k a d hk => ?_, fun s k d a hd hbase hlast => ⟨?_, fun b => ?_⟩⟩
  · simp [decodeExt, not_lastDevice_lt (decide_eq_true hk)]
  · rw [exec_extReadBit, extReadBit_inside hd hbase hlast, apply_ite finish]
    rfl
  · rw [exec_extWriteBit, extWriteBit_inside hd hbase hlast, apply_ite finish, apply_ite finish]
    rfl

/-- Settles O30: a step can only add to a device's record. -/
theorem devicesKeepTheirShape : Obligations.DevicesKeepTheirShape := by
  intro s t h
  obtain ⟨hlen, hshape⟩ := step_device_shape h
  refine ⟨hlen, fun k d hd => ?_⟩
  obtain ⟨xs, hxs⟩ := hshape k d hd
  exact ⟨_, hxs, rfl, rfl, rfl, rfl, rfl, List.prefix_append _ _⟩

/-- Settles O31: containment and translation make the same comparison with the bounds. -/
theorem containsAndTranslate : Obligations.ContainsAndTranslate := by
  intro s r base last hb a
  have hin := contains_iff (a := a) hb
  refine ⟨hin, fun h => ?_, fun h => ?_⟩
  · rw [translate_eq hb, if_pos (hin.1 h)]
  · rw [translate_eq hb, if_neg (mt hin.2 (by simp [h]))]

end

section
/-! The obligations of 41_ram_region.md: the reads (R110 to R112), writes (R113 to R115) and bit operations (R116, R117) at the
RAM's port, and their refusal beyond its bounds (R102). -/

namespace Sys2Proof.Machine

/-- Beyond the bounds of RAM every operation at its port is refused (R102). -/
theorem ramPort_outOfBounds {i : Instr} {a : Addr} {n : Nat} (hi : i.portAccess = some (.ram, a, n))
    (h : 0x100000 < a.toNat + n) (s : State) : exec i s = .refused .outOfBounds := by
  obtain ⟨hn, f, hexec⟩ := exec_of_portAccess hi s
  rw [hexec, withinRam hn, if_neg (Nat.not_le.2 h), finish_refused]

/-! ### Reads and writes inside RAM (R110 to R115) -/

section Inside
variable {s : State} {w : Width} {a : Addr}

/-- A read inside RAM answers the bytes from its address on, composed, and changes nothing but the reply. -/
theorem finish_ramRead {x : Data} (h : a.toNat + widthBytes w ≤ 0x100000)
    (hx : composeBytes (s.ram.readBytes a.toNat (widthBytes w)) = x) :
    finish (ramRead w a s) = .next (s.answered (.ok x)) := by
  rw [ramRead_eq, if_pos h, hx, finish_done]

/-- The two low bytes of a 16-bit value (R114). -/
theorem splitBytes_half (v : BitVec 16) :
    splitBytes .w16 (v.setWidth 32) = [v.extractLsb' 8 8, v.extractLsb' 0 8] := by
  rw [splitBytes, BitVec.extractLsb'_setWidth_of_le (by decide), BitVec.extractLsb'_setWidth_of_le (by decide)]

/-- A write inside RAM stores its value's bytes from its address on; every other byte, and everything but RAM and the reply, is
as it was. -/
theorem ramWrite_stores {d : Data} {bs : List Byte} (hwf : s.ram.wf = true) (hbs : splitBytes w d = bs)
    (h : a.toNat + widthBytes w ≤ 0x100000) :
    ∃ t, finish (ramWrite w a d s) = .next t ∧
      (∀ k b, bs[k]? = some b → t.ram.byte (a.toNat + k) = b) ∧
      (∀ o, o < a.toNat ∨ a.toNat + bs.length ≤ o → t.ram.byte o = s.ram.byte o) ∧
      t = { s with ram := t.ram, reply := .word (responseWord (.ok 0#32)) } := by
  refine ⟨({ s with ram := s.ram.writeBytes a.toNat bs } : State).answered (.ok 0#32), ?_, fun k b hb => ?_,
    fun o ho => ?_, rfl⟩
  · rw [ramWrite_eq, if_pos h, hbs, finish_done]
  · obtain ⟨hk, rfl⟩ := List.getElem?_eq_some_iff.1 hb
    exact Memory.byte_writeBytes_inside hwf hk
  · exact Memory.byte_writeBytes_outside hwf ho

/-- A byte write inside RAM stores its byte, and nothing else changes but the reply. -/
theorem ramWrite_stores_byte (hwf : s.ram.wf = true) (h : a.toNat ≤ 0x0FFFFF) (v : Byte) :
    ∃ t, finish (ramWrite .w8 a (v.setWidth 32) s) = .next t ∧ t.ram.byte a.toNat = v ∧
      (∀ o, o ≠ a.toNat → t.ram.byte o = s.ram.byte o) ∧
      t = { s with ram := t.ram, reply := .word (responseWord (.ok 0#32)) } := by
  obtain ⟨t, ht, hin, hout, hframe⟩ := ramWrite_stores hwf (splitBytes_byte v) (Nat.succ_le_succ h)
  exact ⟨t, ht, hin 0 v rfl, fun o ho => hout o (Nat.lt_or_gt_of_ne ho), hframe⟩

end Inside

/-! ### Bit operations (R116, R117) -/

section Bits
variable {s : State} {a : Addr}

/-- A bit write is the write of a whole byte (R117). -/
theorem ramWriteBit_eq_ramWrite (b : Bool) : ramWriteBit a b s = ramWrite .w8 a ((bitByte b).setWidth 32) s := by
  rw [ramWriteBit_eq, ramWrite_eq, splitBytes_byte]
  rfl

/-- The bit read gives back the bit whose byte was stored (R116). -/
theorem bitRead_bitByte (b : Bool) : bitRead (bitByte b) = b := by
  cases b <;> rfl

theorem finish_ramReadBit (h : a.toNat ≤ 0x0FFFFF) :
    finish (ramReadBit a s) = .next (s.answered (.ok (bitData (bitRead (s.ram.byte a.toNat))))) := by
  rw [ramReadBit_eq, if_pos (Nat.succ_le_succ h), finish_done]

end Bits

end Sys2Proof.Machine

open Sys2Proof Sys2Proof.Machine

/-- Settles O16: inside RAM the answer is composed of the bytes read, and beyond its bounds its port refuses. -/
theorem ramReads : Obligations.RamReads := by
  refine ⟨fun a d => by simp [decodeRam], fun s a => ⟨fun h => ?_, fun h => ?_, fun h => ?_, fun h => ?_, fun h => ?_,
    fun h => ?_⟩⟩
  · exact finish_ramRead (w := .w8) (Nat.succ_le_succ h) (composeBytes_one _)
  · exact ramPort_outOfBounds rfl (by omega) s
  · exact finish_ramRead (w := .w16) (Nat.add_le_add_right h 2) (composeBytes_two _ _)
  · exact ramPort_outOfBounds rfl (by omega) s
  · exact finish_ramRead (w := .w32) (Nat.add_le_add_right h 4) (composeBytes_four _ _ _ _)
  · exact ramPort_outOfBounds rfl (by omega) s

/-- Settles O17: inside RAM the value's bytes are stored and nothing else, and beyond its bounds its port refuses. -/
theorem ramWrites : Obligations.RamWrites := by
  refine ⟨fun a d => by simp [decodeRam], fun s a hwf => ⟨fun v => ⟨fun h => ?_, fun h => ?_⟩,
    fun v => ⟨fun h => ?_, fun h => ?_⟩, fun v => ⟨fun h => ?_, fun h => ?_⟩⟩⟩
  · exact ramWrite_stores_byte hwf h v
  · exact ramPort_outOfBounds rfl (by omega) s
  · obtain ⟨t, ht, hin, hout, hframe⟩ := ramWrite_stores hwf (splitBytes_half v) (Nat.add_le_add_right h 2)
    exact ⟨t, ht, hin 0 _ rfl, hin 1 _ rfl, hout, hframe⟩
  · exact ramPort_outOfBounds rfl (by omega) s
  · obtain ⟨t, ht, hin, hout, hframe⟩ := ramWrite_stores (w := .w32) (d := v) hwf rfl (Nat.add_le_add_right h 4)
    exact ⟨t, ht, hin 0 _ rfl, hin 1 _ rfl, hin 2 _ rfl, hin 3 _ rfl, hout, hframe⟩
  · exact ramPort_outOfBounds rfl (by omega) s

/-- Settles O18: a bit write is a byte write of 0x00 or 0x01, on which the bit read is fixed. -/
theorem ramBitOperations : Obligations.RamBitOperations := by
  refine ⟨fun a d => by simp [decodeRam], ⟨bitRead, rfl, rfl, fun s a h => finish_ramReadBit h⟩, fun s a b hwf h => ?_,
    fun s a b h => ⟨?_, ?_⟩⟩
  · obtain ⟨t, ht, hbyte, hout, hframe⟩ := ramWrite_stores_byte hwf h (bitByte b)
    refine ⟨t, (congrArg finish (ramWriteBit_eq_ramWrite b)).trans ht, hbyte, hout, hframe, ?_⟩
    rw [exec_ramReadBit, finish_ramReadBit h, hbyte, bitRead_bitByte, bitData]
  · exact ramPort_outOfBounds rfl (by omega) s
  · exact ramPort_outOfBounds rfl (by omega) s

end

section
/-! The obligations of 42_rom_region.md: the reads, writes and bit operations at the ROM's port (R120 to R127), the length of an
image (R128), and the overlay view (R130 to R138). -/

namespace Sys2Proof.Machine

/-! ### The ROM shim (R120 to R127) -/

/-- Beyond the bounds of ROM every operation at its port is refused (R102). -/
theorem romPort_outOfBounds {i : Instr} {a : Addr} {n : Nat} (hi : i.portAccess = some (.rom, a, n))
    (h : 0x420000 < a.toNat + n) (s : State) : exec i s = .refused .outOfBounds :=
  (outOfBoundsRefusedAtRegionPorts i s .rom a n hi).1 _ _ (bounds_rom s) (by simp; omega)

section Rom
variable {s : State} {w : Width} {a : Addr} {o : Nat}

/-- A read inside ROM answers the image bytes from its offset on, composed, and changes nothing but the reply. -/
theorem finish_romRead {x : Data} (ha : a.toNat = 0x400000 + o) (h : o + widthBytes w ≤ 0x20000)
    (hx : composeBytes (s.rom.readBytes o (widthBytes w)) = x) :
    finish (romRead w a s) = .next (s.answered (.ok x)) := by
  rw [romRead_eq, ha, if_pos (by omega), Nat.add_sub_cancel_left, hx, finish_done]

/-- A write inside ROM ends in ReadOnly as a whole, with the request's address and value (R123 to R125). -/
theorem finish_romWrite (h0 : 0x400000 ≤ a.toNat) (h : a.toNat + widthBytes w ≤ 0x420000) (d : Data) :
    finish (romWrite w a d s) = .next (s.answered (.readOnly a d)) := by
  rw [romWrite_eq, if_pos ⟨h0, h⟩, finish_done]

/-- A bit write inside ROM ends in ReadOnly with the bit as value (R127). -/
theorem finish_romWriteBit (h0 : 0x400000 ≤ a.toNat) (h : a.toNat ≤ 0x41FFFF) (b : Bool) :
    finish (romWriteBit a b s) = .next (s.answered (.readOnly a (bitData b))) := by
  rw [romWriteBit_eq, if_pos ⟨h0, Nat.succ_le_succ h⟩, finish_done]

theorem finish_romReadBit (ha : a.toNat = 0x400000 + o) (h : o ≤ 0x1FFFF) :
    finish (romReadBit a s) = .next (s.answered (.ok (bitData (bitRead (s.rom.byte o))))) := by
  rw [romReadBit_eq, ha, if_pos (by omega), Nat.add_sub_cancel_left, finish_done]

end Rom

/-! ### The overlay view (R130 to R138) -/

section View
variable {s : State} {w : Width} {a : Addr} {n : Nat} {x : Served}

/-- An operation on the view's line does all its work behind the view's own check (R130). -/
theorem exec_of_viewPort {i : Instr} (h : encodePort i = .view) (s : State) :
    ∃ a n x, exec i s = finish (viewServes .rom a n s x) := by
  cases i with
  | viewRead8 | viewRead16 | viewRead32 | viewReadBit | viewWrite8 | viewWrite16 | viewWrite32 | viewWriteBit =>
    exact ⟨_, _, _, rfl⟩
  | busRead8 | busRead16 | busRead32 | busWrite8 | busWrite16 | busWrite32 | ramRead8 | ramRead16 | ramRead32 | ramReadBit
  | ramWrite8 | ramWrite16 | ramWrite32 | ramWriteBit | romRead8 | romRead16 | romRead32 | romReadBit | romWrite8
  | romWrite16 | romWrite32 | romWriteBit | extRead8 | extRead16 | extRead32 | extReadBit | extWrite8 | extWrite16
  | extWrite32 | extWriteBit | isOverlayActive | setOverlayActive | register => cases h

/-- An active view serves the bytes of its range. -/
theorem finish_viewServes_inside (hs : s.ovl = true ∧ s.romref = some .rom) (h : a.toNat + n ≤ 0x20000) :
    finish (viewServes .rom a n s x) = finish x := by
  rw [viewServes_active hs, if_pos h]

/-- Beyond its range an active view is not used. -/
theorem finish_viewServes_outside (hs : s.ovl = true ∧ s.romref = some .rom) (h : 0x20000 < a.toNat + n) :
    finish (viewServes .rom a n s x) = .refused .outsideView := by
  rw [viewServes_active hs, if_neg (Nat.not_le.2 h), finish_refused]

/-- A read of the active view answers the ROM bytes from its address on, composed (R131 to R133). -/
theorem finish_viewRead {d : Data} (hs : s.ovl = true ∧ s.romref = some .rom) (h : a.toNat + widthBytes w ≤ 0x20000)
    (hd : composeBytes (s.rom.readBytes a.toNat (widthBytes w)) = d) :
    finish (viewRead w .rom a s) = .next (s.answered (.ok d)) := by
  rw [viewRead_eq hs, if_pos h, hd, finish_done]

end View

end Sys2Proof.Machine

open Sys2Proof Sys2Proof.Machine

/-- Settles O19: inside ROM the answer is composed of the image bytes, and beyond its bounds its port refuses. -/
theorem romReads : Obligations.RomReads := by
  refine ⟨fun a d => by simp [decodeRom], fun s a o ha => ⟨fun h => ?_, fun h => ?_, fun h => ?_, fun h => ?_, fun h => ?_,
    fun h => ?_⟩⟩
  · exact finish_romRead (w := .w8) ha (Nat.succ_le_succ h) (composeBytes_one _)
  · exact romPort_outOfBounds rfl (by omega) s
  · exact finish_romRead (w := .w16) ha (Nat.add_le_add_right h 2) (composeBytes_two _ _)
  · exact romPort_outOfBounds rfl (by omega) s
  · exact finish_romRead (w := .w32) ha (Nat.add_le_add_right h 4) (composeBytes_four _ _ _ _)
  · exact romPort_outOfBounds rfl (by omega) s

/-- Settles O20: whatever the width, the ROM refuses the write as a whole. -/
theorem romWrites : Obligations.RomWrites := by
  refine ⟨fun a d => by simp [decodeRom], fun s a h0 => ⟨fun v h => ?_, fun v h => ?_, fun v h => ?_, fun b h => ?_⟩⟩
  · exact finish_romWrite (w := .w8) h0 (Nat.succ_le_succ h) _
  · exact finish_romWrite (w := .w16) h0 (Nat.add_le_add_right h 2) _
  · exact finish_romWrite (w := .w32) h0 (Nat.add_le_add_right h 4) v
  · exact finish_romWriteBit h0 h b

/-- Settles O21: both shims read a bit by `bitRead`. -/
theorem romReadBit : Obligations.RomReadBit :=
  ⟨fun a d => by simp [decodeRom], bitRead, rfl, rfl, fun _ _ _ ha h => finish_romReadBit ha h,
    fun _ _ h => finish_ramReadBit h⟩

/-- Settles O23: the active view answers the ROM bytes from the bus address on, and beyond its range it is not used. -/
theorem viewReads : Obligations.ViewReads := by
  refine ⟨fun a d => by simp [decodeView], fun s a hovl href => ?_⟩
  have hs : s.ovl = true ∧ s.romref = some .rom := ⟨hovl, href⟩
  refine ⟨fun h => ?_, fun h => ?_, fun h => ?_, fun h => ?_, fun h => ?_, fun h => ?_⟩
  · exact finish_viewRead (w := .w8) hs (Nat.succ_le_succ h) (composeBytes_one _)
  · exact finish_viewRead (w := .w16) hs (Nat.add_le_add_right h 2) (composeBytes_two _ _)
  · exact finish_viewRead (w := .w32) hs (Nat.add_le_add_right h 4) (composeBytes_four _ _ _ _)
  · exact finish_viewServes_outside hs (Nat.add_lt_add_right h 1)
  · exact finish_viewServes_outside hs (Nat.add_lt_add_right h 2)
  · exact finish_viewServes_outside hs (Nat.add_lt_add_right h 4)

/-- Settles O24: the active view refuses every write of its range as ReadOnly, and beyond it is not used. -/
theorem viewWrites : Obligations.ViewWrites := by
  refine ⟨fun a d => by simp [decodeView], fun s a hovl href => ?_⟩
  have hs : s.ovl = true ∧ s.romref = some .rom := ⟨hovl, href⟩
  refine ⟨fun v h => ?_, fun v h => ?_, fun v h => ?_, fun v h => ?_, fun v h => ?_, fun v h => ?_⟩
  · exact finish_viewServes_inside hs (Nat.succ_le_succ h)
  · exact finish_viewServes_inside hs (Nat.add_le_add_right h 2)
  · exact finish_viewServes_inside hs (Nat.add_le_add_right h 4)
  · exact finish_viewServes_outside hs (Nat.add_lt_add_right h 1)
  · exact finish_viewServes_outside hs (Nat.add_lt_add_right h 2)
  · exact finish_viewServes_outside hs (Nat.add_lt_add_right h 4)

/-- Settles O25: inside its range the active view hands a bit read to the ROM, at an address that does not wrap, and answers a
bit write itself. -/
theorem viewBitOperations : Obligations.ViewBitOperations := by
  refine ⟨fun a d => by simp [decodeView], fun s a hovl href => ?_⟩
  have hs : s.ovl = true ∧ s.romref = some .rom := ⟨hovl, href⟩
  refine ⟨fun h => ?_, fun h => ?_⟩
  · have hin : a.toNat + 1 ≤ 0x20000 := Nat.succ_le_succ h
    have hrom := finish_romReadBit (s := s) (view_address Nat.one_pos hin) h
    exact ⟨⟨_, (finish_viewServes_inside hs hin).trans hrom, hrom⟩, fun b => finish_viewServes_inside hs hin⟩
  · have hout : 0x20000 < a.toNat + 1 := Nat.add_lt_add_right h 1
    exact ⟨finish_viewServes_outside hs hout, fun b => finish_viewServes_outside hs hout⟩

/-- Settles O13: the loader's one check is the length. -/
theorem onlyFullImagesLoad : Obligations.OnlyFullImagesLoad := by
  refine fun image cells devices policy => ⟨fun h => ?_, fun h => ⟨_, coldReset_full h cells devices policy⟩⟩
  rw [coldReset, loadImage_other h]

/-- Settles O59: all eight operations stand behind the view's check, which an inactive view fails. -/
theorem viewServesOnlyWhileActive : Obligations.ViewServesOnlyWhileActive := by
  intro s a v8 v16 v b hoff i hi
  have hport : encodePort i = .view := by
    simp only [List.mem_cons, List.not_mem_nil, or_false] at hi
    rcases hi with rfl | rfl | rfl | rfl | rfl | rfl | rfl | rfl <;> rfl
  have hs : ¬ (s.ovl = true ∧ s.romref = some .rom) := by
    rintro ⟨hovl, href⟩
    simp [hovl, href] at hoff
  obtain ⟨c, n, x, hexec⟩ := exec_of_viewPort hport s
  rw [hexec, viewServes_inactive hs, finish_refused]

end

section
/-! The obligations of 43_bus_access.md: resolution (R140), and the common bus access by its target (R141 to R148). -/

namespace Sys2Proof.Machine

/-! ### Reads, by what the address resolves to (R141 to R144) -/

section BusRead
variable {s : State} {w : Width} {a : Addr} {k : Nat}

/-- An aligned access that resolves to the view lies inside its range, and the view serves (R49, R130). -/
theorem view_of_resolve {R : RomTyped} (hr : s.resolve a = .view R) (h : aligned w a = true) :
    (s.ovl = true ∧ s.romref = some R) ∧ a.toNat + widthBytes w ≤ 0x20000 := by
  obtain ⟨href, hovl, hlow⟩ := resolve_view hr
  rw [aligned_iff] at h
  refine ⟨⟨hovl, href⟩, ?_⟩
  cases w <;> simp only [widthBytes] at h ⊢ <;> omega

/-- An aligned access that resolves to the ROM lies inside it (R49). -/
theorem rom_of_resolve (hr : s.resolve a = .region .rom) (h : aligned w a = true) :
    0x400000 ≤ a.toNat ∧ a.toNat + widthBytes w ≤ 0x420000 := by
  obtain ⟨hbase, hlast⟩ := contains_rom_iff.1 (contains_of_resolve hr)
  rw [aligned_iff] at h
  refine ⟨hbase, ?_⟩
  cases w <;> simp only [widthBytes] at h ⊢ <;> omega

theorem memRead_view {R : RomTyped} (hr : s.resolve a = .view R) (h : aligned w a = true) :
    memRead w a s = .done (.ok (composeBytes (s.rom.readBytes a.toNat (widthBytes w)))) s := by
  obtain ⟨hs, hin⟩ := view_of_resolve hr h
  rw [memRead, if_pos h, hr]
  exact (viewRead_eq hs).trans (if_pos hin)

theorem memRead_rom (hr : s.resolve a = .region .rom) (h : aligned w a = true) :
    memRead w a s = .done (.ok (composeBytes (s.rom.readBytes (a.toNat - 0x400000) (widthBytes w)))) s := by
  rw [memRead, if_pos h, hr]
  exact (romRead_eq w a s).trans (if_pos (rom_of_resolve hr h))

theorem memRead_nothing (hr : s.resolve a = .nothing) (h : aligned w a = true) :
    memRead w a s = .done (.unmapped a) s := by
  rw [memRead, if_pos h, hr]

/-- A bus read that resolves to a device completes as the device's own read (R141). -/
theorem finish_memRead_ext (hi : s.Inv) (hr : s.resolve a = .region (.ext k)) (h : aligned w a = true) :
    ∃ t, finish (memRead w a s) = .next t ∧ finish (extRead w k a s) = .next t := by
  obtain ⟨d, hd, hbase, hlast⟩ := device_of_resolve hi hr w (aligned_iff.1 h)
  have hown := finish_extRead w hd hbase hlast rfl
  refine ⟨_, ?_, hown⟩
  rw [memRead, if_pos h, hr]
  exact hown

/-- Every bus read is answered: the misaligned and the unmapped by their fault, the others by their target (R141). -/
theorem memRead_answers (hi : s.Inv) : ∃ t, finish (memRead w a s) = .next t := by
  by_cases h : aligned w a = true
  · cases hr : s.resolve a with
    | view R => exact ⟨_, congrArg finish (memRead_view hr h)⟩
    | nothing => exact ⟨_, congrArg finish (memRead_nothing hr h)⟩
    | region r =>
      cases r with
      | ram => exact ⟨_, congrArg finish (memRead_ram hr h)⟩
      | rom => exact ⟨_, congrArg finish (memRead_rom hr h)⟩
      | ext k =>
        obtain ⟨t, ht, -⟩ := finish_memRead_ext hi hr h
        exact ⟨t, ht⟩
  · exact ⟨_, congrArg finish (memRead_misaligned h)⟩

end BusRead

/-! ### What a device permits of its byte writes (R97, R98) -/

section Permits
variable (k : Nat) (d : Device) (after : Bool) (y : Config.DeviceAccess)

@[simp] theorem permitsAll_singleton : d.permitsAll k [y] = d.permits k y := Bool.and_true _

@[simp] theorem permitsNone_singleton : d.permitsNone k after [y] = !d.permits k y := Bool.and_true _

@[simp] theorem refusedAll_singleton : d.refusedAll k after [y] = d.refused k after y := rfl

/-- Only a device that decides per access can serve a write in part (R98, R103). -/
theorem perAccess_of_partial {k : Nat} {d : Device} {xs : List Config.DeviceAccess} (hall : ¬ d.permitsAll k xs = true)
    (hnone : ¬ d.permitsNone k false xs = true) : d.permission = .perAccess := by
  cases hp : d.permission with
  | accepts => exact absurd (permitsAll_of_accepts hp) hall
  | refuses => exact absurd (permitsNone_of_refuses hp false) hnone
  | perAccess => rfl

end Permits

/-! ### Writes, by what the address resolves to (R141, R145 to R148) -/

section BusWrite
variable {s : State} {w : Width} {a : Addr} {x : Data} {k : Nat} {d : Device} {bs : List Byte}
  {xs : List Config.DeviceAccess}

/-- A write that resolves to RAM is RAM's own (R141). -/
theorem memWrite_eq_ramWrite (hr : s.resolve a = .region .ram) (h : aligned w a = true) (x : Data) :
    memWrite w a x s = ramWrite w a x s := by
  rw [memWrite_ram hr h, ramWrite_eq, if_pos (ram_of_resolve hr h)]

theorem memWrite_view {R : RomTyped} (hr : s.resolve a = .view R) (h : aligned w a = true) (x : Data) :
    memWrite w a x s = .done (boundaryVerdict s.surfaceReadOnly a x) s := by
  obtain ⟨hs, hin⟩ := view_of_resolve hr h
  rw [memWrite, if_pos h, hr]
  exact congrArg (atBoundary s.surfaceReadOnly) ((viewWrite_eq hs).trans (if_pos hin))

theorem memWrite_rom (hr : s.resolve a = .region .rom) (h : aligned w a = true) (x : Data) :
    memWrite w a x s = .done (boundaryVerdict s.surfaceReadOnly a x) s := by
  rw [memWrite, if_pos h, hr]
  exact congrArg (atBoundary s.surfaceReadOnly) ((romWrite_eq w a x s).trans (if_pos (rom_of_resolve hr h)))

theorem memWrite_nothing (hr : s.resolve a = .nothing) (h : aligned w a = true) (x : Data) :
    memWrite w a x s = .done (.unmapped a) s := by
  rw [memWrite, if_pos h, hr]

/-- A write that resolves to a device is the device's byte writes, accepted as a whole, or refused as a whole and then discarded
or surfaced, or no step (R98, R148, U4). -/
theorem finish_memWrite_ext (hi : s.Inv) (hr : s.resolve a = .region (.ext k)) (hd : s.ext[k]? = some d)
    (h : aligned w a = true) (hbs : splitBytes w x = bs) (hx : xs = deviceWrites a bs) :
    finish (memWrite w a x s) =
      if d.permitsAll k xs = true then
        .next ((s.setDevice k { d with log := d.log ++ xs }).answered (.ok 0#32))
      else if d.permitsNone k false xs = true then
        .next ((s.setDevice k (d.refusedAll k false xs)).answered (boundaryVerdict s.surfaceReadOnly a x))
      else .refused .partialWrite := by
  obtain ⟨e, he, hbase, hlast⟩ := device_of_resolve hi hr w (aligned_iff.1 h)
  obtain rfl : d = e := Option.some.inj (hd.symm.trans he)
  have hown := extWrite_eq w hd hbase hlast (hx.trans (congrArg _ hbs.symm))
  rw [memWrite, if_pos h, hr]
  refine (congrArg (fun y => finish (atBoundary s.surfaceReadOnly y)) hown).trans ?_
  split
  · rfl
  · split <;> rfl

/-- A bus write is answered, but for one of more than one byte that a device deciding per access would serve in part (U4). -/
theorem memWrite_answers_or_partial (hi : s.Inv) (x : Data) :
    (∃ t, finish (memWrite w a x s) = .next t) ∨
    w ≠ .w8 ∧ finish (memWrite w a x s) = .refused .partialWrite ∧
      ∃ k d, s.resolve a = .region (.ext k) ∧ s.ext[k]? = some d ∧ d.permission = .perAccess := by
  by_cases h : aligned w a = true
  · cases hr : s.resolve a with
    | view R => exact .inl ⟨_, congrArg finish (memWrite_view hr h x)⟩
    | nothing => exact .inl ⟨_, congrArg finish (memWrite_nothing hr h x)⟩
    | region r =>
      cases r with
      | ram => exact .inl ⟨_, congrArg finish (memWrite_ram hr h x)⟩
      | rom => exact .inl ⟨_, congrArg finish (memWrite_rom hr h x)⟩
      | ext k =>
        obtain ⟨d, hd, -, -⟩ := device_of_resolve hi hr w (aligned_iff.1 h)
        rw [finish_memWrite_ext hi hr hd h rfl rfl]
        split
        · exact .inl ⟨_, rfl⟩
        · split
          · exact .inl ⟨_, rfl⟩
          · rename_i hall hnone
            refine .inr ⟨?_, rfl, k, d, rfl, hd, perAccess_of_partial hall hnone⟩
            rintro rfl
            exact hnone (by simpa [splitBytes, deviceWrites] using hall)
  · exact .inl ⟨_, congrArg finish (memWrite_misaligned h x)⟩

/-- A single byte is served whole, so its write is always answered. -/
theorem memWrite_byte_answers (hi : s.Inv) (x : Data) : ∃ t, finish (memWrite .w8 a x s) = .next t := by
  obtain h | ⟨hne, -⟩ := memWrite_answers_or_partial (w := .w8) hi x
  · exact h
  · exact absurd rfl hne

end BusWrite

end Sys2Proof.Machine

open Sys2Proof Sys2Proof.Machine

/-- Settles O32: where one of the view's three conditions fails, resolution is the scan of the registry. -/
theorem resolutionOrder : Obligations.ResolutionOrder := by
  refine fun s a => ⟨fun hovl hrom ha => resolve_overlay hovl hrom ha, fun hoff => ?_⟩
  have hscan : s.resolve a = s.scan a := by
    rcases hoff with hovl | hnone | ha
    · exact resolve_eq_scan (.inl hovl)
    · exact resolve_of_romref_none hnone
    · exact resolve_eq_scan (.inr ha)
  rw [hscan]
  exact ⟨fun _ _ _ hregs hbefore hin => scan_first hregs hbefore hin, scan_none⟩

/-- Settles O37: whichever of the three storages answers, it composes the bytes from the offset on. -/
theorem busReadsStorage : Obligations.BusReadsStorage := by
  intro s a m o htarget
  have hread {w : Width} (h : aligned w a = true) :
      memRead w a s = .done (.ok (composeBytes (m.readBytes o (widthBytes w)))) s := by
    rcases htarget with ⟨hr, rfl, rfl⟩ | ⟨hr, rfl, rfl⟩ | ⟨hr, rfl, ha⟩
    · exact memRead_view hr h
    · exact memRead_ram hr h
    · rw [memRead_rom hr h, ha, Nat.add_sub_cancel_left]
  refine ⟨?_, fun h => ?_, fun h => ?_⟩
  · rw [exec_busRead8, hread (aligned_w8 a), widthBytes, readBytes_one, composeBytes_one, finish_done]
  · rw [exec_busRead16, hread (w := .w16) (aligned_iff.2 h), widthBytes, readBytes_two, composeBytes_two, finish_done]
  · rw [exec_busRead32, hread (w := .w32) (aligned_iff.2 h), widthBytes, readBytes_four, composeBytes_four, finish_done]

/-- Settles O38: the aligned access lies inside the device, whose own read completes. -/
theorem busReadsDevice : Obligations.BusReadsDevice :=
  fun _ a _ hi hr => ⟨finish_memRead_ext hi hr (aligned_w8 a),
    fun h => finish_memRead_ext (w := .w16) hi hr (aligned_iff.2 h),
    fun h => finish_memRead_ext (w := .w32) hi hr (aligned_iff.2 h)⟩

/-- Settles O39: the bus write is RAM's own write, inside its bounds. -/
theorem busWritesRam : Obligations.BusWritesRam := by
  intro s a hwf hr
  obtain ⟨-, hown⟩ := ramWrites
  obtain ⟨hbyte, hhalf, hword⟩ := hown s a hwf
  refine ⟨fun v => ?_, fun h v => ?_, fun h v => ?_⟩
  · rw [exec_busWrite8, memWrite_eq_ramWrite hr (aligned_w8 a)]
    exact (hbyte v).1 (contains_ram_iff.1 (contains_of_resolve hr))
  · have ha : aligned .w16 a = true := aligned_iff.2 h
    have hin : a.toNat + 2 ≤ 0x100000 := ram_of_resolve hr ha
    rw [exec_busWrite16, memWrite_eq_ramWrite hr ha]
    exact (hhalf v).1 (by omega)
  · have ha : aligned .w32 a = true := aligned_iff.2 h
    have hin : a.toNat + 4 ≤ 0x100000 := ram_of_resolve hr ha
    rw [exec_busWrite32, memWrite_eq_ramWrite hr ha]
    exact (hword v).1 (by omega)

/-- Settles O40: the view and the ROM end the write in ReadOnly, and the boundary discards or surfaces it. -/
theorem busWritesToReadOnlyTargets : Obligations.BusWritesToReadOnlyTargets := by
  intro s a htarget
  have hwrite {w : Width} (h : aligned w a = true) (x : Data) :
      finish (memWrite w a x s) = .next (s.answered (boundaryVerdict s.surfaceReadOnly a x)) := by
    rcases htarget with hr | hr
    · rw [memWrite_view hr h, finish_done]
    · rw [memWrite_rom hr h, finish_done]
  exact ⟨fun v => hwrite (aligned_w8 a) _, fun h v => hwrite (w := .w16) (aligned_iff.2 h) _,
    fun h v => hwrite (w := .w32) (aligned_iff.2 h) v⟩

/-- Settles O41: the bus write is the device's byte writes behind the boundary; a single byte is permitted or refused, never in
part. -/
theorem busWritesDevice : Obligations.BusWritesDevice := by
  intro s a k d hi hr hd
  refine ⟨fun v => ?_, fun h v xs hx => ?_, fun h v xs hx => ?_⟩
  · refine (finish_memWrite_ext hi hr hd (aligned_w8 a) (splitBytes_byte v) rfl).trans ?_
    have hone : Machine.deviceWrites a [v] = [.write a v] := rfl
    rw [hone, permitsAll_singleton, permitsNone_singleton, refusedAll_singleton]
    by_cases hp : d.permits k (.write a v) = true
    · rw [if_pos hp, if_pos hp]
      rfl
    · rw [if_neg hp, if_neg hp, if_pos (by simp [hp])]
  · exact finish_memWrite_ext (w := .w16) hi hr hd (aligned_iff.2 h) (splitBytes_half v) hx
  · exact finish_memWrite_ext (w := .w32) hi hr hd (aligned_iff.2 h) rfl hx

/-- Settles O42: every target answers an aligned access, but for a device that would serve a write in part. -/
theorem everyBusAccessIsAnswered : Obligations.EveryBusAccessIsAnswered := by
  intro s a hi
  refine ⟨memRead_answers hi, memRead_answers hi, memRead_answers hi, fun v => memWrite_byte_answers hi _,
    fun v => ?_, fun v => ?_⟩
  · exact (memWrite_answers_or_partial (w := .w16) hi (v.setWidth 32)).imp_right And.right
  · exact (memWrite_answers_or_partial (w := .w32) hi v).imp_right And.right

end

section
/-! The obligations of 44_control.md: the overlay flag (R160, R161) and registration (R76, R162). -/

namespace Sys2Proof.Machine

/-! ### The overlay flag (R160, R161) -/

section Flag
variable {s : State} {a : Addr}

/-- Setting the flag replaces it, so it does not matter which it was (R161). -/
theorem exec_setOverlayActive_next (b : Bool) (s : State) :
    exec (.setOverlayActive b) s = .next (({ s with ovl := b } : State).answered (.ok 0#32)) := rfl

/-- Once the flag is cleared, the registry alone decides which region answers (R56). -/
theorem resolve_after_clearing : (({ s with ovl := false } : State).answered (.ok 0#32)).resolve a = s.scan a :=
  resolve_eq_scan (.inl rfl)

/-- Once the flag is set, the view answers below the size of the cached ROM (R51). -/
theorem resolve_after_setting {R : RomTyped} (hrom : s.romref = some R) (hlow : a.toNat < 0x20000) :
    (({ s with ovl := true } : State).answered (.ok 0#32)).resolve a = .view R :=
  resolve_overlay rfl hrom hlow

end Flag

/-! ### Registration (R76, R162) -/

/-- Handle 0 is the RAM, 1 the ROM, and every other one the device two below it (R76). -/
theorem regionOfHandle_eq (rid : BitVec 8) :
    regionOfHandle rid = if rid = 0#8 then .ram else if rid = 1#8 then .rom else .ext (rid.toNat - 2) := by
  by_cases h0 : rid = 0#8
  · rw [if_pos h0, h0]
    rfl
  · by_cases h1 : rid = 1#8
    · rw [if_neg h0, if_pos h1, h1]
      rfl
    · rw [if_neg h0, if_neg h1]
      rw [← BitVec.toNat_inj] at h0 h1
      obtain ⟨k, hk⟩ : ∃ k, rid.toNat = k + 2 := ⟨rid.toNat - 2, by simp at h0 h1; omega⟩
      simp only [regionOfHandle, hk, Nat.add_sub_cancel]

section Register
variable {s : State}

/-- The devices without bounds are those beyond the table `EXT` (R90). -/
theorem bounds_ext_eq_none_iff {k : Nat} : s.bounds (.ext k) = none ↔ s.ext.length ≤ k := by
  simp [State.bounds]

/-- A region with bounds is appended, and its kind decides the cached reference (R162). -/
theorem execRegister_of_bounds {r : Region} (h : s.bounds r ≠ none) :
    exec (.register r) s =
      .next (({ s with regs := s.regs ++ [r], romref := cachedRom r s.romref } : State).answered (.ok 0#32)) := by
  obtain ⟨ends, hends⟩ := Option.ne_none_iff_exists'.1 h
  rw [exec_register, registerRegion, hends, finish_done]

end Register

end Sys2Proof.Machine

open Sys2Proof Sys2Proof.Machine

/-- Settles O46: reading the flag answers with it, and setting it replaces it. -/
theorem overlayFlag : Obligations.OverlayFlag :=
  fun s => ⟨exec_isOverlayActive s, fun b => exec_setOverlayActive_next b s⟩

/-- Settles O47: with the flag clear the address resolves to what the registry gives, the RAM, and with the flag set to the view
over the ROM, at the same offset. -/
theorem overlaySwitchIsSeenAtOnce : Obligations.OverlaySwitchIsSeenAtOnce := by
  intro s a hrom hlow hscan
  have hram := resolve_after_clearing.trans hscan
  have hview := resolve_after_setting hrom hlow
  exact ⟨_, _, exec_setOverlayActive_next false s, (busReadsStorage _ a s.ram a.toNat (.inr (.inl ⟨hram, rfl, rfl⟩))).1,
    exec_setOverlayActive_next true _, (busReadsStorage _ a s.rom a.toNat (.inl ⟨hview, rfl, rfl⟩)).1⟩

/-- Settles O48: a handle names its region, the RAM, the ROM and the devices of the table have bounds and are appended, and the
other devices have none. -/
theorem registerAppends : Obligations.RegisterAppends := by
  refine ⟨fun d a => ?_, fun s => ⟨?_, ?_, fun k => ⟨fun hk => ?_, fun hk => ?_⟩⟩⟩
  · rw [decode_cfg_requestWord, ← regionOfHandle_eq]
    rfl
  · exact execRegister_of_bounds (by simp)
  · exact execRegister_of_bounds (by simp)
  · exact execRegister_of_bounds (mt bounds_ext_eq_none_iff.1 (Nat.not_le.2 hk))
  · exact execRegister_of_bounds_none (bounds_ext_eq_none_iff.2 hk)

end

section
/-! The obligations of 60_exceptions.md: the outcomes an operation can end in (R103, R170, R174), their order on the bus (R175),
and the Cycle Counter beside the block (R186 to R189). -/

namespace Sys2Proof.Machine

/-! ### The outcome code of an operation (R73, R174) -/

@[simp] theorem replyStatus_answered (s : State) (v : Verdict) : replyStatus (s.answered v) = some (statusCode v) :=
  congrArg some (statusOf_responseWord v)

/-- Whatever outcome the operation ends in, its code is one of `cs`. -/
def Served.Codes (cs : List (BitVec 4)) (x : Served) : Prop := ∀ v u, x = .done v u → statusCode v ∈ cs

section Codes
variable {s t : State} {cs : List (BitVec 4)} {k : Nat} {a : Addr} {n : Nat}

theorem replyStatus_mem_of_codes {x : Served} (hx : x.Codes cs) (h : finish x = .next t) : replyStatus t ∈ cs.map some := by
  obtain ⟨v, u, hd, rfl⟩ := finish_next h
  rw [replyStatus_answered]
  exact List.mem_map_of_mem (hx v u hd)

theorem codes_ok (x : Data) : (Served.done (.ok x) s).Codes (0x0#4 :: cs) := by
  rintro _ _ ⟨⟩
  exact List.mem_cons_self

theorem codes_readOnly (a : Addr) (x : Data) : (Served.done (.readOnly a x) s).Codes [0x0#4, 0x3#4] := by
  rintro _ _ ⟨⟩
  exact List.mem_cons_of_mem _ (List.mem_singleton.2 rfl)

theorem codes_refused (r : Refusal) : (Served.refused r).Codes cs := nofun

theorem codes_within {r : Region} {f : Nat → Served} (hn : 0 < n) (h : ∀ o, (f o).Codes cs) :
    (s.within r a n f).Codes cs := by
  intro v u hd
  obtain ⟨_, _, _, _, _, hf⟩ := within_cases hn hd
  exact h _ v u hf

theorem codes_withDevice {f : Device → Served} (hn : 0 < n) (h : ∀ d, (f d).Codes cs) :
    (s.withDevice k a n f).Codes cs := by
  intro v u hd
  obtain ⟨d, _, _, _, hf⟩ := withDevice_cases hn hd
  exact h d v u hf

theorem codes_viewServes {R : RomTyped} {x : Served} (h : x.Codes cs) : (viewServes R a n s x).Codes cs := by
  intro v u hd
  obtain ⟨-, -, hx⟩ := viewServes_cases hd
  exact h v u hx

end Codes

/-! ### At a region port: OK or ReadOnly, and a read only OK (R103) -/

section RegionPort
variable (w : Width) (k : Nat) (r : Region) (a : Addr) (x : Data) (b : Bool) (s : State)

theorem codes_ramRead : (ramRead w a s).Codes [0x0#4] := codes_within (widthBytes_pos w) fun _ => codes_ok _

theorem codes_romRead : (romRead w a s).Codes [0x0#4] := codes_within (widthBytes_pos w) fun _ => codes_ok _

theorem codes_extRead : (extRead w k a s).Codes [0x0#4] := codes_withDevice (widthBytes_pos w) fun _ => codes_ok _

theorem codes_regionRead : (regionRead w r a s).Codes [0x0#4] := by
  cases r with
  | ram => exact codes_ramRead w a s
  | rom => exact codes_romRead w a s
  | ext k => exact codes_extRead w k a s

theorem codes_ramReadBit : (ramReadBit a s).Codes [0x0#4] := codes_within Nat.one_pos fun _ => codes_ok _

theorem codes_romReadBit : (romReadBit a s).Codes [0x0#4] := codes_within Nat.one_pos fun _ => codes_ok _

theorem codes_extReadBit : (extReadBit k a s).Codes [0x0#4] := by
  refine codes_withDevice Nat.one_pos fun d => ?_
  split
  · exact codes_ok _
  · exact codes_refused _

theorem codes_ramWrite : (ramWrite w a x s).Codes [0x0#4, 0x3#4] := codes_within (widthBytes_pos w) fun _ => codes_ok _

theorem codes_romWrite : (romWrite w a x s).Codes [0x0#4, 0x3#4] :=
  codes_within (widthBytes_pos w) fun _ => codes_readOnly a x

theorem codes_extWrite : (extWrite w k a x s).Codes [0x0#4, 0x3#4] := by
  refine codes_withDevice (widthBytes_pos w) fun d => ?_
  split
  · exact codes_ok _
  · exact codes_readOnly a x
  · exact codes_refused _

theorem codes_regionWrite : (regionWrite w r a x s).Codes [0x0#4, 0x3#4] := by
  cases r with
  | ram => exact codes_ramWrite w a x s
  | rom => exact codes_romWrite w a x s
  | ext k => exact codes_extWrite w k a x s

theorem codes_ramWriteBit : (ramWriteBit a b s).Codes [0x0#4, 0x3#4] := codes_within Nat.one_pos fun _ => codes_ok _

theorem codes_romWriteBit : (romWriteBit a b s).Codes [0x0#4, 0x3#4] :=
  codes_within Nat.one_pos fun _ => codes_readOnly a _

theorem codes_extWriteBit : (extWriteBit k a b s).Codes [0x0#4, 0x3#4] := by
  refine codes_withDevice Nat.one_pos fun d => ?_
  split
  · split
    · exact codes_ok _
    · exact codes_readOnly a _
  · exact codes_refused _

/-- An operation at a region port is a read, which ends in OK, or one of the operations with a code from 4 on, which end in OK or
ReadOnly (R71, R103). -/
theorem exec_of_regionPort {i : Instr} {n : Nat} (h : i.portAccess = some (r, a, n)) :
    (∃ y, exec i s = finish y ∧ y.Codes [0x0#4]) ∨
    4 ≤ (opField (encodeWord i)).toNat ∧ ∃ y, exec i s = finish y ∧ y.Codes [0x0#4, 0x3#4] := by
  cases i with
  | ramRead8 | ramRead16 | ramRead32 => exact .inl ⟨_, rfl, codes_ramRead _ _ s⟩
  | romRead8 | romRead16 | romRead32 => exact .inl ⟨_, rfl, codes_romRead _ _ s⟩
  | extRead8 | extRead16 | extRead32 => exact .inl ⟨_, rfl, codes_extRead _ _ _ s⟩
  | ramReadBit => exact .inl ⟨_, rfl, codes_ramReadBit _ s⟩
  | romReadBit => exact .inl ⟨_, rfl, codes_romReadBit _ s⟩
  | extReadBit => exact .inl ⟨_, rfl, codes_extReadBit _ _ s⟩
  | ramWrite8 | ramWrite16 | ramWrite32 =>
    exact .inr ⟨by simp [encodeWord], _, rfl, codes_ramWrite _ _ _ s⟩
  | romWrite8 | romWrite16 | romWrite32 =>
    exact .inr ⟨by simp [encodeWord], _, rfl, codes_romWrite _ _ _ s⟩
  | extWrite8 | extWrite16 | extWrite32 =>
    exact .inr ⟨by simp [encodeWord], _, rfl, codes_extWrite _ _ _ _ s⟩
  | ramWriteBit => exact .inr ⟨by simp [encodeWord], _, rfl, codes_ramWriteBit _ _ s⟩
  | romWriteBit => exact .inr ⟨by simp [encodeWord], _, rfl, codes_romWriteBit _ _ s⟩
  | extWriteBit => exact .inr ⟨by simp [encodeWord], _, rfl, codes_extWriteBit _ _ _ s⟩
  | busRead8 | busRead16 | busRead32 | busWrite8 | busWrite16 | busWrite32 | viewRead8 | viewRead16 | viewRead32
  | viewReadBit | viewWrite8 | viewWrite16 | viewWrite32 | viewWriteBit | isOverlayActive | setOverlayActive
  | register => cases h

end RegionPort

/-! ### At the control ports: OK (R174) -/

theorem codes_registerRegion (r : Region) (s : State) : (registerRegion r s).Codes [0x0#4] := by
  rw [registerRegion]
  split
  · exact codes_refused _
  · exact codes_ok _

/-! ### On the bus: the first condition that applies (R174, R175) -/

/-- The outcome codes of one bus access, each with the conditions it is reported under; ReadOnly only of a write, where it is
surfaced (R148). -/
inductive BusOutcome (s : State) (w : Width) (a : Addr) (isWrite : Bool) : BitVec 4 → Prop where
  | misaligned (h : a.toNat % widthBytes w ≠ 0) : BusOutcome s w a isWrite 0x2#4
  | unmapped (h : a.toNat % widthBytes w = 0) (hr : s.resolve a = .nothing) : BusOutcome s w a isWrite 0x1#4
  | ok (h : a.toNat % widthBytes w = 0) (hr : s.resolve a ≠ .nothing) : BusOutcome s w a isWrite 0x0#4
  | readOnly (h : a.toNat % widthBytes w = 0) (hr : s.resolve a ≠ .nothing) (hw : isWrite = true)
      (hsurface : s.surfaceReadOnly = true) : BusOutcome s w a isWrite 0x3#4

section Bus
variable {s t u : State} {w : Width} {a : Addr} {isWrite : Bool} {v : Verdict}

theorem codes_viewRead (w : Width) (R : RomTyped) (a : Addr) (s : State) : (viewRead w R a s).Codes [0x0#4] :=
  codes_viewServes (codes_regionRead w _ _ s)

theorem codes_viewWrite (w : Width) (R : RomTyped) (a : Addr) (x : Data) (s : State) :
    (viewWrite w R a x s).Codes [0x0#4, 0x3#4] :=
  codes_viewServes (codes_readOnly a x)

/-- A read that something claims ends in OK. -/
theorem busOutcome_of_read {x : Served} (h : a.toNat % widthBytes w = 0) (hr : s.resolve a ≠ .nothing) (hx : x.Codes [0x0#4])
    (hd : x = .done v u) : BusOutcome s w a isWrite (statusCode v) := by
  rw [List.mem_singleton.1 (hx v u hd)]
  exact .ok h hr

/-- Where it is surfaced, the boundary passes a ReadOnly on like any other outcome (R148). -/
theorem atBoundary_surfaced (x : Served) : atBoundary true x = x := by
  cases x with
  | refused => rfl
  | done v u => cases v <;> rfl

/-- Where it is not surfaced, a ReadOnly becomes OK (R148). -/
theorem codes_atBoundary_discarded {x : Served} (hx : x.Codes [0x0#4, 0x3#4]) : (atBoundary false x).Codes [0x0#4] := by
  cases x with
  | refused => exact codes_refused _
  | done v u =>
    cases v with
    | ok | readOnly => exact codes_ok _
    | unmapped | misaligned => exact absurd (hx _ _ rfl) (by simp [statusCode])

/-- A write that something claims ends in OK, or in a ReadOnly that the boundary surfaces. -/
theorem busOutcome_of_write {x : Served} (h : a.toNat % widthBytes w = 0) (hr : s.resolve a ≠ .nothing)
    (hx : x.Codes [0x0#4, 0x3#4]) (hd : atBoundary s.surfaceReadOnly x = .done v u) :
    BusOutcome s w a true (statusCode v) := by
  cases hsurface : s.surfaceReadOnly with
  | false =>
    rw [hsurface] at hd
    exact busOutcome_of_read h hr (codes_atBoundary_discarded hx) hd
  | true =>
    rw [hsurface, atBoundary_surfaced] at hd
    rcases List.mem_pair.1 (hx v u hd) with hv | hv
    · rw [hv]
      exact .ok h hr
    · rw [hv]
      exact .readOnly h hr rfl hsurface

theorem memRead_outcome (hd : memRead w a s = .done v u) : BusOutcome s w a false (statusCode v) := by
  by_cases ha : aligned w a = true
  · have h := aligned_iff.1 ha
    cases hr : s.resolve a with
    | nothing =>
      rw [memRead_nothing hr ha] at hd
      cases hd
      exact .unmapped h hr
    | view R =>
      rw [memRead, if_pos ha, hr] at hd
      exact busOutcome_of_read h (by simp [hr]) (codes_viewRead w R a s) hd
    | region r =>
      rw [memRead, if_pos ha, hr] at hd
      exact busOutcome_of_read h (by simp [hr]) (codes_regionRead w r a s) hd
  · rw [memRead_misaligned ha] at hd
    cases hd
    exact .misaligned (mt aligned_iff.2 ha)

theorem memWrite_outcome {x : Data} (hd : memWrite w a x s = .done v u) : BusOutcome s w a true (statusCode v) := by
  by_cases ha : aligned w a = true
  · have h := aligned_iff.1 ha
    cases hr : s.resolve a with
    | nothing =>
      rw [memWrite_nothing hr ha] at hd
      cases hd
      exact .unmapped h hr
    | view R =>
      rw [memWrite, if_pos ha, hr] at hd
      exact busOutcome_of_write h (by simp [hr]) (codes_viewWrite w R a x s) hd
    | region r =>
      rw [memWrite, if_pos ha, hr] at hd
      exact busOutcome_of_write h (by simp [hr]) (codes_regionWrite w r a x s) hd
  · rw [memWrite_misaligned ha] at hd
    cases hd
    exact .misaligned (mt aligned_iff.2 ha)

theorem finish_memRead_outcome (h : finish (memRead w a s) = .next t) :
    ∃ c, replyStatus t = some c ∧ BusOutcome s w a false c := by
  obtain ⟨v, u, hd, rfl⟩ := finish_next h
  exact ⟨_, replyStatus_answered u v, memRead_outcome hd⟩

theorem finish_memWrite_outcome {x : Data} (h : finish (memWrite w a x s) = .next t) :
    ∃ c, replyStatus t = some c ∧ BusOutcome s w a true c := by
  obtain ⟨v, u, hd, rfl⟩ := finish_next h
  exact ⟨_, replyStatus_answered u v, memWrite_outcome hd⟩

/-- A single byte is aligned everywhere (R44). -/
theorem width_ne_byte_of_misaligned (h : a.toNat % widthBytes w ≠ 0) : w ≠ .w8 := by
  rintro rfl
  exact h (Nat.mod_one _)

/-- A bus read is never ReadOnly, and of a single byte, which is always aligned, never Misaligned (R44, R174). -/
theorem status_busRead (h : finish (memRead w a s) = .next t) :
    replyStatus t ∈ [some 0x0#4, some 0x1#4] ∨ w ≠ .w8 ∧ replyStatus t = some 0x2#4 := by
  obtain ⟨c, hc, ho⟩ := finish_memRead_outcome h
  rw [hc]
  cases ho with
  | misaligned hmis => exact .inr ⟨width_ne_byte_of_misaligned hmis, rfl⟩
  | unmapped | ok => exact .inl (by simp)
  | readOnly _ _ hw => cases hw

/-- A bus write is ReadOnly only where that is surfaced, and of a single byte never Misaligned (R44, R148, R174). -/
theorem status_busWrite {x : Data} (h : finish (memWrite w a x s) = .next t) :
    (replyStatus t ∈ [some 0x0#4, some 0x1#4] ∨ w ≠ .w8 ∧ replyStatus t = some 0x2#4) ∨
      s.surfaceReadOnly = true ∧ replyStatus t = some 0x3#4 := by
  obtain ⟨c, hc, ho⟩ := finish_memWrite_outcome h
  rw [hc]
  cases ho with
  | misaligned hmis => exact .inl (.inr ⟨width_ne_byte_of_misaligned hmis, rfl⟩)
  | unmapped | ok => exact .inl (.inl (by simp))
  | readOnly _ _ _ hsurface => exact .inr ⟨hsurface, rfl⟩

end Bus

/-! ### The Cycle Counter (R188) -/

/-- A positive frequency has a period, the master clock divided by it. -/
theorem serve_ticksForPeriod {hz : Nat} (h : 0 < hz) (s : State) :
    serve (.counter (.ticksForPeriod hz)) s = .next { s with reply := .number (7833600 / hz) } := by
  rw [serve, serveCounter, counterPeriod, ticksForPeriod, if_neg (Nat.ne_of_gt h)]
  rfl

end Sys2Proof.Machine

open Sys2Proof Sys2Proof.Machine

/-- Settles O36: alignment passes, and an address that resolves to nothing is answered before any target is reached. -/
theorem unclaimedIsUnmapped : Obligations.UnclaimedIsUnmapped := by
  intro s a hr
  have hread {w : Width} (h : a.toNat % widthBytes w = 0) : finish (memRead w a s) = .next (s.answered (.unmapped a)) :=
    congrArg finish (memRead_nothing hr (aligned_iff.2 h))
  have hwrite {w : Width} (h : a.toNat % widthBytes w = 0) (x : Data) :
      finish (memWrite w a x s) = .next (s.answered (.unmapped a)) :=
    congrArg finish (memWrite_nothing hr (aligned_iff.2 h) x)
  exact ⟨rfl, hread (w := .w8) (Nat.mod_one _), fun v => hwrite (w := .w8) (Nat.mod_one _) _,
    fun h => ⟨hread (w := .w16) h, fun v => hwrite (w := .w16) h _⟩,
    fun h => ⟨hread (w := .w32) h, fun v => hwrite (w := .w32) h v⟩⟩

/-- Settles O60: a bus access has one of four outcomes, and the conditions they are reported under exclude each other. -/
theorem faultPriority : Obligations.FaultPriority := by
  intro i a n s t hi h
  have hout : ∃ w isWrite c, n = widthBytes w ∧ replyStatus t = some c ∧ BusOutcome s w a isWrite c := by
    rcases hi with ⟨rfl, rfl | ⟨v, rfl⟩⟩ | ⟨rfl, rfl | ⟨v, rfl⟩⟩ | ⟨rfl, rfl | ⟨v, rfl⟩⟩
    · exact ⟨.w8, _, (finish_memRead_outcome h).imp fun _ hc => ⟨rfl, hc⟩⟩
    · exact ⟨.w8, _, (finish_memWrite_outcome h).imp fun _ hc => ⟨rfl, hc⟩⟩
    · exact ⟨.w16, _, (finish_memRead_outcome h).imp fun _ hc => ⟨rfl, hc⟩⟩
    · exact ⟨.w16, _, (finish_memWrite_outcome h).imp fun _ hc => ⟨rfl, hc⟩⟩
    · exact ⟨.w32, _, (finish_memRead_outcome h).imp fun _ hc => ⟨rfl, hc⟩⟩
    · exact ⟨.w32, _, (finish_memWrite_outcome h).imp fun _ hc => ⟨rfl, hc⟩⟩
  obtain ⟨w, isWrite, c, rfl, hc, ho⟩ := hout
  rw [hc]
  cases ho with
  | misaligned hmis => simp [hmis]
  | unmapped ha hr => simp [ha, hr]
  | ok ha hr => simp [ha, hr]
  | readOnly ha hr => simp [ha, hr]

/-- Settles O43: on the bus the four outcomes with their conditions, at a region port OK or ReadOnly, at a control port OK. -/
theorem outcomesByOperation : Obligations.OutcomesByOperation := by
  intro s t i h
  have hbyte {q : Prop} : ¬ (Width.w8 ≠ .w8 ∧ q) := fun hw => hw.1 rfl
  have hwide (w : Width) (hs : replyStatus t ∈ [some 0x0#4, some 0x1#4] ∨ w ≠ .w8 ∧ replyStatus t = some 0x2#4) :
      replyStatus t ∈ [some 0x0#4, some 0x1#4, some 0x2#4] := by
    rcases hs with hs | ⟨-, hs⟩
    · exact List.mem_append_left [some 0x2#4] hs
    · simp [hs]
  refine ⟨?_, ?_, ?_, ?_, ?_, ?_⟩
  · rintro a rfl
    exact (status_busRead h).resolve_right hbyte
  · rintro a (rfl | rfl)
    · exact hwide .w16 (status_busRead h)
    · exact hwide .w32 (status_busRead h)
  · rintro a v rfl
    exact (status_busWrite h).imp_left fun hs => hs.resolve_right hbyte
  · rintro a v v' (rfl | rfl)
    · exact (status_busWrite h).imp_left (hwide .w16)
    · exact (status_busWrite h).imp_left (hwide .w32)
  · intro r a n hi
    rcases exec_of_regionPort r a s hi with ⟨y, hy, hcodes⟩ | ⟨hop, y, hy, hcodes⟩
    · have hok := List.mem_singleton.1 (replyStatus_mem_of_codes hcodes (hy.symm.trans h))
      exact ⟨hok ▸ List.mem_cons_self, fun _ => hok⟩
    · exact ⟨replyStatus_mem_of_codes hcodes (hy.symm.trans h), fun hlt => absurd hlt (Nat.not_lt.2 hop)⟩
  · intro b r hi
    refine (List.mem_singleton (b := some 0x0#4)).1 ?_
    rcases hi with rfl | rfl | rfl
    · exact replyStatus_mem_of_codes (codes_ok (cs := []) _) h
    · exact replyStatus_mem_of_codes (codes_ok (cs := []) _) h
    · exact replyStatus_mem_of_codes (codes_registerRegion r s) h

/-- Settles O50: no operation reads the count or changes it, and a call of the counter only adds to it and replies. -/
theorem counterIsIndependent : Obligations.CounterIsIndependent := by
  refine ⟨fun i s t n h => ?_, fun c s t h => ?_⟩
  · obtain ⟨v, u, he, rfl⟩ := exec_effect h
    obtain ⟨hinputs, -, hticks, -⟩ := effect_fixed he
    refine ⟨hticks, (exec_unread s.reply n s.inputs s i).trans ?_⟩
    rw [h, ← hinputs]
    rfl
  · obtain ⟨n, r, rfl⟩ := serveCounter_next h
    exact ⟨rfl, Nat.le_add_right _ _⟩

/-- Settles O49: the call at the head of the inputs is served; the period is the quotient of the division with remainder. -/
theorem cycleCounter : Obligations.CycleCounter := by
  refine fun s rest => ⟨fun delta hs => step_of_inputs_cons hs, fun hs => step_of_inputs_cons hs, fun hz hpos hs => ?_,
    fun hs => step_of_inputs_cons hs⟩
  refine ⟨7833600 / hz, ?_, Nat.div_mul_le_self _ _, ?_⟩
  · rw [step_of_inputs_cons hs]
    exact serve_ticksForPeriod hpos _
  · rw [Nat.mul_comm]
    exact Nat.lt_mul_div_succ _ hpos

end

section
/-! The obligation of 70_reset_and_hazards.md: registration by the standard sequence leaves the launch state (R202). -/

namespace Sys2Proof.Machine

/-- Which regions have bounds does not depend on the inputs yet to be served. -/
theorem bounds_inputs (s : State) (xs : List Input) (q : Region) : ({ s with inputs := xs } : State).bounds q = s.bounds q :=
  bounds_unread s.reply s.ticks xs s q

/-- A word that asks to register a region with bounds takes a step, which appends the region (R13, R162). -/
theorem step_register {s : State} {w : Word64} {r : Region} {rest : List Input} (hs : s.inputs = .request .cfg w :: rest)
    (hd : decode .cfg w = .ok (.register r)) (hbounds : s.bounds r ≠ none) :
    step s = .next { s with
      regs := s.regs ++ [r], romref := cachedRom r s.romref, inputs := rest, reply := .word (responseWord (.ok 0#32)) } :=
  calc
    step s = serve (.request .cfg w) { s with inputs := rest } := step_of_inputs_cons hs
    _ = exec (.register r) { s with inputs := rest } := serve_request_ok hd _
    _ = _ := execRegister_of_bounds ((bounds_inputs s rest r).trans_ne hbounds)

end Sys2Proof.Machine

open Sys2Proof Sys2Proof.Machine

/-- Settles O14: each word names a region that has bounds, so its step appends the region, and the second, the ROM, is cached. -/
theorem standardRegistrationLaunches : Obligations.StandardRegistrationLaunches := by
  intro s hregs _ hinputs
  have hram : decode .cfg 0xA000000000000000#64 = .ok (.register .ram) := decode_register (by decide) (by decide)
  have hrom : decode .cfg 0xA000000000000001#64 = .ok (.register .rom) := decode_register (by decide) (by decide)
  refine ⟨_, _, step_register hinputs hram (by simp), step_register rfl hrom (by simp), ?_⟩
  rw [hregs]
  rfl

end
